-- ==== Sys2Proof/Word.lean ====
section
/-! DEFINITION. The word types of the block: bus words, interrupt IDs, target masks (00_scope.md R7, R9). -/

namespace Sys2Proof

/-- A bus word, a command word, a data word or a 32-bit register (00_scope.md R7: word width and address width 32). -/
abbrev Word := BitVec 32

/-- An interrupt ID: 10 bits, unsigned (00_scope.md R7, 30_encoding.md R69). -/
abbrev IrqId := BitVec 10

/-- A CPU target mask, one bit per CPU (00_scope.md R7, 10_state.md R18). -/
abbrev CpuMask := BitVec 8

end Sys2Proof
end

