-- ==== Sys2Proof/Syntax.lean ====
section
/-! DEFINITION. The twelve commands of the block with their operands (30_encoding.md R68 to R73), one constructor per
row of the opcode table. -/

namespace Sys2Proof

/-- The register bank a format R command names: BANK 0 is the Distributor, BANK 1 the CPU Interface (30_encoding.md R70). -/
inductive Bank where
  | dist
  | cpu
  deriving DecidableEq, Repr, Inhabited

/-- The trigger kind of an interrupt line, the closed set of 30_encoding.md R72. -/
inductive TrigKind where
  | level
  | edge
  deriving DecidableEq, Repr

/-- The security grouping of an interrupt, the closed set of 30_encoding.md R72. -/
inductive Security where
  | secure
  | nonSecure
  deriving DecidableEq, Repr

/-- A decoded command with its operands. The data word is an operand of REG_WRITE alone (30_encoding.md R67). -/
inductive Instr where
  /-- `REG_READ bank, off` (40_register_access.md R88). -/
  | regRead (bank : Bank) (off : BitVec 12)
  /-- `REG_WRITE bank, off, data` (40_register_access.md R89). -/
  | regWrite (bank : Bank) (off : BitVec 12) (data : Word)
  /-- `RESOLVE_MASK` (41_mask_resolver.md R93). -/
  | resolveMask
  /-- `SET_TRIGGER irq, kind` (42_trigger.md R97). -/
  | setTrigger (kind : TrigKind) (irq : IrqId)
  /-- `SET_PENDING irq` (43_pending_security.md R100). -/
  | setPending (irq : IrqId)
  /-- `CLEAR_PENDING irq` (43_pending_security.md R101). -/
  | clearPending (irq : IrqId)
  /-- `SET_SECURITY irq, sec` (43_pending_security.md R102). -/
  | setSecurity (sec : Security) (irq : IrqId)
  /-- `ENABLE irq` (44_enable_disable.md R105). -/
  | enable (irq : IrqId)
  /-- `DISABLE irq` (44_enable_disable.md R106). -/
  | disable (irq : IrqId)
  /-- `ACK` (45_ack_complete.md R109). -/
  | ack
  /-- `COMPLETE irq` (45_ack_complete.md R110). -/
  | complete (irq : IrqId)
  /-- `SET_TYPE irq, #arg`: all sixteen external type codes decode (30_encoding.md R72, 46_set_type.md R114). -/
  | setType (arg : BitVec 4) (irq : IrqId)
  deriving DecidableEq, Repr

end Sys2Proof
end

