-- ==== Sys2Proof/Config.lean ====
section
/-! DEFINITION. What an implementation fixes (00_scope.md R7), the input ports of the block (20_memory.md R57,
30_encoding.md R66), and the one free value: what the host and the environment drive on the ports. -/

namespace Sys2Proof

/-- The two values of `GROUP_BASE` (00_scope.md R7, 20_memory.md R49). -/
inductive GroupBase where
  /-- `GROUP_BASE = 0x080`: a GROUP register family of its own (the default). -/
  | dedicated
  /-- `GROUP_BASE = 0x100`: the reference aliasing, SET_SECURITY addresses ENABLE_SET. -/
  | aliased
  deriving DecidableEq, Repr

/-- One entry of the write-ignore parameter: the bits of the word `(bank, off)` that a write does not change (R31). -/
structure WriteIgnore where
  bank : Bank
  off : Nat
  mask : Word
  deriving DecidableEq, Repr

/-- The implementation parameters (00_scope.md R7). The state carries them, unchanged by every step, so that a claim
about every state quantifies over them. -/
structure Params where
  /-- `N_IRQ`, the number of interrupt lines. -/
  nIrq : Nat
  /-- `DIST_BASE`, the base address of the Distributor window. -/
  distBase : Word
  /-- `CPU_BASE`, the base address of the CPU Interface window. -/
  cpuBase : Word
  /-- `GROUP_BASE`, the offset of the register family SET_SECURITY addresses. -/
  groupBase : GroupBase
  /-- `WI(bank, off)` as a list of the words whose mask is not 0; a word that is not listed has the mask 0.
  DESIGN CHOICE (assumption log 12): a list. -/
  writeIgnore : List WriteIgnore
  deriving DecidableEq, Repr

/-- The example configuration of 95_test_vectors.md. DESIGN CHOICE (assumption log 1): the spec leaves these values open. -/
def Params.reference : Params where
  nIrq := 64
  distBase := 0x10001000#32
  cpuBase := 0x10002000#32
  groupBase := .dedicated
  writeIgnore := []

/-- What the host and the environment drive during one step: the input signals of 20_memory.md R57 and
30_encoding.md R66, the word an ACK read returns, and the environment's changes of pending bits (10_state.md R36). -/
structure Pins where
  /-- `rst_n`, false while reset is asserted (70_reset_and_hazards.md R134). -/
  rstN : Bool
  /-- `cmd_valid`: the host presents a command. -/
  cmdValid : Bool
  /-- `cmd_word[31:0]`. -/
  cmdWord : Word
  /-- `cmd_data[31:0]`. -/
  cmdData : Word
  /-- `rsp_ready`: the host takes the response. -/
  rspReady : Bool
  /-- `bus_ack`: the target accepts the transaction presented. -/
  busAck : Bool
  /-- The 32-bit word an ACK read returns if one is performed now (10_state.md R36). -/
  ackData : Word
  /-- If reset asserts now while a transaction is presented: whether the target performed it (R136). -/
  inflightDone : Bool
  /-- The pending bits the environment sets (true) or clears (false) before this step (R36). -/
  pendChanges : List (IrqId × Bool)
  deriving DecidableEq, Repr, Inhabited

/-- No reset, no command, no response taken, no acknowledge, no change of a pending bit. -/
def Pins.quiet : Pins where
  rstN := true
  cmdValid := false
  cmdWord := 0#32
  cmdData := 0#32
  rspReady := false
  busAck := false
  ackData := 0#32
  inflightDone := false
  pendChanges := []

/-- FREE VALUE (assumption log 3): what the host and the environment drive in the step with this number, where the
state's script does not say it. It has no body: nothing can be proved of it but what holds whatever it is. -/
opaque Config.freePins : Nat → Pins

end Sys2Proof
end

