-- ==== Sys2Proof/WellFormed.lean ====
section
/-! DEFINITION. Which terms of Instr an encoding exists for. -/

namespace Sys2Proof

/-- The offset of a format R command is a multiple of 4 (30_encoding.md R70, R74(e)): bits 1:0 of OFF are 0. -/
def alignedOff (off : BitVec 12) : Bool := off.extractLsb' 0 2 == 0#2

/-- The terms that a command word and a data word encode: every operand is typed with the width of its field, so the
one remaining condition is the alignment of OFF. Whether an aligned offset names a register depends on `N_IRQ` and
`GROUP_BASE` and is checked in DECODE (40_register_access.md R90). -/
def Instr.wf : Instr → Bool
  | .regRead _ off => alignedOff off
  | .regWrite _ off _ => alignedOff off
  | .resolveMask => true
  | .setTrigger _ _ => true
  | .setPending _ => true
  | .clearPending _ => true
  | .setSecurity _ _ => true
  | .enable _ => true
  | .disable _ => true
  | .ack => true
  | .complete _ => true
  | .setType _ _ => true

end Sys2Proof
end

