-- ==== Sys2Proof/Decode.lean ====
section
/-! DEFINITION. The decoder of command words, total on all words (30_encoding.md R74, R75), and the encoder. -/

namespace Sys2Proof

/-- Why a command word is an illegal encoding (30_encoding.md R74). All of them end the command with `IllegalCommand`. -/
inductive DecodeError where
  /-- R74(a): OP is 0x0, 0xD, 0xE or 0xF. -/
  | reservedOpcode
  /-- R74(b): a reserved field of the format is not 0. -/
  | reservedField
  /-- R74(c), (d): ARG lies outside the closed set of the command. -/
  | argOutsideSet
  /-- R74(e): OFF is not a multiple of 4. -/
  | misalignedOffset
  deriving DecidableEq, Repr

/-- OP, bits 31:28 (30_encoding.md R68 to R70). -/
def opField (cmd : Word) : BitVec 4 := cmd.extractLsb' 28 4

/-- IRQ, bits 9:0 (R69, R71). -/
def irqField (cmd : Word) : IrqId := cmd.extractLsb' 0 10

/-- ARG, bits 15:12 (R69, R71). -/
def argField (cmd : Word) : BitVec 4 := cmd.extractLsb' 12 4

/-- OFF, bits 11:0 (R70, R71). -/
def offField (cmd : Word) : BitVec 12 := cmd.extractLsb' 0 12

/-- BANK, bit 27 (R70, R71). -/
def bankField (cmd : Word) : Bank := if cmd.getLsbD 27 then .cpu else .dist

/-- Format N: bits 27:0 are reserved and 0 (R68). -/
def reservedZeroN (cmd : Word) : Bool := cmd.extractLsb' 0 28 == 0#28

/-- Format I: bits 27:16 and 11:10 are reserved and 0 (R69). -/
def reservedZeroI (cmd : Word) : Bool := cmd.extractLsb' 16 12 == 0#12 && cmd.extractLsb' 10 2 == 0#2

/-- Format R: bits 26:12 are reserved and 0 (R70). -/
def reservedZeroR (cmd : Word) : Bool := cmd.extractLsb' 12 15 == 0#15

/-- A format N command (R68). -/
def decodeN (cmd : Word) (i : Instr) : Except DecodeError Instr :=
  if reservedZeroN cmd then .ok i else .error .reservedField

/-- A format R command (R70): the reserved field, then the alignment of OFF (R74(e)). -/
def decodeR (cmd : Word) (mk : Bank → BitVec 12 → Instr) : Except DecodeError Instr :=
  if reservedZeroR cmd then
    if alignedOff (offField cmd) then .ok (mk (bankField cmd) (offField cmd)) else .error .misalignedOffset
  else .error .reservedField

/-- A format I command whose accepted ARG values are those `mk` gives an instruction for (R69, R72). -/
def decodeI (cmd : Word) (mk : BitVec 4 → IrqId → Option Instr) : Except DecodeError Instr :=
  if reservedZeroI cmd then
    match mk (argField cmd) (irqField cmd) with
    | some i => .ok i
    | none => .error .argOutsideSet
  else .error .reservedField

/-- ARG of SET_TRIGGER: 0 level, 1 edge (R72). -/
def trigKindOfArg (arg : BitVec 4) : Option TrigKind :=
  if arg = 0#4 then some .level else if arg = 1#4 then some .edge else none

/-- ARG of SET_SECURITY: 0 secure, 1 non-secure (R72). -/
def securityOfArg (arg : BitVec 4) : Option Security :=
  if arg = 0#4 then some .secure else if arg = 1#4 then some .nonSecure else none

/-- The commands whose ARG must be 0 (R72). -/
def noArg (mk : IrqId → Instr) (arg : BitVec 4) (irq : IrqId) : Option Instr :=
  if arg = 0#4 then some (mk irq) else none

/-- The opcode map (30_encoding.md R73): every command word is one of the twelve commands or an illegal encoding.
`data` is the data word of the command port; REG_WRITE alone uses it (R67). -/
def decode (cmd data : Word) : Except DecodeError Instr :=
  match (opField cmd).toNat with
  | 0x1 => decodeR cmd .regRead
  | 0x2 => decodeR cmd fun bank off => .regWrite bank off data
  | 0x3 => decodeN cmd .resolveMask
  | 0x4 => decodeI cmd fun arg irq => (trigKindOfArg arg).map fun kind => .setTrigger kind irq
  | 0x5 => decodeI cmd (noArg .setPending)
  | 0x6 => decodeI cmd (noArg .clearPending)
  | 0x7 => decodeI cmd fun arg irq => (securityOfArg arg).map fun sec => .setSecurity sec irq
  | 0x8 => decodeI cmd (noArg .enable)
  | 0x9 => decodeI cmd (noArg .disable)
  | 0xA => decodeN cmd .ack
  | 0xB => decodeI cmd (noArg .complete)
  | 0xC => decodeI cmd fun arg irq => some (.setType arg irq)
  | _ => .error .reservedOpcode

/-- BANK of a bank (R70). -/
def Bank.code : Bank → BitVec 1
  | .dist => 0#1
  | .cpu => 1#1

/-- ARG of a trigger kind (R72). -/
def TrigKind.code : TrigKind → BitVec 4
  | .level => 0#4
  | .edge => 1#4

/-- ARG of a security grouping (R72). -/
def Security.code : Security → BitVec 4
  | .secure => 0#4
  | .nonSecure => 1#4

/-- A format N word (R68). -/
def encodeN (op : BitVec 4) : Word := op ++ 0#28

/-- A format I word (R69). -/
def encodeI (op arg : BitVec 4) (irq : IrqId) : Word := op ++ 0#12 ++ arg ++ 0#2 ++ irq

/-- A format R word (R70). -/
def encodeR (op : BitVec 4) (bank : Bank) (off : BitVec 12) : Word := op ++ bank.code ++ 0#15 ++ off

/-- The command word of an instruction (R73). -/
def encodeCmd : Instr → Word
  | .regRead bank off => encodeR 0x1#4 bank off
  | .regWrite bank off _ => encodeR 0x2#4 bank off
  | .resolveMask => encodeN 0x3#4
  | .setTrigger kind irq => encodeI 0x4#4 kind.code irq
  | .setPending irq => encodeI 0x5#4 0#4 irq
  | .clearPending irq => encodeI 0x6#4 0#4 irq
  | .setSecurity sec irq => encodeI 0x7#4 sec.code irq
  | .enable irq => encodeI 0x8#4 0#4 irq
  | .disable irq => encodeI 0x9#4 0#4 irq
  | .ack => encodeN 0xA#4
  | .complete irq => encodeI 0xB#4 0#4 irq
  | .setType arg irq => encodeI 0xC#4 arg irq

/-- The data word of an instruction: 0 but for REG_WRITE (R77). -/
def encodeData : Instr → Word
  | .regRead _ _ => 0#32
  | .regWrite _ _ data => data
  | .resolveMask => 0#32
  | .setTrigger _ _ => 0#32
  | .setPending _ => 0#32
  | .clearPending _ => 0#32
  | .setSecurity _ _ => 0#32
  | .enable _ => 0#32
  | .disable _ => 0#32
  | .ack => 0#32
  | .complete _ => 0#32
  | .setType _ _ => 0#32

/-- The words of an instruction on the command port: the command word and the data word (R67). -/
def encode (i : Instr) : Word × Word := (encodeCmd i, encodeData i)

/-- The command word of a table-numbered bit string: bits 31:0 (opcode_table.json numbers bit 0 as the least
significant bit of the command word). -/
def tableCmd (nbits w : Nat) : Word := BitVec.ofNat 32 (w % 2 ^ nbits)

/-- The data word of a table-numbered bit string: bits 63:32, 0 where the table's row gives no bits. -/
def tableData (nbits w : Nat) : Word := BitVec.ofNat 32 ((w % 2 ^ nbits) >>> 32)

/-- What the decoder reads from an instruction whose bits are `w`, numbered as the opcode table numbers them. -/
def decodeTableWord (nbits w : Nat) : Option Instr :=
  match decode (tableCmd nbits w) (tableData nbits w) with
  | .ok i => some i
  | .error _ => none

end Sys2Proof
end

