-- ==== Sys2Proof/Machine/State.lean ====
section
/-! DEFINITION. The state of the block as plain data, in the four groups of 10_state.md, and the machine after reset. -/

namespace Sys2Proof.Machine

/-- The FSM state (10_state.md R16). -/
inductive Fsm where
  | idle
  | decode
  | xfer
  | resp
  deriving DecidableEq, Repr

/-- The statuses a command can end with (60_exceptions.md R117). The codes 5 to 7 are never produced and have no value. -/
inductive Status where
  | ok
  | outOfRange
  | unsupportedTriggerType
  | illegalCommand
  | maskUnresolved
  deriving DecidableEq, Repr

/-- The kind of a transaction: R or W (10_state.md R33). -/
inductive Dir where
  | read
  | write
  deriving DecidableEq, Repr

/-- One entry of the ghost trace: kind, bank, byte offset, and the word read or written (10_state.md R33). -/
structure TraceEntry where
  dir : Dir
  bank : Bank
  off : Nat
  value : Word
  deriving DecidableEq, Repr

/-- The block's own registers (10_state.md R13 to R20), none of which a command or the bus can address (R22). -/
structure Block where
  /-- `fsm`, 2 bits (R16). -/
  fsm : Fsm
  /-- `step`, 3 bits: the number of the transaction in XFER (R16, R17). -/
  step : BitVec 3
  /-- `CMD`, the latched command word (R13). -/
  cmd : Word
  /-- `DATA`, the latched data word (R13). -/
  data : Word
  /-- `RSP_STATUS`, 3 bits: the status of the last completed command (R13). -/
  rspStatus : Status
  /-- `RSP_DATA`, the response data of the last completed command (R13). -/
  rspData : Word
  /-- `HOLD`, the word captured by the last read transaction (R13). -/
  hold : Word
  /-- `rsp_valid` (R15). -/
  rspValid : Bool
  /-- `MASK_CACHE`, the cached CPU target mask (R18). -/
  maskCache : CpuMask
  /-- `MASK_VALID` (R19). -/
  maskValid : Bool
  /-- `MASK_DEFAULTED` (R20). -/
  maskDefaulted : Bool
  /-- True from a clock edge with `rst_n = 0` to the first edge after it rises (70_reset_and_hazards.md R134).
  The model's own field; DEDUCED (assumption log 7). -/
  rstHeld : Bool
  deriving DecidableEq, Repr

/-- The state of the two target register banks (10_state.md R23 to R28). A family's words stand end to end, word `j`
at bits `32j` to `32j + 31`, so bit, field and byte `irq` of a vector are the spec's `EN[irq]`, `CFG[irq]` and
`TGT[irq]`. The widths are those of `N_IRQ = 1024`; the bits of interrupts that do not exist are 0 (`banksWf`).
DESIGN CHOICE (assumption log 11): the packing and the fixed widths. -/
structure Banks where
  /-- `EN`, one bit per interrupt (R23). -/
  en : BitVec 1024
  /-- `PEND`, one bit per interrupt (R24). -/
  pend : BitVec 1024
  /-- `GRP`, one bit per interrupt (R25); with the aliased `GROUP_BASE` no register reaches it. DESIGN CHOICE
  (assumption log 14): the field stays there. -/
  grp : BitVec 1024
  /-- `CFG`, a 2-bit field per interrupt (R26). -/
  cfg : BitVec 2048
  /-- `TGT`, a byte per interrupt (R27). -/
  tgt : BitVec 8192
  /-- `CPU_CTRL` (R28). -/
  cpuCtrl : Word
  deriving DecidableEq, Repr

/-- Ghost state, held by the model and not by the hardware (10_state.md R33 to R35). -/
structure Ghost where
  /-- `trace`, oldest transaction first (R33). -/
  trace : List TraceEntry
  /-- `outstanding`, most recent acknowledge last (R34). -/
  outstanding : List IrqId
  /-- `hazard_fault` (R35). -/
  hazardFault : Bool
  deriving DecidableEq, Repr

/-- The input side of the block. `script` and `cycle` are the model's own: they say what the host and the environment
drive, so that a claim about every state is a claim about every behaviour of theirs (assumption log 3). -/
structure Ports where
  /-- The levels sampled in the current step. -/
  pins : Pins
  /-- The levels of the steps to come; past its end they are free (`Config.freePins`). -/
  script : List Pins
  /-- The number of steps taken. -/
  cycle : Nat
  deriving DecidableEq, Repr

/-- The whole machine. -/
structure State where
  /-- The implementation parameters, changed by no step (00_scope.md R7). -/
  params : Params
  block : Block
  banks : Banks
  ghost : Ghost
  ports : Ports
  deriving DecidableEq, Repr

/-- The faults of a step. There is none: a command that cannot be performed ends with a status (60_exceptions.md R116),
a transaction that is never acknowledged keeps the block in XFER (20_memory.md R59), and `hazard_fault` is a ghost bit
of the state, after which the hardware goes on (10_state.md R35; DEDUCED, assumption log 16). -/
inductive Fault
  deriving DecidableEq, Repr

/-- The refusals of a step. -/
inductive Refusal where
  /-- An instruction without a meaning, raised by `exec`. Safe: nothing is said of the instruction. -/
  | notModelled (mnemonic : String)
  /-- The parameters break a constraint of 00_scope.md R8 ("A model refuses a configuration outside these
  constraints"), raised by `step`. Safe: nothing is said of such a block. -/
  | badConfiguration
  deriving DecidableEq, Repr

/-- The block's own registers after reset (10_state.md R38). DESIGN CHOICE (assumption log 4): `CMD`, `DATA`,
`RSP_STATUS`, `RSP_DATA` and `HOLD`, which R38 leaves unspecified, are 0 (status OK). -/
def Block.reset : Block where
  fsm := .idle
  step := 0#3
  cmd := 0#32
  data := 0#32
  rspStatus := .ok
  rspData := 0#32
  hold := 0#32
  rspValid := false
  maskCache := 0x01#8
  maskValid := false
  maskDefaulted := false
  rstHeld := false

/-- Every bank register 0. DESIGN CHOICE (assumption log 2): the spec gives no value (10_state.md R39). -/
def Banks.zero : Banks where
  en := 0#1024
  pend := 0#1024
  grp := 0#1024
  cfg := 0#2048
  tgt := 0#8192
  cpuCtrl := 0#32

/-- The ghost state at launch (10_state.md R40). -/
def Ghost.launch : Ghost where
  trace := []
  outstanding := []
  hazardFault := false

/-- The input side at launch: quiet levels, which the first step replaces (assumption log 3). -/
def Ports.launch (script : List Pins) : Ports where
  pins := .quiet
  script := script
  cycle := 0

/-- The machine just after reset with launch draws for the parameters, the bank contents and the inputs
(10_state.md R38 to R40, 70_reset_and_hazards.md R140). -/
def State.launch (p : Params) (b : Banks) (script : List Pins) : State where
  params := p
  block := .reset
  banks := b
  ghost := .launch
  ports := .launch script

/-- The machine right after reset: the launch state of the example configuration with zero banks and no script.
DESIGN CHOICE (assumption logs 1, 2, 4): the parameters, the banks and the unspecified registers. -/
def State.reset : State := .launch .reference .zero []

end Sys2Proof.Machine
end

