-- ==== Sys2Proof/Machine/Operands.lean ====
section
/-! DEFINITION. The operand arithmetic of every command: index functions and register offsets (00_scope.md R11,
20_memory.md R44), the register map (R46), the write-data muxes (30_encoding.md R83), the fold and the external
trigger types, and the word, bit and byte views of the bank vectors. -/

namespace Sys2Proof.Machine

/-! ### Index functions (00_scope.md R11) -/

/-- `w32(irq) = irq / 32`. -/
def w32 (irq : IrqId) : Nat := irq.toNat / 32

/-- `b32(irq) = irq % 32`. -/
def b32 (irq : IrqId) : Nat := irq.toNat % 32

/-- `w16(irq) = irq / 16`. -/
def w16 (irq : IrqId) : Nat := irq.toNat / 16

/-- `cb(irq) = 2*(irq % 16) + 1`, the trigger bit of the 2-bit field. -/
def cb (irq : IrqId) : Nat := 2 * (irq.toNat % 16) + 1

/-- `w4(irq) = irq / 4`. -/
def w4 (irq : IrqId) : Nat := irq.toNat / 4

/-- `sh(irq) = 8*(irq % 4)`, the shift of the byte lane. -/
def sh (irq : IrqId) : Nat := 8 * (irq.toNat % 4)

/-- `1 << k` on 32 bits (00_scope.md R9). -/
def oneHot (k : Nat) : Word := 1#32 <<< k

/-- `BitMask(irq) = 1 << b32(irq)` (20_memory.md R44). -/
def bitMask (irq : IrqId) : Word := oneHot (b32 irq)

/-! ### Register offsets (20_memory.md R44, R46) -/

/-- The value of `GROUP_BASE` (00_scope.md R7). -/
def groupOffset : GroupBase → Nat
  | .dedicated => 0x080
  | .aliased => 0x100

/-- `EnSetOff(irq)`. -/
def enSetOff (irq : IrqId) : Nat := 0x100 + 4 * w32 irq

/-- `EnClrOff(irq)`. -/
def enClrOff (irq : IrqId) : Nat := 0x180 + 4 * w32 irq

/-- `PendSetOff(irq)`. -/
def pendSetOff (irq : IrqId) : Nat := 0x200 + 4 * w32 irq

/-- `PendClrOff(irq)`. -/
def pendClrOff (irq : IrqId) : Nat := 0x280 + 4 * w32 irq

/-- `GrpOff(irq)`. -/
def grpOff (g : GroupBase) (irq : IrqId) : Nat := groupOffset g + 4 * w32 irq

/-- `TgtOff(irq)`. -/
def tgtOff (irq : IrqId) : Nat := 0x800 + 4 * w4 irq

/-- `CfgOff(irq)`. -/
def cfgOff (irq : IrqId) : Nat := 0xC00 + 4 * w16 irq

/-- The TARGET word the resolver reads at its step `i` (41_mask_resolver.md R93). -/
def probeOff (i : Nat) : Nat := 0x800 + 4 * i

/-- The CPU Interface register CTRL (R46). -/
def ctrlOff : Nat := 0x000

/-- The CPU Interface register ACK (R46). -/
def ackOff : Nat := 0x00C

/-- The CPU Interface register EOI (R46). -/
def eoiOff : Nat := 0x010

/-! ### Parameters (00_scope.md R7, R8) -/

/-- The constraints on the parameters (R8; R7 for the alignment and the disjointness of the windows). -/
def paramsOk (p : Params) : Bool :=
  p.nIrq % 32 == 0 && decide (32 ≤ p.nIrq) && decide (p.nIrq ≤ 1024)
  && p.distBase.toNat % 0x1000 == 0 && decide (p.distBase.toNat + 0x1000 ≤ 2 ^ 32)
  && p.cpuBase.toNat % 0x1000 == 0 && decide (p.cpuBase.toNat + 0x1000 ≤ 2 ^ 32)
  && decide (p.distBase.toNat + 0x1000 ≤ p.cpuBase.toNat ∨ p.cpuBase.toNat + 0x1000 ≤ p.distBase.toNat)

/-- Whether an interrupt exists: `irq < N_IRQ`. -/
def irqExists (p : Params) (irq : IrqId) : Bool := decide (irq.toNat < p.nIrq)

/-- `WI(bank, off)` (10_state.md R31): 0 for a word the parameter does not list. -/
def writeIgnoreAt (p : Params) (bank : Bank) (off : Nat) : Word :=
  match p.writeIgnore.find? (fun e => e.bank == bank && e.off == off) with
  | some e => e.mask
  | none => 0#32

/-- The base address of a bank (30_encoding.md R82). -/
def bankBase (p : Params) : Bank → Word
  | .dist => p.distBase
  | .cpu => p.cpuBase

/-- The bus address of an offset, `base + off` (20_memory.md R41, 30_encoding.md R82). -/
def busAddress (p : Params) (bank : Bank) (off : Nat) : Word := bankBase p bank + BitVec.ofNat 32 off

/-! ### The register map (20_memory.md R46) -/

/-- A mapped register, with its word index in its family (20_memory.md R46). -/
inductive Reg where
  | group (j : Nat)
  | enableSet (j : Nat)
  | enableClear (j : Nat)
  | pendingSet (j : Nat)
  | pendingClear (j : Nat)
  | target (j : Nat)
  | config (j : Nat)
  | ctrl
  | ack
  | eoi
  deriving DecidableEq, Repr

/-- `InFam(off, start, words)` (40_register_access.md R90). -/
def inFam (off start words : Nat) : Bool := decide (start ≤ off) && decide (off < start + 4 * words)

/-- The Distributor register at an offset, if one is mapped there (R46; the GROUP family only with the dedicated base). -/
def distReg (p : Params) (off : Nat) : Option Reg :=
  if off % 4 ≠ 0 then none
  else if p.groupBase = .dedicated ∧ inFam off 0x080 (p.nIrq / 32) = true then some (.group ((off - 0x080) / 4))
  else if inFam off 0x100 (p.nIrq / 32) then some (.enableSet ((off - 0x100) / 4))
  else if inFam off 0x180 (p.nIrq / 32) then some (.enableClear ((off - 0x180) / 4))
  else if inFam off 0x200 (p.nIrq / 32) then some (.pendingSet ((off - 0x200) / 4))
  else if inFam off 0x280 (p.nIrq / 32) then some (.pendingClear ((off - 0x280) / 4))
  else if inFam off 0x800 (p.nIrq / 4) then some (.target ((off - 0x800) / 4))
  else if inFam off 0xC00 (p.nIrq / 16) then some (.config ((off - 0xC00) / 4))
  else none

/-- The CPU Interface register at an offset, if one is mapped there (R46). -/
def cpuReg (off : Nat) : Option Reg :=
  if off = ctrlOff then some .ctrl
  else if off = ackOff then some .ack
  else if off = eoiOff then some .eoi
  else none

/-- The register at `(bank, off)`; no other offset in either window is mapped (R46). -/
def regAt (p : Params) : Bank → Nat → Option Reg
  | .dist, off => distReg p off
  | .cpu, off => cpuReg off

/-- Whether the access type of a register admits a direction (R46, R47): ACK is read-only and EOI write-only. -/
def Reg.allows : Reg → Dir → Bool
  | .ack, .write => false
  | .eoi, .read => false
  | _, _ => true

/-- `Mapped(bank, off, dir)` (40_register_access.md R90). -/
def mapped (p : Params) (bank : Bank) (off : Nat) (dir : Dir) : Bool :=
  match regAt p bank off with
  | some r => r.allows dir
  | none => false

/-! ### Words, bits and bytes of the bank vectors (20_memory.md R48, R52) -/

/-- Word `j` of a family: bits `32j` to `32j + 31`. -/
def wordAt {n : Nat} (x : BitVec n) (j : Nat) : Word := x.extractLsb' (32 * j) 32

/-- The family with word `j` replaced. -/
def setWordAt {n : Nat} (x : BitVec n) (j : Nat) (v : Word) : BitVec n :=
  (x &&& ~~~((BitVec.allOnes 32).setWidth n <<< (32 * j))) ||| (v.setWidth n <<< (32 * j))

/-- `CFG[irq]`, the 2-bit trigger-configuration field (10_state.md R26). -/
def cfgField (b : Banks) (irq : IrqId) : BitVec 2 := b.cfg.extractLsb' (2 * irq.toNat) 2

/-- The trigger bit of `CFG[irq]`, bit 1 of the field: true for edge (R26). -/
def edgeBit (b : Banks) (irq : IrqId) : Bool := (cfgField b irq).getLsbD 1

/-- `TGT[irq]`, the CPU-target byte (R27). -/
def tgtByte (b : Banks) (irq : IrqId) : CpuMask := b.tgt.extractLsb' (8 * irq.toNat) 8

/-- `EN[irq]` (R23). -/
def enBit (b : Banks) (irq : IrqId) : Bool := b.en.getLsbD irq.toNat

/-- `PEND[irq]` (R24). -/
def pendBit (b : Banks) (irq : IrqId) : Bool := b.pend.getLsbD irq.toNat

/-- `GRP[irq]`: true for non-secure (R25). -/
def grpBit (b : Banks) (irq : IrqId) : Bool := b.grp.getLsbD irq.toNat

/-- The canonical form of the banks: the bits of interrupts that do not exist, which no mapped word holds (20_memory.md
R48), are 0. -/
def banksWf (p : Params) (b : Banks) : Bool :=
  b.en >>> p.nIrq == 0#1024 && b.pend >>> p.nIrq == 0#1024 && b.grp >>> p.nIrq == 0#1024
  && b.cfg >>> (2 * p.nIrq) == 0#2048 && b.tgt >>> (8 * p.nIrq) == 0#8192

/-! ### Access types under WI (10_state.md R31, 20_memory.md R47) -/

/-- A write to a plain read/write word. -/
def writeRw (old v wi : Word) : Word := (old &&& wi) ||| (v &&& ~~~wi)

/-- A write to a write-one-to-set word. -/
def writeW1s (old v wi : Word) : Word := old ||| (v &&& ~~~wi)

/-- A write to a write-one-to-clear word. -/
def writeW1c (old v wi : Word) : Word := old &&& ~~~(v &&& ~~~wi)

/-! ### Muxes and the fold (30_encoding.md R83, 41_mask_resolver.md R92, 46_set_type.md R113) -/

/-- `TrigMux(H)` (R83): the trigger bit set for edge and cleared for level. -/
def trigMux (kind : TrigKind) (irq : IrqId) (h : Word) : Word :=
  match kind with
  | .edge => h ||| oneHot (cb irq)
  | .level => h &&& ~~~(oneHot (cb irq))

/-- `SecMux(H)` (R83): the group bit set for non-secure and cleared for secure. -/
def secMux (sec : Security) (irq : IrqId) (h : Word) : Word :=
  match sec with
  | .nonSecure => h ||| bitMask irq
  | .secure => h &&& ~~~(bitMask irq)

/-- `LaneMux(H)` (R83): the byte lane of `irq` replaced by the mask. -/
def laneMux (mask : CpuMask) (irq : IrqId) (h : Word) : Word :=
  (h &&& ~~~(0xFF#32 <<< sh irq)) ||| (mask.setWidth 32 <<< sh irq)

/-- CTRL with bit 3, the bypass/FIQ selector, cleared (44_enable_disable.md R105 (a)). -/
def ctrlMux (h : Word) : Word := h &&& ~~~(oneHot 3)

/-- `Fold(w)` (41_mask_resolver.md R92): upper half into lower, then upper byte of the lower half into the lowest. -/
def fold (w : Word) : CpuMask :=
  let t1 := w ||| (w >>> 16)
  let t2 := t1 ||| (t1 >>> 8)
  t2.extractLsb' 0 8

/-- `TypeKind(arg)` (46_set_type.md R113): rising and falling are edge, high and low are level, no other code has a kind. -/
def typeKind (arg : BitVec 4) : Option TrigKind :=
  if arg = 1#4 then some .edge
  else if arg = 2#4 then some .edge
  else if arg = 4#4 then some .level
  else if arg = 8#4 then some .level
  else none

/-- The interrupt ID in a word of the ACK or EOI register: bits 9:0 (10_state.md R29, R34). -/
def idOf (v : Word) : IrqId := v.extractLsb' 0 10

/-- `DEFAULT_MASK`: CPU 0 only (00_scope.md R7). -/
def defaultMask : CpuMask := 0x01#8

/-- `PROBE_WORDS` (00_scope.md R7). -/
def probeWords : Nat := 8

end Sys2Proof.Machine
end

