-- ==== Sys2Proof/Machine/Flags.lean ====
section
/-! DEFINITION. The flags and codes of the block (10_state.md R16, R20, R21, 60_exceptions.md R117) and the validation
checks of DECODE (30_encoding.md R79). -/

namespace Sys2Proof.Machine

/-- The 2-bit code of an FSM state (10_state.md R16). -/
def Fsm.code : Fsm → BitVec 2
  | .idle => 0#2
  | .decode => 1#2
  | .xfer => 2#2
  | .resp => 3#2

/-- The 3-bit code of a status, `rsp_status[2:0]` (60_exceptions.md R117). -/
def Status.code : Status → BitVec 3
  | .ok => 0#3
  | .outOfRange => 1#3
  | .unsupportedTriggerType => 2#3
  | .illegalCommand => 3#3
  | .maskUnresolved => 4#3

/-- `cmd_ready`, derived: the FSM is in IDLE (10_state.md R21, 30_encoding.md R66). -/
def cmdReady (s : State) : Bool := s.block.fsm == .idle

/-- The output `diag_mask_default`, driven by `MASK_DEFAULTED` (10_state.md R20). -/
def diagMaskDefault (s : State) : Bool := s.block.maskDefaulted

/-- The response data of RESOLVE_MASK from the registers: `MASK_CACHE` in bits 7:0, `MASK_DEFAULTED` in bit 8
(41_mask_resolver.md R95). -/
def maskResponse (b : Block) : Word := (BitVec.ofBool b.maskDefaulted ++ b.maskCache).setWidth 32

/-- R74(e): a register access must name a register mapped in its direction (40_register_access.md R90). DEDUCED
(assumption log 13): checked here and not in `decode`, because it depends on the parameters. -/
def checkMapped (p : Params) (bank : Bank) (off : BitVec 12) (dir : Dir) : Option Status :=
  if mapped p bank off.toNat dir then none else some .illegalCommand

/-- R79: `irq >= N_IRQ` is `OutOfRange`. -/
def checkRange (p : Params) (irq : IrqId) : Option Status :=
  if irqExists p irq then none else some .outOfRange

/-- R79: a type code without a kind is `UnsupportedTriggerType`. -/
def checkType (arg : BitVec 4) : Option Status :=
  match typeKind arg with
  | some _ => none
  | none => some .unsupportedTriggerType

/-- R79: ENABLE while `MASK_VALID = 0` is `MaskUnresolved`. -/
def checkMask (b : Block) : Option Status :=
  if b.maskValid then none else some .maskUnresolved

/-- The first failing check of a list in order (60_exceptions.md R120). -/
def firstFailing (checks : List (Option Status)) : Option Status := checks.findSome? id

end Sys2Proof.Machine
end

