-- ==== Sys2Proof/Machine/Ops.lean ====
section
/-! DEFINITION. The shared operations: register access, transactions, the end of a command and the release of its
response (the block's only form of exception and return), reset, the environment, and the sequencing of a command. -/

namespace Sys2Proof.Machine

/-! ### Register access (20_memory.md R46, R47, R50, R51) -/

/-- The word a read of a register returns as the banks stand: set and clear registers both return the state bits (R50),
ACK the environment's draw (R51). EOI is write-only: none. -/
def State.peek (s : State) : Reg → Option Word
  | .group j => some (wordAt s.banks.grp j)
  | .enableSet j => some (wordAt s.banks.en j)
  | .enableClear j => some (wordAt s.banks.en j)
  | .pendingSet j => some (wordAt s.banks.pend j)
  | .pendingClear j => some (wordAt s.banks.pend j)
  | .target j => some (wordAt s.banks.tgt j)
  | .config j => some (wordAt s.banks.cfg j)
  | .ctrl => some s.banks.cpuCtrl
  | .ack => some s.ports.pins.ackData
  | .eoi => none

/-- The banks after a write of `v` to a register under the write-ignore mask `wi` (R47, 10_state.md R31). EOI holds
nothing, so `wi` has no bit to keep there (DEDUCED, assumption log 19); ACK is read-only: none. -/
def Banks.poke (b : Banks) (r : Reg) (v wi : Word) : Option Banks :=
  match r with
  | .group j => some { b with grp := setWordAt b.grp j (writeRw (wordAt b.grp j) v wi) }
  | .enableSet j => some { b with en := setWordAt b.en j (writeW1s (wordAt b.en j) v wi) }
  | .enableClear j => some { b with en := setWordAt b.en j (writeW1c (wordAt b.en j) v wi) }
  | .pendingSet j => some { b with pend := setWordAt b.pend j (writeW1s (wordAt b.pend j) v wi) }
  | .pendingClear j => some { b with pend := setWordAt b.pend j (writeW1c (wordAt b.pend j) v wi) }
  | .target j => some { b with tgt := setWordAt b.tgt j (writeRw (wordAt b.tgt j) v wi) }
  | .config j => some { b with cfg := setWordAt b.cfg j (writeRw (wordAt b.cfg j) v wi) }
  | .ctrl => some { b with cpuCtrl := writeRw b.cpuCtrl v wi }
  | .ack => none
  | .eoi => some b

/-- An acknowledge read that returned `v`: its ID is outstanding if the interrupt exists (10_state.md R34). -/
def Ghost.claim (g : Ghost) (p : Params) (v : Word) : Ghost :=
  if irqExists p (idOf v) then { g with outstanding := g.outstanding ++ [idOf v] } else g

/-- A completion write of `v`: it completes the most recent outstanding ID, or breaks the ordering contract
(10_state.md R34, R35). -/
def Ghost.endService (g : Ghost) (v : Word) : Ghost :=
  if g.outstanding.getLast? = some (idOf v) then { g with outstanding := g.outstanding.dropLast }
  else { g with hazardFault := true }

/-- The ghost effect of reading a register: only ACK has one (R51). -/
def Ghost.afterRead (g : Ghost) (p : Params) (r : Reg) (v : Word) : Ghost :=
  if r = .ack then g.claim p v else g

/-- The ghost effect of writing a register: only EOI has one (R51). -/
def Ghost.afterWrite (g : Ghost) (r : Reg) (v : Word) : Ghost :=
  if r = .eoi then g.endService v else g

/-- One more entry at the end of the trace (R33). -/
def Ghost.record (g : Ghost) (e : TraceEntry) : Ghost := { g with trace := g.trace ++ [e] }

/-! ### Transactions (20_memory.md R55, R58) -/

/-- A transaction: a read of a word or a write of a word at a bank's offset (R58). -/
inductive Txn where
  | read (bank : Bank) (off : Nat)
  | write (bank : Bank) (off : Nat) (value : Word)
  deriving DecidableEq, Repr

/-- The bank of a transaction. -/
def Txn.bank : Txn → Bank
  | .read bank _ => bank
  | .write bank _ _ => bank

/-- The byte offset of a transaction. -/
def Txn.off : Txn → Nat
  | .read _ off => off
  | .write _ off _ => off

/-- The direction of a transaction. -/
def Txn.dir : Txn → Dir
  | .read _ _ => .read
  | .write _ _ _ => .write

/-- A read transaction: `HOLD` takes the word (30_encoding.md R84), the trace an entry (10_state.md R33). None where no
readable register stands: such an address is never acknowledged (20_memory.md R59). -/
def State.busRead (s : State) (bank : Bank) (off : Nat) : Option State :=
  (regAt s.params bank off).bind fun r =>
  (s.peek r).map fun v =>
    { s with block := { s.block with hold := v }
             ghost := (s.ghost.record ⟨.read, bank, off, v⟩).afterRead s.params r v }

/-- A write transaction: the banks change under the register's access type, `HOLD` stays (R84), the trace takes an entry.
None where no writable register stands. -/
def State.busWrite (s : State) (bank : Bank) (off : Nat) (v : Word) : Option State :=
  (regAt s.params bank off).bind fun r =>
  (s.banks.poke r v (writeIgnoreAt s.params bank off)).map fun b =>
    { s with banks := b
             ghost := (s.ghost.record ⟨.write, bank, off, v⟩).afterWrite r v }

/-- One whole transaction. -/
def State.perform (s : State) : Txn → Option State
  | .read bank off => s.busRead bank off
  | .write bank off v => s.busWrite bank off v

/-! ### The end of a command and the release of its response (10_state.md R15, 60_exceptions.md R116) -/

/-- A command ends with `(S, d)` (10_state.md R15). -/
def State.endCommand (s : State) (st : Status) (d : Word) : State :=
  { s with block := { s.block with rspStatus := st, rspData := d, rspValid := true, fsm := .resp } }

/-- `raise S()`: the command ends with status `S` and response data 0 (00_scope.md R10). -/
def State.raise (s : State) (st : Status) : State := s.endCommand st 0#32

/-- RESP: the response waits for `rsp_ready`; then the block returns to IDLE (10_state.md R15). -/
def State.release (s : State) : State :=
  if s.ports.pins.rspReady then { s with block := { s.block with rspValid := false, fsm := .idle } } else s

/-- IDLE: a command is accepted with `cmd_valid` (10_state.md R14); otherwise the block waits. -/
def State.accept (s : State) : State :=
  if s.ports.pins.cmdValid then
    { s with block := { s.block with cmd := s.ports.pins.cmdWord, data := s.ports.pins.cmdData, fsm := .decode } }
  else s

/-- The decoded command the block holds in `CMD` and `DATA` (30_encoding.md R71). -/
def State.fetch (s : State) : Except DecodeError Instr := decode s.block.cmd s.block.data

/-! ### The sequencing of a command (30_encoding.md R80, R85) -/

/-- End of DECODE with transactions to do: `step <- 0; fsm <- XFER` (R80). -/
def State.enterXfer (s : State) : State := { s with block := { s.block with step := 0#3, fsm := .xfer } }

/-- After a transaction that is not the last: `step <- step + 1` (10_state.md R17). -/
def State.advance (s : State) : State := { s with block := { s.block with step := s.block.step + 1#3 } }

/-- DECODE: the first failing check ends the command with no transaction; an empty sequence ends it with its result;
otherwise the block enters XFER (R80). -/
def State.runDecode (s : State) (fail : Option Status) (txns : List Txn) (finish : State → State) : State :=
  match fail with
  | some st => s.raise st
  | none => if txns.isEmpty then finish s else s.enterXfer

/-- XFER: the transaction with the number `step` is presented until `bus_ack` (R85, 20_memory.md R58); when it has
completed, the command ends if it was the last or `stop` holds, and `step` advances otherwise. Without an acknowledge,
or with no such transaction, the state is held (20_memory.md R59; DEDUCED, assumption log 8). -/
def State.runXfer (s : State) (txns : List Txn) (stop : State → Bool) (finish : State → State) : State :=
  match s.ports.pins.busAck, (txns[s.block.step.toNat]?).bind s.perform with
  | true, some t =>
    if stop t || t.block.step.toNat + 1 == txns.length then finish t else t.advance
  | _, _ => s

/-- One transition of the routing FSM while it runs a command (R85): `fail` is the result of the command's checks,
`txns` its sequence (R81). In IDLE and RESP no command runs and the state is held. -/
def State.runCommand (s : State) (fail : Option Status) (txns : List Txn) (stop : State → Bool)
    (finish : State → State) : Host.Outcome State Fault Refusal :=
  match s.block.fsm with
  | .decode => .next (s.runDecode fail txns finish)
  | .xfer => .next (s.runXfer txns stop finish)
  | .idle => .next s
  | .resp => .next s

/-- A command whose sequence depends on its opcode alone (R87): it ends with `OK` and the data `result` computes from
`HOLD` after its last transaction. -/
def State.runFixed (s : State) (fail : Option Status) (txns : List Txn) (result : Word → Word) :
    Host.Outcome State Fault Refusal :=
  s.runCommand fail txns (fun _ => false) fun t => t.endCommand .ok (result t.block.hold)

/-! ### The environment and the inputs (10_state.md R36) -/

/-- The environment sets or clears one pending bit of an interrupt that exists (R36). -/
def Banks.setPend (b : Banks) (p : Params) (change : IrqId × Bool) : Banks :=
  if irqExists p change.1 then
    { b with pend :=
        if change.2 then b.pend ||| (1#1024 <<< change.1.toNat) else b.pend &&& ~~~(1#1024 <<< change.1.toNat) }
  else b

/-- The environment's changes before a step, in order (R36). DEDUCED (assumption log 9): they come before the transition,
and write-ignore masks do not hold them off. -/
def Banks.environment (b : Banks) (p : Params) (changes : List (IrqId × Bool)) : Banks :=
  changes.foldl (fun b c => b.setPend p c) b

/-- The input levels of the next step: the script's, or free past its end. -/
def Ports.nextPins (q : Ports) : Pins :=
  match q.script with
  | p :: _ => p
  | [] => Config.freePins q.cycle

/-- A step begins: the input levels are sampled and the environment has made its changes. -/
def State.sample (s : State) : State :=
  { s with ports := ⟨s.ports.nextPins, s.ports.script.tail, s.ports.cycle + 1⟩
           banks := s.banks.environment s.params s.ports.nextPins.pendChanges }

/-! ### Reset (70_reset_and_hazards.md R134 to R136) -/

/-- Whether this clock edge is in reset: `rst_n = 0`, or the first edge after it rises (R134). -/
def State.inReset (s : State) : Bool := !s.ports.pins.rstN || s.block.rstHeld

/-- The block's own registers take their reset values; the banks, the ghost state and the parameters stay (R134, R135).
DEDUCED (assumption log 10): the trace and the outstanding list stay as `hazard_fault` does. -/
def State.resetBlock (s : State) : State :=
  { s with block := { Block.reset with rstHeld := !s.ports.pins.rstN } }

/-- A transaction presented when reset asserts: performed if the target did so (R136). DESIGN CHOICE
(assumption log 6): a performed one has its whole effect, the trace entry included. -/
def State.settleInflight (s : State) (presented : Option Txn) : State :=
  match s.ports.pins.inflightDone, presented.bind s.perform with
  | true, some t => t
  | _, _ => s

/-! ### The banks by bytes (20_memory.md R53) -/

/-- The byte another agent finds at a physical address: lane `k` of the word at address `a` stands at `a + k`. None
outside the two windows, where no register is mapped, and for ACK and EOI, which store nothing. -/
def State.byteAt (s : State) (a : Word) : Option (BitVec 8) :=
  let off (bank : Bank) : Nat := (a - bankBase s.params bank).toNat
  let lane (bank : Bank) : Option (BitVec 8) :=
    ((regAt s.params bank (off bank - off bank % 4)).bind fun r => if r = .ack then none else s.peek r).map
      fun w => w.extractLsb' (8 * (off bank % 4)) 8
  if off .dist < 0x1000 then lane .dist else if off .cpu < 0x1000 then lane .cpu else none

end Sys2Proof.Machine
end

