-- ==== Sys2Proof/Machine/AckComplete.lean ====
section
/-! DEFINITION. ACK and COMPLETE (45_ack_complete.md R109 to R112). -/

namespace Sys2Proof.Machine

/-- ACK has no operand and no failing check (R109). -/
def checkAck (_ : State) : Option Status := none

/-- ACK's single read of the acknowledge register (R109). -/
def seqAck : List Txn := [.read .cpu ackOff]

/-- ACK answers the low 10 bits of the word read, whether or not the interrupt exists (R109, R112). -/
def execAck (s : State) : Host.Outcome State Fault Refusal :=
  s.runFixed (checkAck s) seqAck fun h => (idOf h).setWidth 32

/-- COMPLETE fails out of range (R110). -/
def checkComplete (irq : IrqId) (s : State) : Option Status := checkRange s.params irq

/-- COMPLETE's single write of the zero-extended ID to EOI (R110). -/
def seqComplete (irq : IrqId) : List Txn := [.write .cpu eoiOff (irq.setWidth 32)]

/-- COMPLETE: the write is performed whatever the ordering; the ghost state marks a mismatch (R110, R111). -/
def execComplete (irq : IrqId) (s : State) : Host.Outcome State Fault Refusal :=
  s.runFixed (checkComplete irq s) (seqComplete irq) fun _ => 0#32

end Sys2Proof.Machine
end

