-- ==== Sys2Proof/Machine/EnableDisable.lean ====
section
/-! DEFINITION. ENABLE and DISABLE (44_enable_disable.md R105 to R108). -/

namespace Sys2Proof.Machine

/-- ENABLE fails out of range, then while the mask is unresolved (R105, 30_encoding.md R79). -/
def checkEnable (irq : IrqId) (s : State) : Option Status :=
  firstFailing [checkRange s.params irq, checkMask s.block]

/-- ENABLE's five transactions in the source's order: CTRL bit 3, the enable bit, the target byte (R105). -/
def seqEnable (irq : IrqId) (s : State) : List Txn :=
  [.read .cpu ctrlOff,
   .write .cpu ctrlOff (ctrlMux s.block.hold),
   .write .dist (enSetOff irq) (bitMask irq),
   .read .dist (tgtOff irq),
   .write .dist (tgtOff irq) (laneMux s.block.maskCache irq s.block.hold)]

/-- ENABLE (R105). -/
def execEnable (irq : IrqId) (s : State) : Host.Outcome State Fault Refusal :=
  s.runFixed (checkEnable irq s) (seqEnable irq s) fun _ => 0#32

/-- DISABLE fails out of range; it does not need the mask (R106). -/
def checkDisable (irq : IrqId) (s : State) : Option Status := checkRange s.params irq

/-- DISABLE's single write to ENABLE_CLEAR (R106). -/
def seqDisable (irq : IrqId) : List Txn := [.write .dist (enClrOff irq) (bitMask irq)]

/-- DISABLE (R106). -/
def execDisable (irq : IrqId) (s : State) : Host.Outcome State Fault Refusal :=
  s.runFixed (checkDisable irq s) (seqDisable irq) fun _ => 0#32

end Sys2Proof.Machine
end

