-- ==== Sys2Proof/Machine/MaskResolver.lean ====
section
/-! DEFINITION. The CPU target mask resolver, RESOLVE_MASK (41_mask_resolver.md R92 to R96). -/

namespace Sys2Proof.Machine

/-- RESOLVE_MASK has no failing check: resolution failure is not an error (R93). -/
def checkResolveMask (_ : State) : Option Status := none

/-- The probe reads of TARGET words 0 to 7, none once the mask is resolved (R93). -/
def seqResolveMask (s : State) : List Txn :=
  if s.block.maskValid then [] else (List.range probeWords).map fun i => .read .dist (probeOff i)

/-- The scan stops at the first word that folds to a nonzero value (R93). -/
def stopResolveMask (s : State) : Bool := fold s.block.hold != 0#8

/-- The mask registers take a mask and whether it is the default (R93). -/
def State.adoptMask (s : State) (mask : CpuMask) (defaulted : Bool) : State :=
  { s with block := { s.block with maskCache := mask, maskValid := true, maskDefaulted := defaulted } }

/-- The end of RESOLVE_MASK: the cached result, the folded byte of the last word read, or the default mask (R93).
The response is `MASK_CACHE` and `MASK_DEFAULTED` after the command (R95). -/
def finishResolveMask (s : State) : State :=
  let t :=
    if s.block.maskValid then s
    else if stopResolveMask s then s.adoptMask (fold s.block.hold) false
    else s.adoptMask defaultMask true
  t.endCommand .ok (maskResponse t.block)

/-- RESOLVE_MASK (R93). -/
def execResolveMask (s : State) : Host.Outcome State Fault Refusal :=
  s.runCommand (checkResolveMask s) (seqResolveMask s) stopResolveMask finishResolveMask

end Sys2Proof.Machine
end

