-- ==== Sys2Proof/Machine/PendingSecurity.lean ====
section
/-! DEFINITION. SET_PENDING, CLEAR_PENDING and SET_SECURITY (43_pending_security.md R100 to R104). -/

namespace Sys2Proof.Machine

/-- SET_PENDING fails out of range (R100). -/
def checkSetPending (irq : IrqId) (s : State) : Option Status := checkRange s.params irq

/-- SET_PENDING's single write to the write-one-to-set register (R100). -/
def seqSetPending (irq : IrqId) : List Txn := [.write .dist (pendSetOff irq) (bitMask irq)]

/-- SET_PENDING (R100). -/
def execSetPending (irq : IrqId) (s : State) : Host.Outcome State Fault Refusal :=
  s.runFixed (checkSetPending irq s) (seqSetPending irq) fun _ => 0#32

/-- CLEAR_PENDING fails out of range (R101). -/
def checkClearPending (irq : IrqId) (s : State) : Option Status := checkRange s.params irq

/-- CLEAR_PENDING's single write to the write-one-to-clear register (R101). -/
def seqClearPending (irq : IrqId) : List Txn := [.write .dist (pendClrOff irq) (bitMask irq)]

/-- CLEAR_PENDING (R101). -/
def execClearPending (irq : IrqId) (s : State) : Host.Outcome State Fault Refusal :=
  s.runFixed (checkClearPending irq s) (seqClearPending irq) fun _ => 0#32

/-- SET_SECURITY fails out of range (R102). -/
def checkSetSecurity (irq : IrqId) (s : State) : Option Status := checkRange s.params irq

/-- SET_SECURITY's read-modify-write at `GrpOff` (R102). With the aliased `GROUP_BASE` that word is ENABLE_SET, whose
access type gives the effect of R103. -/
def seqSetSecurity (sec : Security) (irq : IrqId) (s : State) : List Txn :=
  [.read .dist (grpOff s.params.groupBase irq),
   .write .dist (grpOff s.params.groupBase irq) (secMux sec irq s.block.hold)]

/-- SET_SECURITY (R102, R103). -/
def execSetSecurity (sec : Security) (irq : IrqId) (s : State) : Host.Outcome State Fault Refusal :=
  s.runFixed (checkSetSecurity irq s) (seqSetSecurity sec irq s) fun _ => 0#32

end Sys2Proof.Machine
end

