-- ==== Sys2Proof/Machine/RegisterAccess.lean ====
section
/-! DEFINITION. REG_READ and REG_WRITE (40_register_access.md R88 to R91). -/

namespace Sys2Proof.Machine

/-- REG_READ fails on an offset that is not readable (R90). -/
def checkRegRead (bank : Bank) (off : BitVec 12) (s : State) : Option Status := checkMapped s.params bank off .read

/-- REG_READ reads one word (R88). -/
def seqRegRead (bank : Bank) (off : BitVec 12) : List Txn := [.read bank off.toNat]

/-- REG_READ answers the whole word, with no masking (R88, R91). -/
def execRegRead (bank : Bank) (off : BitVec 12) (s : State) : Host.Outcome State Fault Refusal :=
  s.runFixed (checkRegRead bank off s) (seqRegRead bank off) fun h => h

/-- REG_WRITE fails on an offset that is not writable (R90). -/
def checkRegWrite (bank : Bank) (off : BitVec 12) (s : State) : Option Status := checkMapped s.params bank off .write

/-- REG_WRITE writes one word (R89). -/
def seqRegWrite (bank : Bank) (off : BitVec 12) (data : Word) : List Txn := [.write bank off.toNat data]

/-- REG_WRITE (R89). -/
def execRegWrite (bank : Bank) (off : BitVec 12) (data : Word) (s : State) : Host.Outcome State Fault Refusal :=
  s.runFixed (checkRegWrite bank off s) (seqRegWrite bank off data) fun _ => 0#32

end Sys2Proof.Machine
end

