-- ==== Sys2Proof/Machine/Trigger.lean ====
section
/-! DEFINITION. SET_TRIGGER (42_trigger.md R97 to R99). -/

namespace Sys2Proof.Machine

/-- The read-modify-write of the Trigger Configuration Engine (R97). -/
def triggerSequence (kind : TrigKind) (irq : IrqId) (h : Word) : List Txn :=
  [.read .dist (cfgOff irq), .write .dist (cfgOff irq) (trigMux kind irq h)]

/-- SET_TRIGGER fails out of range (R97). -/
def checkSetTrigger (irq : IrqId) (s : State) : Option Status := checkRange s.params irq

/-- SET_TRIGGER's transactions (R97). -/
def seqSetTrigger (kind : TrigKind) (irq : IrqId) (s : State) : List Txn := triggerSequence kind irq s.block.hold

/-- SET_TRIGGER (R97). -/
def execSetTrigger (kind : TrigKind) (irq : IrqId) (s : State) : Host.Outcome State Fault Refusal :=
  s.runFixed (checkSetTrigger irq s) (seqSetTrigger kind irq s) fun _ => 0#32

end Sys2Proof.Machine
end

