-- ==== Sys2Proof/Machine/SetType.lean ====
section
/-! DEFINITION. SET_TYPE (46_set_type.md R113 to R115). -/

namespace Sys2Proof.Machine

/-- SET_TYPE fails on an unsupported type first, then out of range (R114). -/
def checkSetType (arg : BitVec 4) (irq : IrqId) (s : State) : Option Status :=
  firstFailing [checkType arg, checkRange s.params irq]

/-- SET_TYPE's transactions are the trigger engine's with the translated kind; an unsupported type has none (R114, R115). -/
def seqSetType (arg : BitVec 4) (irq : IrqId) (s : State) : List Txn :=
  match typeKind arg with
  | some kind => triggerSequence kind irq s.block.hold
  | none => []

/-- SET_TYPE (R114). -/
def execSetType (arg : BitVec 4) (irq : IrqId) (s : State) : Host.Outcome State Fault Refusal :=
  s.runFixed (checkSetType arg irq s) (seqSetType arg irq s) fun _ => 0#32

end Sys2Proof.Machine
end

