-- ==== Sys2Proof/Machine/Dispatch.lean ====
section
/-! DEFINITION. One arm per command: its transition of the routing FSM (30_encoding.md R85). -/

namespace Sys2Proof.Machine

def exec (i : Instr) (s : State) : Host.Outcome State Fault Refusal :=
  match i with
  | .regRead bank off => Sys2Proof.Machine.execRegRead bank off s
  | .regWrite bank off data => Sys2Proof.Machine.execRegWrite bank off data s
  | .resolveMask => Sys2Proof.Machine.execResolveMask s
  | .setTrigger kind irq => Sys2Proof.Machine.execSetTrigger kind irq s
  | .setPending irq => Sys2Proof.Machine.execSetPending irq s
  | .clearPending irq => Sys2Proof.Machine.execClearPending irq s
  | .setSecurity sec irq => Sys2Proof.Machine.execSetSecurity sec irq s
  | .enable irq => Sys2Proof.Machine.execEnable irq s
  | .disable irq => Sys2Proof.Machine.execDisable irq s
  | .ack => Sys2Proof.Machine.execAck s
  | .complete irq => Sys2Proof.Machine.execComplete irq s
  | .setType arg irq => Sys2Proof.Machine.execSetType arg irq s

end Sys2Proof.Machine
end

