-- ==== Sys2Proof/Machine/Fsm.lean ====
section
/-! DEFINITION. The routing FSM around the commands: the validation and sequence tables (30_encoding.md R79, R81), the
bus master port (20_memory.md R57), and the transition of each FSM state (R85). -/

namespace Sys2Proof.Machine

/-- The status a decoded command fails with, if any: the checks of R79 in their order. -/
def validate : Instr → State → Option Status
  | .regRead bank off, s => checkRegRead bank off s
  | .regWrite bank off _, s => checkRegWrite bank off s
  | .resolveMask, s => checkResolveMask s
  | .setTrigger _ irq, s => checkSetTrigger irq s
  | .setPending irq, s => checkSetPending irq s
  | .clearPending irq, s => checkClearPending irq s
  | .setSecurity _ irq, s => checkSetSecurity irq s
  | .enable irq, s => checkEnable irq s
  | .disable irq, s => checkDisable irq s
  | .ack, s => checkAck s
  | .complete irq, s => checkComplete irq s
  | .setType arg irq, s => checkSetType arg irq s

/-- The transactions of a command (R81); the word a write takes from `HOLD` is right at that write's own step. -/
def transactions : Instr → State → List Txn
  | .regRead bank off, _ => seqRegRead bank off
  | .regWrite bank off data, _ => seqRegWrite bank off data
  | .resolveMask, s => seqResolveMask s
  | .setTrigger kind irq, s => seqSetTrigger kind irq s
  | .setPending irq, _ => seqSetPending irq
  | .clearPending irq, _ => seqClearPending irq
  | .setSecurity sec irq, s => seqSetSecurity sec irq s
  | .enable irq, s => seqEnable irq s
  | .disable irq, _ => seqDisable irq
  | .ack, _ => seqAck
  | .complete irq, _ => seqComplete irq
  | .setType arg irq, s => seqSetType arg irq s

/-! ### The bus master port (20_memory.md R57, R58) -/

/-- The transaction the block presents on the bus: the one numbered `step` of the command in XFER (R58, R82, R83). -/
def State.presented (s : State) : Option Txn :=
  match s.block.fsm, s.fetch with
  | .xfer, .ok i => (transactions i s)[s.block.step.toNat]?
  | _, _ => none

/-- `bus_req` (R57). -/
def State.busReq (s : State) : Bool := s.presented.isSome

/-- `bus_we` while a transaction is presented: 1 for a write, 0 for a read (R57). DESIGN CHOICE (assumption log 18): no
level otherwise, which the spec leaves open. -/
def State.busWe (s : State) : Option Bool := s.presented.map fun t => t.dir == .write

/-- `bus_addr[31:0]` while a transaction is presented (R57, R82). DESIGN CHOICE (assumption log 18): no value otherwise. -/
def State.busAddr (s : State) : Option Word := s.presented.map fun t => busAddress s.params t.bank t.off

/-- `bus_wdata[31:0]` while a write is presented (R57, R83). DESIGN CHOICE (assumption log 18): no value otherwise. -/
def State.busWdata (s : State) : Option Word :=
  match s.presented with
  | some (.write _ _ v) => some v
  | _ => none

/-! ### The transitions (30_encoding.md R85) -/

/-- A clock edge in reset: the transaction in flight settles, then the block's registers are reset (R134 to R136). -/
def State.takeReset (s : State) : State := (s.settleInflight s.presented).resetBlock

/-- One transition of the FSM on the sampled inputs (R85). An illegal word ends in DECODE with `IllegalCommand` (R74);
in XFER it has no sequence and the state is held. -/
def transition (s : State) : Host.Outcome State Fault Refusal :=
  match s.block.fsm with
  | .idle => .next s.accept
  | .decode =>
    match s.fetch with
    | .ok i => exec i s
    | .error _ => .next (s.raise .illegalCommand)
  | .xfer =>
    match s.fetch with
    | .ok i => exec i s
    | .error _ => .next s
  | .resp => .next s.release

/-- One step of the machine: the inputs are sampled and the environment acts, then the block is reset or makes one
transition, with at most one transaction (10_state.md R37). -/
def State.cycle (s : State) : Host.Outcome State Fault Refusal :=
  if s.sample.inReset then .next s.sample.takeReset else transition s.sample

/-- Where a command stands when it is about to run: latched in `CMD` and `DATA`, the FSM in DECODE, and a next step with
no reset and a bus that acknowledges (assumption log 5). -/
def State.withCommand (s : State) (cmd data : Word) : State :=
  { s with block := { s.block with cmd := cmd, data := data, fsm := .decode, rspValid := false, rstHeld := false }
           ports := { s.ports with script := { Pins.quiet with busAck := true } :: s.ports.script } }

end Sys2Proof.Machine
end

