-- ==== Sys2Proof/Machine/Step.lean ====
section
/-! DEFINITION. One step of the machine, and a state whose next step runs a given instruction. -/

namespace Sys2Proof.Machine

/-- One step. A configuration outside the constraints of 00_scope.md R8 is refused. -/
def step (s : State) : Host.Outcome State Fault Refusal :=
  if paramsOk s.params then s.cycle else .refused .badConfiguration

/-- The state with the instruction whose bits are `w` latched in `CMD` and `DATA`, so that the next step runs it. -/
def State.withFetchWord (s : State) (nbits w : Nat) : State :=
  s.withCommand (tableCmd nbits w) (tableData nbits w)

end Sys2Proof.Machine
end

