-- ==== Sys2Proof/Safety.lean ====
section
/-! DEFINITION. The terms the claims use: what a good state is, the runs of one command, and the spec's own
formulations that claims compare the machine with. -/

namespace Sys2Proof.Machine

/-- The host has kept the acknowledge and completion order so far (10_state.md R35). -/
def hazardFree (s : State) : Prop := s.ghost.hazardFault = false

/-- A final state: the block waits in IDLE with no response pending, and is not faulted (10_state.md R35). -/
def final (s : State) : Prop := s.block.fsm = .idle ∧ s.block.rspValid = false ∧ hazardFree s

/-- The block is in XFER at transaction `n` and the bus acknowledges it in this step (30_encoding.md R85). -/
def ackedAt (s : State) (n : BitVec 3) : Prop :=
  s.block.fsm = .xfer ∧ s.block.step = n ∧ s.ports.pins.busAck = true

/-- `k` transitions of one command on the levels the state holds. -/
def runExec (i : Instr) : Nat → State → Host.Outcome State Fault Refusal
  | 0, s => .next s
  | k + 1, s =>
    match exec i s with
    | .next t => runExec i k t
    | .fault r => .fault r
    | .refused r => .refused r

/-- The state with the response `(st, d)` presented (10_state.md R15). -/
def answered (s : State) (st : Status) (d : Word) : State :=
  { s with block := { s.block with fsm := .resp, rspValid := true, rspStatus := st, rspData := d } }

/-- The state with one more trace entry (10_state.md R33). -/
def traced (s : State) (dir : Dir) (bank : Bank) (off : Nat) (v : Word) : State :=
  { s with ghost := { s.ghost with trace := s.ghost.trace ++ [⟨dir, bank, off, v⟩] } }

/-- 30_encoding.md R74 clause by clause: OP; the reserved fields of each format; ARG; OFF. -/
def illegalEncoding (p : Params) (cmd : Word) : Prop :=
  let op := cmd.toNat / 2 ^ 28
  let formatN := op = 0x3 ∨ op = 0xA
  let formatR := op = 0x1 ∨ op = 0x2
  let formatI := 4 ≤ op ∧ op ≤ 0xC ∧ op ≠ 0xA
  let arg := cmd.toNat / 2 ^ 12 % 2 ^ 4
  let off := cmd.toNat % 2 ^ 12
  let bank : Bank := if cmd.toNat / 2 ^ 27 % 2 = 0 then .dist else .cpu
  (op = 0x0 ∨ op = 0xD ∨ op = 0xE ∨ op = 0xF)
  ∨ (formatN ∧ cmd.toNat % 2 ^ 28 ≠ 0)
  ∨ (formatI ∧ (cmd.toNat / 2 ^ 16 % 2 ^ 12 ≠ 0 ∨ cmd.toNat / 2 ^ 10 % 2 ^ 2 ≠ 0))
  ∨ (formatR ∧ cmd.toNat / 2 ^ 12 % 2 ^ 15 ≠ 0)
  ∨ ((op = 0x5 ∨ op = 0x6 ∨ op = 0x8 ∨ op = 0x9 ∨ op = 0xB) ∧ arg ≠ 0)
  ∨ ((op = 0x4 ∨ op = 0x7) ∧ 1 < arg)
  ∨ (formatR ∧ off % 4 ≠ 0)
  ∨ (op = 0x1 ∧ mapped p bank off .read = false)
  ∨ (op = 0x2 ∧ mapped p bank off .write = false)

/-- The bank and the offset of a register, the table of 20_memory.md R46 read by rows. -/
def regHome : Reg → Bank × Nat
  | .group j => (.dist, 0x080 + 4 * j)
  | .enableSet j => (.dist, 0x100 + 4 * j)
  | .enableClear j => (.dist, 0x180 + 4 * j)
  | .pendingSet j => (.dist, 0x200 + 4 * j)
  | .pendingClear j => (.dist, 0x280 + 4 * j)
  | .target j => (.dist, 0x800 + 4 * j)
  | .config j => (.dist, 0xC00 + 4 * j)
  | .ctrl => (.cpu, 0x000)
  | .ack => (.cpu, 0x00C)
  | .eoi => (.cpu, 0x010)

/-- Which registers exist: the j ranges of 20_memory.md R46. -/
def regExists (p : Params) : Reg → Prop
  | .group j => p.groupBase = .dedicated ∧ j < p.nIrq / 32
  | .enableSet j => j < p.nIrq / 32
  | .enableClear j => j < p.nIrq / 32
  | .pendingSet j => j < p.nIrq / 32
  | .pendingClear j => j < p.nIrq / 32
  | .target j => j < p.nIrq / 4
  | .config j => j < p.nIrq / 16
  | .ctrl => True
  | .ack => True
  | .eoi => True

/-- Two registers over one piece of state: a register and itself, and the set and clear registers of a pair (R50). -/
def sameState : Reg → Reg → Prop
  | .enableSet j, .enableClear k => j = k
  | .enableClear j, .enableSet k => j = k
  | .pendingSet j, .pendingClear k => j = k
  | .pendingClear j, .pendingSet k => j = k
  | r, r' => r = r'

/-- The next step is one of the FSM: the configuration is admitted and no reset is asserted or being released. -/
def runsNext (s : State) : Prop :=
  paramsOk s.params = true ∧ s.ports.nextPins.rstN = true ∧ s.block.rstHeld = false

/-- The same machine with a new command latched, where the host has taken the last response (10_state.md R14, R15). -/
def relatched (s : State) : State := { s with block := { s.block with fsm := .decode, rspValid := false } }

/-- What holds of the machine after every step: see each field. -/
structure MachineInv (s : State) : Prop where
  /-- The configuration meets the constraints of 00_scope.md R8. -/
  params_ok : paramsOk s.params = true
  /-- The banks hold nothing for interrupts that do not exist (20_memory.md R48). -/
  banks_wf : banksWf s.params s.banks = true
  /-- A response is presented exactly in RESP (10_state.md R15). -/
  rspValid_iff : s.block.rspValid = true ↔ s.block.fsm = .resp
  /-- Before resolution the mask registers hold their reset values (10_state.md R19, R20). -/
  unresolved : s.block.maskValid = false → s.block.maskCache = defaultMask ∧ s.block.maskDefaulted = false
  /-- The default was adopted only with the default mask (10_state.md R20). -/
  defaulted : s.block.maskDefaulted = true → s.block.maskCache = defaultMask
  /-- The cached mask names at least one CPU (41_mask_resolver.md R93). -/
  mask_ne_zero : s.block.maskCache ≠ 0#8
  /-- Only interrupts that exist are outstanding (10_state.md R34). -/
  outstanding_exist : ∀ id ∈ s.ghost.outstanding, irqExists s.params id = true
  /-- Only mapped registers were accessed, in their direction (20_memory.md R41). -/
  trace_mapped : ∀ e ∈ s.ghost.trace, mapped s.params e.bank e.off e.dir = true
  /-- In XFER a valid command runs, and `step` numbers one of its transactions (10_state.md R17). -/
  running : s.block.fsm = .xfer →
    ∃ i, s.fetch = .ok i ∧ validate i s = none ∧ s.block.step.toNat < (transactions i s).length
  /-- In reset the block is in IDLE (70_reset_and_hazards.md R134). -/
  reset_idle : s.block.rstHeld = true → s.block.fsm = .idle

end Sys2Proof.Machine
end

