-- ==== Sys2Proof/Certificates/Slice0/Obligations.lean ====
section
/-! DEFINITION. The statements about the model, each from the rules of spec/ its docstring names. -/

open Sys2Proof Sys2Proof.Machine

/-! ### Encoding (30_encoding.md) -/

/-- R68 to R73: decoding the words of a well-formed instruction gives it back, with every operand. -/
def Obligations.DecodeOfEncodeIsTheInstruction : Prop :=
  ∀ i : Instr, i.wf = true → decode (encode i).1 (encode i).2 = .ok i

/-- R68 to R73: a word that decodes is the encoding of what it decodes to, so no two words mean the same command;
the data word is read by REG_WRITE alone (R67). -/
def Obligations.EncodeOfDecodeIsTheWord : Prop :=
  ∀ (cmd data : Word) (i : Instr), decode cmd data = .ok i →
    i.wf = true ∧ encodeCmd i = cmd ∧ (∀ bank off d, i = .regWrite bank off d → d = data)

/-- R73: one word of every command, from the bit patterns and the examples of the family files. -/
def Obligations.WordsOfEveryCommandDecode : Prop :=
  decode 0x10000104#32 0#32 = .ok (.regRead .dist 0x104#12) ∧
  decode 0x28000010#32 0x422#32 = .ok (.regWrite .cpu 0x010#12 0x422#32) ∧
  decode 0x30000000#32 0#32 = .ok .resolveMask ∧
  decode 0x40001022#32 0#32 = .ok (.setTrigger .edge 34#10) ∧
  decode 0x50000028#32 0#32 = .ok (.setPending 40#10) ∧
  decode 0x60000028#32 0#32 = .ok (.clearPending 40#10) ∧
  decode 0x70001028#32 0#32 = .ok (.setSecurity .nonSecure 40#10) ∧
  decode 0x80000022#32 0#32 = .ok (.enable 34#10) ∧
  decode 0x90000022#32 0#32 = .ok (.disable 34#10) ∧
  decode 0xA0000000#32 0#32 = .ok .ack ∧
  decode 0xB0000022#32 0#32 = .ok (.complete 34#10) ∧
  decode 0xC0001022#32 0#32 = .ok (.setType 1#4 34#10)

/-- R67: the data word is REG_WRITE's alone: another one changes neither what any other command decodes to nor whether a
word is an illegal encoding, and in a REG_WRITE it is the word written. -/
def Obligations.OnlyRegWriteUsesTheDataWord : Prop :=
  ∀ cmd data data' : Word,
    (∀ i, decode cmd data = .ok i → (∀ bank off d, i ≠ .regWrite bank off d) → decode cmd data' = .ok i) ∧
    (∀ bank off d, decode cmd data = .ok (.regWrite bank off d) →
      d = data ∧ decode cmd data' = .ok (.regWrite bank off data')) ∧
    (∀ e, decode cmd data = .error e → decode cmd data' = .error e)

/-- 10_state.md R16, R21, R20, 60_exceptions.md R117: the codes of the FSM states and of the statuses, and the derived
outputs `cmd_ready` and `diag_mask_default`. -/
def Obligations.CodesAndDerivedOutputs : Prop :=
  (Fsm.idle.code = 0#2 ∧ Fsm.decode.code = 1#2 ∧ Fsm.xfer.code = 2#2 ∧ Fsm.resp.code = 3#2) ∧
  (Status.ok.code = 0#3 ∧ Status.outOfRange.code = 1#3 ∧ Status.unsupportedTriggerType.code = 2#3 ∧
    Status.illegalCommand.code = 3#3 ∧ Status.maskUnresolved.code = 4#3) ∧
  (∀ s : State, (cmdReady s = true ↔ s.block.fsm = .idle) ∧ diagMaskDefault s = s.block.maskDefaulted)

/-- R74: a command word with any of the conditions (a) to (e) ends in DECODE with `IllegalCommand`, and nothing but the
response changes: no transaction, no bank, no trace entry. -/
def Obligations.IllegalWordsEndWithIllegalCommand : Prop :=
  ∀ s : State, s.block.fsm = .decode → illegalEncoding s.params s.block.cmd →
    transition s = .next (answered s .illegalCommand 0#32)

/-- R75: a word with none of the conditions of R74 is one of the twelve commands, and does not end with
`IllegalCommand`. -/
def Obligations.EveryOtherWordIsACommand : Prop :=
  ∀ s : State, ¬ illegalEncoding s.params s.block.cmd →
    ∃ i, decode s.block.cmd s.block.data = .ok i ∧ i.wf = true ∧ validate i s ≠ some .illegalCommand

/-! ### The step, the command port and reset (10_state.md, 70_reset_and_hazards.md) -/

/-- 10_state.md R37, 30_encoding.md R85: in DECODE and in XFER the step is `exec` of the decoded command, on the state
with the inputs sampled; sampling changes the input side and pending bits only. -/
def Obligations.StepRunsTheDecodedCommand : Prop :=
  ∀ (s : State) (i : Instr), runsNext s → (s.block.fsm = .decode ∨ s.block.fsm = .xfer) →
    decode s.block.cmd s.block.data = .ok i →
    step s = exec i s.sample ∧
    s.sample = { s with
      banks := { s.banks with pend := s.sample.banks.pend }
      ports := ⟨s.ports.nextPins, s.ports.script.tail, s.ports.cycle + 1⟩ }

/-- Assumption log 5 (the model's own): the step after `withFetchWord` runs the instruction placed, from DECODE, on the
same banks and ghost state. -/
def Obligations.PlacedWordRunsNext : Prop :=
  ∀ (s : State) (nbits w : Nat) (i : Instr), paramsOk s.params = true → decodeTableWord nbits w = some i →
    ∃ t, step (s.withFetchWord nbits w) = exec i t ∧ t.block.fsm = .decode ∧ t.fetch = .ok i ∧
      t.params = s.params ∧ t.banks = s.banks ∧ t.ghost = s.ghost

/-- R14: in IDLE with `cmd_valid` the command is latched and the block goes to DECODE; without it the block waits; in
every other state `cmd_ready` is 0 and no step latches a command. -/
def Obligations.CommandsAreAcceptedInIdleOnly : Prop :=
  ∀ s : State, runsNext s →
    (s.block.fsm = .idle → s.ports.nextPins.cmdValid = true →
      step s = .next { s.sample with block := { s.block with
        cmd := s.ports.nextPins.cmdWord, data := s.ports.nextPins.cmdData, fsm := .decode } }) ∧
    (s.block.fsm = .idle → s.ports.nextPins.cmdValid = false → step s = .next s.sample) ∧
    (s.block.fsm ≠ .idle → cmdReady s = false ∧
      ∃ t, step s = .next t ∧ t.block.cmd = s.block.cmd ∧ t.block.data = s.block.data)

/-- R15: the end of a command presents its response; RESP holds it until `rsp_ready` and then returns to IDLE; the
response registers change in no other step of the FSM. -/
def Obligations.ResponsesAreHeldUntilTaken : Prop :=
  (∀ (s : State) (st : Status) (d : Word),
    s.endCommand st d = { s with block := { s.block with
      rspStatus := st, rspData := d, rspValid := true, fsm := .resp } }) ∧
  (∀ s : State, runsNext s → s.block.fsm = .resp →
    (s.ports.nextPins.rspReady = true →
      step s = .next { s.sample with block := { s.block with rspValid := false, fsm := .idle } }) ∧
    (s.ports.nextPins.rspReady = false → step s = .next s.sample)) ∧
  (∀ s t : State, runsNext s → step s = .next t → (s.block.fsm = .resp ∨ t.block.fsm ≠ .resp) →
    t.block.rspStatus = s.block.rspStatus ∧ t.block.rspData = s.block.rspData)

/-- 70_reset_and_hazards.md R134, R135: a step with `rst_n = 0`, and the first step after it rises (the model keeps that
in its own bit `rstHeld`, assumption log 7), gives the block's registers their reset values; outside XFER the banks (but
for the environment), the ghost state and the parameters stay, and no transaction is presented afterwards. That the
trace and the outstanding list stay is the model's choice (assumption log 10). -/
def Obligations.ResetGivesTheBlockItsResetValues : Prop :=
  ∀ s : State, paramsOk s.params = true → (s.ports.nextPins.rstN = false ∨ s.block.rstHeld = true) →
    ∃ t, step s = .next t ∧ t.block.fsm = .idle ∧ t.block.step = 0#3 ∧ t.block.rspValid = false ∧
      t.block.maskCache = 0x01#8 ∧ t.block.maskValid = false ∧ t.block.maskDefaulted = false ∧
      t.block.rstHeld = !s.ports.nextPins.rstN ∧ t.busReq = false ∧ t.params = s.params ∧
      (s.block.fsm ≠ .xfer → t.banks = s.sample.banks ∧ t.ghost = s.ghost)

/-- 70_reset_and_hazards.md R136: a transaction presented when reset asserts is performed or not, as the environment
chooses, and the command gets no response. Two things are the model's choice and no rule of the spec: a performed one has
its trace entry and its effect on the ghost state (assumption log 6), and reset itself leaves the trace and the outstanding
list (assumption log 10). -/
def Obligations.ResetSettlesTheTransactionInFlight : Prop :=
  ∀ (s t : State) (x : Txn), paramsOk s.params = true → s.ports.nextPins.rstN = false →
    s.sample.presented = some x → s.sample.perform x = some t →
    ∃ u, step s = .next u ∧ u.block.fsm = .idle ∧ u.block.rspValid = false ∧
      (s.ports.nextPins.inflightDone = true → u.banks = t.banks ∧ u.ghost = t.ghost) ∧
      (s.ports.nextPins.inflightDone = false → u.banks = s.sample.banks ∧ u.ghost = s.ghost)

/-- R38, R40: the state at launch, for all launch draws of the parameters, the banks and the inputs. -/
def Obligations.LaunchStateIsAsStated : Prop :=
  ∀ (p : Params) (b : Banks) (q : List Pins),
    let s := State.launch p b q
    s.block.fsm = .idle ∧ s.block.step = 0#3 ∧ s.block.rspValid = false ∧ cmdReady s = true ∧
    s.block.maskCache = 0x01#8 ∧ s.block.maskValid = false ∧ s.block.maskDefaulted = false ∧
    diagMaskDefault s = false ∧ s.ghost.trace = [] ∧ s.ghost.outstanding = [] ∧ s.ghost.hazardFault = false ∧
    s.banks = b

/-- R8 with the alignment and disjointness of R7: exactly the configurations outside the constraints are refused. -/
def Obligations.BadConfigurationsAreRefused : Prop :=
  ∀ s : State, step s = .refused .badConfiguration ↔
    ¬ (s.params.nIrq % 32 = 0 ∧ 32 ≤ s.params.nIrq ∧ s.params.nIrq ≤ 1024 ∧
      s.params.distBase.toNat % 0x1000 = 0 ∧ s.params.distBase.toNat + 0x1000 ≤ 2 ^ 32 ∧
      s.params.cpuBase.toNat % 0x1000 = 0 ∧ s.params.cpuBase.toNat + 0x1000 ≤ 2 ^ 32 ∧
      (s.params.distBase.toNat + 0x1000 ≤ s.params.cpuBase.toNat ∨
        s.params.cpuBase.toNat + 0x1000 ≤ s.params.distBase.toNat))

/-- 20_memory.md R58, R59: without `bus_ack` the block stays in XFER with the same transaction presented. -/
def Obligations.UnacknowledgedTransactionWaits : Prop :=
  ∀ s : State, runsNext s → s.block.fsm = .xfer → s.ports.nextPins.busAck = false →
    step s = .next s.sample ∧ s.sample.block = s.block ∧ s.sample.ghost = s.ghost ∧
    s.sample.presented = s.presented ∧ s.sample.busReq = s.busReq ∧ s.sample.busWe = s.busWe ∧
    s.sample.busAddr = s.busAddr ∧ s.sample.busWdata = s.busWdata

/-! ### DECODE (30_encoding.md R79, R80, 60_exceptions.md) -/

/-- 60_exceptions.md R119: a command that fails a check of its own, and a word that decodes to no command, change only
the response (and the FSM state), whatever the command and the status: no bank, no trace entry, no other register. -/
def Obligations.RejectedCommandsChangeOnlyTheirResponse : Prop :=
  ∀ s : State, s.block.fsm = .decode →
    (∀ (i : Instr) (st : Status), validate i s = some st → exec i s = .next (answered s st 0#32)) ∧
    (∀ e, s.fetch = .error e → transition s = .next (answered s .illegalCommand 0#32)) ∧
    (∀ st, (answered s st 0#32).banks = s.banks ∧ (answered s st 0#32).ghost = s.ghost)

/-- 30_encoding.md R79, 60_exceptions.md R118, R120: the status of every command that fails, by its first failing
check, and the commands that do not fail. -/
def Obligations.FirstFailingCheckGivesTheStatus : Prop :=
  ∀ (s : State) (irq : IrqId), s.block.fsm = .decode →
    let rejects (i : Instr) (st : Status) : Prop := exec i s = .next (answered s st 0#32)
    let outside : Prop := s.params.nIrq ≤ irq.toNat
    (∀ bank off, mapped s.params bank off.toNat .read = false → rejects (.regRead bank off) .illegalCommand) ∧
    (∀ bank off d, mapped s.params bank off.toNat .write = false → rejects (.regWrite bank off d) .illegalCommand) ∧
    (outside → (∀ kind, rejects (.setTrigger kind irq) .outOfRange) ∧ rejects (.setPending irq) .outOfRange ∧
      rejects (.clearPending irq) .outOfRange ∧ (∀ sec, rejects (.setSecurity sec irq) .outOfRange) ∧
      rejects (.enable irq) .outOfRange ∧ rejects (.disable irq) .outOfRange ∧ rejects (.complete irq) .outOfRange) ∧
    (∀ arg : BitVec 4, arg ≠ 1#4 ∧ arg ≠ 2#4 ∧ arg ≠ 4#4 ∧ arg ≠ 8#4 →
      rejects (.setType arg irq) .unsupportedTriggerType) ∧
    (∀ arg : BitVec 4, arg = 1#4 ∨ arg = 2#4 ∨ arg = 4#4 ∨ arg = 8#4 → outside →
      rejects (.setType arg irq) .outOfRange) ∧
    (¬ outside → s.block.maskValid = false → rejects (.enable irq) .maskUnresolved) ∧
    validate .resolveMask s = none ∧ validate .ack s = none ∧
    (¬ outside → (∀ kind, validate (.setTrigger kind irq) s = none) ∧ validate (.setPending irq) s = none ∧
      validate (.clearPending irq) s = none ∧ (∀ sec, validate (.setSecurity sec irq) s = none) ∧
      (s.block.maskValid = true → validate (.enable irq) s = none) ∧ validate (.disable irq) s = none ∧
      validate (.complete irq) s = none ∧
      (∀ arg : BitVec 4, arg = 1#4 ∨ arg = 2#4 ∨ arg = 4#4 ∨ arg = 8#4 → validate (.setType arg irq) s = none)) ∧
    (∀ bank off, mapped s.params bank off.toNat .read = true → validate (.regRead bank off) s = none) ∧
    (∀ bank off d, mapped s.params bank off.toNat .write = true → validate (.regWrite bank off d) s = none)

/-- 30_encoding.md R80: a failing check, of the encoding or of the command, ends it; RESOLVE_MASK with the mask resolved
ends with the cached result; every other command enters XFER at step 0. -/
def Obligations.DecodeEndsOrEntersXfer : Prop :=
  ∀ (i : Instr) (s : State), s.block.fsm = .decode →
    (∀ e, s.fetch = .error e → transition s = .next (answered s .illegalCommand 0#32)) ∧
    (∀ st, validate i s = some st → exec i s = .next (answered s st 0#32)) ∧
    (validate i s = none → ¬ (i = .resolveMask ∧ s.block.maskValid = true) →
      exec i s = .next { s with block := { s.block with step := 0#3, fsm := .xfer } }) ∧
    (s.block.maskValid = true → exec .resolveMask s = .next (answered s .ok
      (BitVec.ofNat 32 (s.block.maskCache.toNat + 256 * s.block.maskDefaulted.toNat))))

/-- 40_register_access.md R90: the mapped registers are those of the spec's predicate, and a register access to any
other offset or in the other direction is refused with `IllegalCommand` and no transaction. -/
def Obligations.MappedIsTheSpecsPredicate : Prop :=
  (∀ (p : Params) (bank : Bank) (off : Nat) (dir : Dir), paramsOk p = true →
    let inFamily (start words : Nat) : Prop := start ≤ off ∧ off < start + 4 * words
    (mapped p bank off dir = true ↔
      match bank, dir with
      | .dist, _ => off % 4 = 0 ∧
          ((p.groupBase = .dedicated ∧ inFamily 0x080 (p.nIrq / 32)) ∨ inFamily 0x100 (p.nIrq / 32) ∨
            inFamily 0x180 (p.nIrq / 32) ∨ inFamily 0x200 (p.nIrq / 32) ∨ inFamily 0x280 (p.nIrq / 32) ∨
            inFamily 0x800 (p.nIrq / 4) ∨ inFamily 0xC00 (p.nIrq / 16))
      | .cpu, .read => off = 0x000 ∨ off = 0x00C
      | .cpu, .write => off = 0x000 ∨ off = 0x010)) ∧
  (∀ (s : State) (bank : Bank) (off : BitVec 12) (d : Word), s.block.fsm = .decode →
    (mapped s.params bank off.toNat .read = false →
      exec (.regRead bank off) s = .next (answered s .illegalCommand 0#32)) ∧
    (mapped s.params bank off.toNat .write = false →
      exec (.regWrite bank off d) s = .next (answered s .illegalCommand 0#32)))

/-! ### The transactions of each command: completion, result and frame -/

/-- 40_register_access.md R88, 20_memory.md R46, R50, 30_encoding.md R84: REG_READ of every readable register answers
its word whole, captures it in HOLD and records it; only a read of ACK has a further effect (R91). -/
def Obligations.RegReadAnswersTheWord : Prop :=
  ∀ (s : State) (bank : Bank) (off : BitVec 12), paramsOk s.params = true → ackedAt s 0#3 →
    mapped s.params bank off.toNat .read = true →
    ∃ v : Word, ∃ out : List IrqId,
      exec (.regRead bank off) s = .next (answered (traced { s with
        block := { s.block with hold := v }
        ghost := { s.ghost with outstanding := out } } .read bank off.toNat v) .ok v) ∧
      (bank = .dist → out = s.ghost.outstanding ∧
        (∀ j, off.toNat = 0x080 + 4 * j → j < s.params.nIrq / 32 → v = s.banks.grp.extractLsb' (32 * j) 32) ∧
        (∀ j, off.toNat = 0x100 + 4 * j ∨ off.toNat = 0x180 + 4 * j → j < s.params.nIrq / 32 →
          v = s.banks.en.extractLsb' (32 * j) 32) ∧
        (∀ j, off.toNat = 0x200 + 4 * j ∨ off.toNat = 0x280 + 4 * j → j < s.params.nIrq / 32 →
          v = s.banks.pend.extractLsb' (32 * j) 32) ∧
        (∀ j, off.toNat = 0x800 + 4 * j → j < s.params.nIrq / 4 → v = s.banks.tgt.extractLsb' (32 * j) 32) ∧
        (∀ j, off.toNat = 0xC00 + 4 * j → j < s.params.nIrq / 16 → v = s.banks.cfg.extractLsb' (32 * j) 32)) ∧
      (bank = .cpu → off.toNat = 0x000 → out = s.ghost.outstanding ∧ v = s.banks.cpuCtrl) ∧
      (bank = .cpu → off.toNat = 0x00C → v = s.ports.pins.ackData ∧
        out = if v.toNat % 1024 < s.params.nIrq then s.ghost.outstanding ++ [BitVec.ofNat 10 v.toNat]
          else s.ghost.outstanding)

/-- 40_register_access.md R89, 20_memory.md R47, 10_state.md R31: REG_WRITE of every writable register changes its word
under its access type and the write-ignore mask, and nothing else; a write of EOI is one of COMPLETE (R91). -/
def Obligations.RegWriteStoresUnderTheAccessType : Prop :=
  ∀ (s : State) (bank : Bank) (off : BitVec 12) (d : Word), paramsOk s.params = true → ackedAt s 0#3 →
    mapped s.params bank off.toNat .write = true →
    let wi := writeIgnoreAt s.params bank off.toNat
    let writes (b : Banks) : Prop := exec (.regWrite bank off d) s =
      .next (answered (traced { s with banks := b } .write bank off.toNat d) .ok 0#32)
    let plain (old : Word) : Word := (old &&& wi) ||| (d &&& ~~~wi)
    let sets (old : Word) : Word := old ||| (d &&& ~~~wi)
    let clears (old : Word) : Word := old &&& ~~~(d &&& ~~~wi)
    (bank = .dist →
      (∀ j, off.toNat = 0x080 + 4 * j → j < s.params.nIrq / 32 →
        writes { s.banks with grp := setWordAt s.banks.grp j (plain (wordAt s.banks.grp j)) }) ∧
      (∀ j, off.toNat = 0x100 + 4 * j → j < s.params.nIrq / 32 →
        writes { s.banks with en := setWordAt s.banks.en j (sets (wordAt s.banks.en j)) }) ∧
      (∀ j, off.toNat = 0x180 + 4 * j → j < s.params.nIrq / 32 →
        writes { s.banks with en := setWordAt s.banks.en j (clears (wordAt s.banks.en j)) }) ∧
      (∀ j, off.toNat = 0x200 + 4 * j → j < s.params.nIrq / 32 →
        writes { s.banks with pend := setWordAt s.banks.pend j (sets (wordAt s.banks.pend j)) }) ∧
      (∀ j, off.toNat = 0x280 + 4 * j → j < s.params.nIrq / 32 →
        writes { s.banks with pend := setWordAt s.banks.pend j (clears (wordAt s.banks.pend j)) }) ∧
      (∀ j, off.toNat = 0x800 + 4 * j → j < s.params.nIrq / 4 →
        writes { s.banks with tgt := setWordAt s.banks.tgt j (plain (wordAt s.banks.tgt j)) }) ∧
      (∀ j, off.toNat = 0xC00 + 4 * j → j < s.params.nIrq / 16 →
        writes { s.banks with cfg := setWordAt s.banks.cfg j (plain (wordAt s.banks.cfg j)) })) ∧
    (bank = .cpu → off.toNat = 0x000 → writes { s.banks with cpuCtrl := plain s.banks.cpuCtrl }) ∧
    (bank = .cpu → off.toNat = 0x010 →
      (∀ l, s.ghost.outstanding = l ++ [BitVec.ofNat 10 d.toNat] →
        exec (.regWrite bank off d) s = .next (answered (traced { s with
          ghost := { s.ghost with outstanding := l } } .write bank off.toNat d) .ok 0#32)) ∧
      ((∀ l, s.ghost.outstanding ≠ l ++ [BitVec.ofNat 10 d.toNat]) →
        exec (.regWrite bank off d) s = .next (answered (traced { s with
          ghost := { s.ghost with hazardFault := true } } .write bank off.toNat d) .ok 0#32)))

/-- 43_pending_security.md R100: SET_PENDING is one write of one bit to PENDING_SET; `PEND[irq]` becomes 1 unless it is
write-ignored, no other pending bit and nothing else changes. -/
def Obligations.SetPendingSetsOneBit : Prop :=
  ∀ (s : State) (irq : IrqId), paramsOk s.params = true → irq.toNat < s.params.nIrq → ackedAt s 0#3 →
    let off := 0x200 + 4 * (irq.toNat / 32)
    ∃ x : BitVec 1024,
      exec (.setPending irq) s = .next (answered (traced { s with banks := { s.banks with pend := x } }
        .write .dist off (1#32 <<< (irq.toNat % 32))) .ok 0#32) ∧
      (∀ k : IrqId, x.getLsbD k.toNat = if k = irq ∧ (writeIgnoreAt s.params .dist off).getLsbD (irq.toNat % 32) = false
        then true else s.banks.pend.getLsbD k.toNat)

/-- 43_pending_security.md R101: CLEAR_PENDING is one write of one bit to PENDING_CLEAR; `PEND[irq]` becomes 0 unless
it is write-ignored, no other pending bit and nothing else changes. -/
def Obligations.ClearPendingClearsOneBit : Prop :=
  ∀ (s : State) (irq : IrqId), paramsOk s.params = true → irq.toNat < s.params.nIrq → ackedAt s 0#3 →
    let off := 0x280 + 4 * (irq.toNat / 32)
    ∃ x : BitVec 1024,
      exec (.clearPending irq) s = .next (answered (traced { s with banks := { s.banks with pend := x } }
        .write .dist off (1#32 <<< (irq.toNat % 32))) .ok 0#32) ∧
      (∀ k : IrqId, x.getLsbD k.toNat = if k = irq ∧ (writeIgnoreAt s.params .dist off).getLsbD (irq.toNat % 32) = false
        then false else s.banks.pend.getLsbD k.toNat)

/-- 44_enable_disable.md R106: DISABLE is one write of one bit to ENABLE_CLEAR; `EN[irq]` becomes 0 unless it is
write-ignored; no target byte, no control register, no other enable bit and nothing else changes. -/
def Obligations.DisableClearsOneBit : Prop :=
  ∀ (s : State) (irq : IrqId), paramsOk s.params = true → irq.toNat < s.params.nIrq → ackedAt s 0#3 →
    let off := 0x180 + 4 * (irq.toNat / 32)
    ∃ x : BitVec 1024,
      exec (.disable irq) s = .next (answered (traced { s with banks := { s.banks with en := x } }
        .write .dist off (1#32 <<< (irq.toNat % 32))) .ok 0#32) ∧
      (∀ k : IrqId, x.getLsbD k.toNat = if k = irq ∧ (writeIgnoreAt s.params .dist off).getLsbD (irq.toNat % 32) = false
        then false else s.banks.en.getLsbD k.toNat)

/-- 45_ack_complete.md R109, R112: ACK reads the acknowledge register once and answers bits 9:0 of the word; an ID that
exists becomes outstanding, any other is answered and not recorded. -/
def Obligations.AckAnswersTheIdAndClaimsIt : Prop :=
  ∀ s : State, ackedAt s 0#3 →
    let v := s.ports.pins.ackData
    let out := if v.toNat % 1024 < s.params.nIrq then s.ghost.outstanding ++ [BitVec.ofNat 10 v.toNat]
      else s.ghost.outstanding
    exec .ack s = .next (answered (traced { s with
      block := { s.block with hold := v }
      ghost := { s.ghost with outstanding := out } } .read .cpu 0x00C v) .ok (BitVec.ofNat 32 (v.toNat % 1024)))

/-- 45_ack_complete.md R110, 10_state.md R34, R35: COMPLETE writes the zero-extended ID to EOI; it removes the ID if it
is the most recent outstanding one, and otherwise marks the hazard and leaves the list. -/
def Obligations.CompleteEndsServiceOrMarksTheHazard : Prop :=
  ∀ (s : State) (irq : IrqId), ackedAt s 0#3 →
    (∀ l, s.ghost.outstanding = l ++ [irq] →
      exec (.complete irq) s = .next (answered (traced { s with
        ghost := { s.ghost with outstanding := l } } .write .cpu 0x010 (BitVec.ofNat 32 irq.toNat)) .ok 0#32)) ∧
    ((∀ l, s.ghost.outstanding ≠ l ++ [irq]) →
      exec (.complete irq) s = .next (answered (traced { s with
        ghost := { s.ghost with hazardFault := true } } .write .cpu 0x010 (BitVec.ofNat 32 irq.toNat)) .ok 0#32))

/-- 42_trigger.md R97, 46_set_type.md R114: SET_TRIGGER, and SET_TYPE with a supported code, read the CONFIG word
(step 0) and write it back with the trigger bit set or cleared (step 1); nothing but that word changes. -/
def Obligations.TriggerCommandsReadThenWrite : Prop :=
  ∀ (s : State) (i : Instr) (kind : TrigKind) (irq : IrqId), paramsOk s.params = true → irq.toNat < s.params.nIrq →
    (i = .setTrigger kind irq ∨ (kind = .edge ∧ (i = .setType 1#4 irq ∨ i = .setType 2#4 irq)) ∨
      (kind = .level ∧ (i = .setType 4#4 irq ∨ i = .setType 8#4 irq))) →
    let off := 0xC00 + 4 * (irq.toNat / 16)
    let b := 1#32 <<< (2 * (irq.toNat % 16) + 1)
    let v := if kind = .edge then s.block.hold ||| b else s.block.hold &&& ~~~b
    let wi := writeIgnoreAt s.params .dist off
    (ackedAt s 0#3 → exec i s = .next (traced { s with
      block := { s.block with hold := s.banks.cfg.extractLsb' (32 * (irq.toNat / 16)) 32, step := 1#3 } }
      .read .dist off (s.banks.cfg.extractLsb' (32 * (irq.toNat / 16)) 32))) ∧
    (ackedAt s 1#3 → ∃ x : BitVec 2048,
      exec i s = .next (answered (traced { s with banks := { s.banks with cfg := x } } .write .dist off v) .ok 0#32) ∧
      (∀ k, k < 2048 → x.getLsbD k =
        if k / 32 = irq.toNat / 16 ∧ wi.getLsbD (k % 32) = false then v.getLsbD (k % 32) else s.banks.cfg.getLsbD k))

/-- 46_set_type.md R113, R114, R115: SET_TYPE with a supported code is SET_TRIGGER with the translated kind, in every
state; so rising and falling configure the same, and so do high and low. -/
def Obligations.SetTypeIsSetTriggerWithTheTranslatedKind : Prop :=
  ∀ (s : State) (irq : IrqId),
    exec (.setType 1#4 irq) s = exec (.setTrigger .edge irq) s ∧
    exec (.setType 2#4 irq) s = exec (.setTrigger .edge irq) s ∧
    exec (.setType 4#4 irq) s = exec (.setTrigger .level irq) s ∧
    exec (.setType 8#4 irq) s = exec (.setTrigger .level irq) s

/-- 43_pending_security.md R102 with the dedicated GROUP family: SET_SECURITY reads the GROUP word (step 0) and writes
it back with the bit of the interrupt set for non-secure and cleared for secure (step 1). -/
def Obligations.SetSecurityReadsThenWritesTheGroup : Prop :=
  ∀ (s : State) (sec : Security) (irq : IrqId), paramsOk s.params = true → irq.toNat < s.params.nIrq →
    s.params.groupBase = .dedicated →
    let off := 0x080 + 4 * (irq.toNat / 32)
    let b := 1#32 <<< (irq.toNat % 32)
    let v := if sec = .nonSecure then s.block.hold ||| b else s.block.hold &&& ~~~b
    let wi := writeIgnoreAt s.params .dist off
    (ackedAt s 0#3 → exec (.setSecurity sec irq) s = .next (traced { s with
      block := { s.block with hold := s.banks.grp.extractLsb' (32 * (irq.toNat / 32)) 32, step := 1#3 } }
      .read .dist off (s.banks.grp.extractLsb' (32 * (irq.toNat / 32)) 32))) ∧
    (ackedAt s 1#3 → ∃ x : BitVec 1024,
      exec (.setSecurity sec irq) s =
        .next (answered (traced { s with banks := { s.banks with grp := x } } .write .dist off v) .ok 0#32) ∧
      (∀ k, k < 1024 → x.getLsbD k =
        if k / 32 = irq.toNat / 32 ∧ wi.getLsbD (k % 32) = false then v.getLsbD (k % 32) else s.banks.grp.getLsbD k))

/-- 43_pending_security.md R103: with the aliased `GROUP_BASE` the whole of SET_SECURITY reads and writes ENABLE_SET:
non-secure enables the interrupt (unless its bit is write-ignored) and changes no other enable bit; secure changes no
bank state; no security state is recorded. -/
def Obligations.AliasedSetSecurityEnables : Prop :=
  ∀ (s : State) (sec : Security) (irq : IrqId), paramsOk s.params = true → irq.toNat < s.params.nIrq →
    s.params.groupBase = .aliased → s.block.fsm = .decode → s.ports.pins.busAck = true →
    let off := 0x100 + 4 * (irq.toNat / 32)
    let h := s.banks.en.extractLsb' (32 * (irq.toNat / 32)) 32
    let b := 1#32 <<< (irq.toNat % 32)
    let v := if sec = .nonSecure then h ||| b else h &&& ~~~b
    ∃ x : BitVec 1024,
      runExec (.setSecurity sec irq) 3 s = .next (answered (traced (traced { s with
        block := { s.block with hold := h, step := 1#3 }
        banks := { s.banks with en := x } } .read .dist off h) .write .dist off v) .ok 0#32) ∧
      (sec = .secure → x = s.banks.en) ∧
      (sec = .nonSecure → ∀ k : IrqId, x.getLsbD k.toNat =
        if k = irq ∧ (writeIgnoreAt s.params .dist off).getLsbD (irq.toNat % 32) = false then true
        else s.banks.en.getLsbD k.toNat)

/-- 44_enable_disable.md R105: the five transactions of ENABLE, each with the state it leaves: CTRL is read and written
back with bit 3 cleared, the enable bit is written, the TARGET word is read and written back with the lane of the
interrupt replaced by `MASK_CACHE`; between steps 2 and 4 the target byte is still the old one
(70_reset_and_hazards.md R146). -/
def Obligations.EnablePerformsItsFiveTransactions : Prop :=
  ∀ (s : State) (irq : IrqId), paramsOk s.params = true → irq.toNat < s.params.nIrq →
    let enOff := 0x100 + 4 * (irq.toNat / 32)
    let tgtOffset := 0x800 + 4 * (irq.toNat / 4)
    let lane := 8 * (irq.toNat % 4)
    let word := s.banks.tgt.extractLsb' (32 * (irq.toNat / 4)) 32
    let h := s.block.hold
    (ackedAt s 0#3 → exec (.enable irq) s = .next (traced { s with
      block := { s.block with hold := s.banks.cpuCtrl, step := 1#3 } } .read .cpu 0x000 s.banks.cpuCtrl)) ∧
    (ackedAt s 1#3 →
      let wi := writeIgnoreAt s.params .cpu 0x000
      exec (.enable irq) s = .next (traced { s with
        block := { s.block with step := 2#3 }
        banks := { s.banks with cpuCtrl := (s.banks.cpuCtrl &&& wi) ||| (h &&& ~~~8#32 &&& ~~~wi) } }
        .write .cpu 0x000 (h &&& ~~~8#32))) ∧
    (ackedAt s 2#3 → ∃ x : BitVec 1024,
      exec (.enable irq) s = .next (traced { s with
        block := { s.block with step := 3#3 }
        banks := { s.banks with en := x } } .write .dist enOff (1#32 <<< (irq.toNat % 32))) ∧
      (∀ k : IrqId, x.getLsbD k.toNat =
        if k = irq ∧ (writeIgnoreAt s.params .dist enOff).getLsbD (irq.toNat % 32) = false then true
        else s.banks.en.getLsbD k.toNat)) ∧
    (ackedAt s 3#3 → exec (.enable irq) s = .next (traced { s with
      block := { s.block with hold := word, step := 4#3 } } .read .dist tgtOffset word)) ∧
    (ackedAt s 4#3 → ∃ (x : BitVec 8192) (v : Word),
      exec (.enable irq) s =
        .next (answered (traced { s with banks := { s.banks with tgt := x } } .write .dist tgtOffset v) .ok 0#32) ∧
      (∀ k, k < 32 → v.getLsbD k =
        if lane ≤ k ∧ k < lane + 8 then s.block.maskCache.getLsbD (k - lane) else h.getLsbD k) ∧
      (∀ k, k < 8192 → x.getLsbD k =
        if k / 32 = irq.toNat / 4 ∧ (writeIgnoreAt s.params .dist tgtOffset).getLsbD (k % 32) = false
        then v.getLsbD (k % 32) else s.banks.tgt.getLsbD k))

/-- 41_mask_resolver.md R93, R95: one probe read of an unresolved RESOLVE_MASK: a nonzero word is folded into the mask
and ends the command; a zero word goes on to the next, or after the eighth adopts the default mask. -/
def Obligations.ResolverProbesOneWordPerStep : Prop :=
  ∀ (s : State) (n : BitVec 3), paramsOk s.params = true → ackedAt s n → s.block.maskValid = false →
    let w := s.banks.tgt.extractLsb' (32 * n.toNat) 32
    let m : CpuMask := w.extractLsb' 0 8 ||| w.extractLsb' 8 8 ||| w.extractLsb' 16 8 ||| w.extractLsb' 24 8
    let after (b : Block) : State := traced { s with block := b } .read .dist (0x800 + 4 * n.toNat) w
    (w ≠ 0#32 → exec .resolveMask s = .next (answered (after { s.block with
      hold := w, maskCache := m, maskValid := true, maskDefaulted := false }) .ok (BitVec.ofNat 32 m.toNat))) ∧
    (w = 0#32 → n ≠ 7#3 → exec .resolveMask s = .next (after { s.block with hold := w, step := n + 1#3 })) ∧
    (w = 0#32 → n = 7#3 → exec .resolveMask s = .next (answered (after { s.block with
      hold := w, maskCache := 0x01#8, maskValid := true, maskDefaulted := true }) .ok 0x101#32))

/-! ### Whole commands, from DECODE to the response -/

/-- 42_trigger.md R98: after the whole of SET_TRIGGER, or of SET_TYPE with a supported code, the trigger bit of the
interrupt is the kind's (unless write-ignored) and every other bit of CFG, the other bit of its field included, and
every other bank register is unchanged. -/
def Obligations.TriggerCommandsPreserveEveryOtherBit : Prop :=
  ∀ (s : State) (i : Instr) (kind : TrigKind) (irq : IrqId), paramsOk s.params = true → irq.toNat < s.params.nIrq →
    (i = .setTrigger kind irq ∨ (kind = .edge ∧ (i = .setType 1#4 irq ∨ i = .setType 2#4 irq)) ∨
      (kind = .level ∧ (i = .setType 4#4 irq ∨ i = .setType 8#4 irq))) →
    s.block.fsm = .decode → s.ports.pins.busAck = true →
    ∃ t, runExec i 3 s = .next t ∧ t.block.fsm = .resp ∧ t.block.rspStatus = .ok ∧ t.block.rspData = 0#32 ∧
      t.banks = { s.banks with cfg := t.banks.cfg } ∧ t.params = s.params ∧ t.ports = s.ports ∧
      t.ghost.outstanding = s.ghost.outstanding ∧ t.ghost.hazardFault = s.ghost.hazardFault ∧
      t.ghost.trace.length = s.ghost.trace.length + 2 ∧
      (∀ k, k < 2048 → t.banks.cfg.getLsbD k =
        if k = 2 * irq.toNat + 1 ∧
          (writeIgnoreAt s.params .dist (0xC00 + 4 * (irq.toNat / 16))).getLsbD (2 * (irq.toNat % 16) + 1) = false
        then decide (kind = .edge) else s.banks.cfg.getLsbD k)

/-- 42_trigger.md R99: after SET_TRIGGER of an interrupt whose trigger bit is not write-ignored, a REG_READ of its
CONFIG word shows the bit set for edge and cleared for level, and repeating the command leaves the banks as they are. -/
def Obligations.TriggerReadsBackAndIsIdempotent : Prop :=
  ∀ (s : State) (kind : TrigKind) (irq : IrqId), paramsOk s.params = true → irq.toNat < s.params.nIrq →
    (writeIgnoreAt s.params .dist (0xC00 + 4 * (irq.toNat / 16))).getLsbD (2 * (irq.toNat % 16) + 1) = false →
    s.block.fsm = .decode → s.ports.pins.busAck = true →
    ∃ t u v, runExec (.setTrigger kind irq) 3 s = .next t ∧
      runExec (.regRead .dist (BitVec.ofNat 12 (0xC00 + 4 * (irq.toNat / 16)))) 2 (relatched t) = .next u ∧
      u.block.rspStatus = .ok ∧ u.block.rspData.getLsbD (2 * (irq.toNat % 16) + 1) = decide (kind = .edge) ∧
      runExec (.setTrigger kind irq) 3 (relatched t) = .next v ∧ v.banks = t.banks

/-- 43_pending_security.md R102: after the whole of SET_SECURITY with the dedicated GROUP family, the group bit of the
interrupt is the grouping's (unless write-ignored), and every other group bit and bank register is unchanged. -/
def Obligations.SetSecurityPreservesEveryOtherBit : Prop :=
  ∀ (s : State) (sec : Security) (irq : IrqId), paramsOk s.params = true → irq.toNat < s.params.nIrq →
    s.params.groupBase = .dedicated → s.block.fsm = .decode → s.ports.pins.busAck = true →
    ∃ t, runExec (.setSecurity sec irq) 3 s = .next t ∧ t.block.fsm = .resp ∧ t.block.rspStatus = .ok ∧
      t.block.rspData = 0#32 ∧ t.banks = { s.banks with grp := t.banks.grp } ∧ t.params = s.params ∧
      t.ghost.trace.length = s.ghost.trace.length + 2 ∧
      (∀ k : IrqId, t.banks.grp.getLsbD k.toNat =
        if k = irq ∧ (writeIgnoreAt s.params .dist (0x080 + 4 * (irq.toNat / 32))).getLsbD (irq.toNat % 32) = false
        then decide (sec = .nonSecure) else s.banks.grp.getLsbD k.toNat)

/-- 44_enable_disable.md R105, R108, with no bit write-ignored: after the whole of ENABLE the interrupt is enabled, its
target byte is `MASK_CACHE`, CTRL has bit 3 cleared and its other bits kept, and every other target byte and enable
bit, and PEND, GRP and CFG, are unchanged. -/
def Obligations.EnableRoutesOneInterrupt : Prop :=
  ∀ (s : State) (irq : IrqId), paramsOk s.params = true → s.params.writeIgnore = [] → irq.toNat < s.params.nIrq →
    s.block.maskValid = true → s.block.fsm = .decode → s.ports.pins.busAck = true →
    ∃ t, runExec (.enable irq) 6 s = .next t ∧ t.block.fsm = .resp ∧ t.block.rspStatus = .ok ∧ t.block.rspData = 0#32 ∧
      t.banks = { s.banks with en := t.banks.en, tgt := t.banks.tgt, cpuCtrl := s.banks.cpuCtrl &&& ~~~8#32 } ∧
      t.block.maskCache = s.block.maskCache ∧ t.params = s.params ∧ t.ports = s.ports ∧
      t.ghost.outstanding = s.ghost.outstanding ∧ t.ghost.hazardFault = s.ghost.hazardFault ∧
      (∀ k : IrqId, enBit t.banks k = if k = irq then true else enBit s.banks k) ∧
      (∀ k : IrqId, tgtByte t.banks k = if k = irq then s.block.maskCache else tgtByte s.banks k)

/-- 44_enable_disable.md R107, with the write-ignore bit of the interrupt in ENABLE_CLEAR 0: a second ENABLE leaves the
banks as the first left them, DISABLE then clears the enable bit, a second DISABLE leaves the banks as the first left
them, and each repetition performs all its transactions: five and one. -/
def Obligations.EnableAndDisableAreIdempotent : Prop :=
  ∀ (s : State) (irq : IrqId), paramsOk s.params = true → irq.toNat < s.params.nIrq →
    (writeIgnoreAt s.params .dist (0x180 + 4 * (irq.toNat / 32))).getLsbD (irq.toNat % 32) = false →
    s.block.maskValid = true → s.block.fsm = .decode → s.ports.pins.busAck = true →
    ∃ t u v w, runExec (.enable irq) 6 s = .next t ∧ runExec (.enable irq) 6 (relatched t) = .next u ∧
      u.banks = t.banks ∧ u.ghost.trace.length = t.ghost.trace.length + 5 ∧
      runExec (.disable irq) 2 (relatched u) = .next v ∧ enBit v.banks irq = false ∧
      runExec (.disable irq) 2 (relatched v) = .next w ∧ w.banks = v.banks ∧
      w.ghost.trace.length = v.ghost.trace.length + 1

/-- 41_mask_resolver.md R93, R94, R95: the whole of an unresolved RESOLVE_MASK. If TARGET word `k` is the first of the
eight that is not 0, the mask is the OR of its bytes, `k + 1` words are read and none beyond; if all are 0, eight are
read and the default mask is adopted. -/
def Obligations.ResolverAdoptsTheFirstNonzeroWord : Prop :=
  ∀ s : State, paramsOk s.params = true → s.block.fsm = .decode → s.ports.pins.busAck = true →
    s.block.maskValid = false →
    let word (k : Nat) : Word := s.banks.tgt.extractLsb' (32 * k) 32
    let entry (k : Nat) : TraceEntry := ⟨.read, .dist, 0x800 + 4 * k, word k⟩
    (∀ k, k < 8 → (∀ j, j < k → word j = 0#32) → word k ≠ 0#32 →
      let m : CpuMask := (word k).extractLsb' 0 8 ||| (word k).extractLsb' 8 8 |||
        (word k).extractLsb' 16 8 ||| (word k).extractLsb' 24 8
      runExec .resolveMask (k + 2) s = .next (answered { s with
        block := { s.block with
          step := BitVec.ofNat 3 k, hold := word k, maskCache := m, maskValid := true, maskDefaulted := false }
        ghost := { s.ghost with trace := s.ghost.trace ++ (List.range (k + 1)).map entry } }
        .ok (BitVec.ofNat 32 m.toNat))) ∧
    ((∀ j, j < 8 → word j = 0#32) →
      runExec .resolveMask 9 s = .next (answered { s with
        block := { s.block with
          step := 7#3, hold := 0#32, maskCache := 0x01#8, maskValid := true, maskDefaulted := true }
        ghost := { s.ghost with trace := s.ghost.trace ++ (List.range 8).map entry } } .ok 0x101#32))

/-- 30_encoding.md R86, 70_reset_and_hazards.md R151: with a bus that acknowledges, every command answers after one
transition more than it has transactions, and it has as many reads and writes as the table says: none if it fails. -/
def Obligations.EveryCommandAnswersAfterItsTransactions : Prop :=
  ∀ (i : Instr) (s : State), paramsOk s.params = true → s.block.fsm = .decode → s.ports.pins.busAck = true →
    ∃ t es, runExec i (es.length + 1) s = .next t ∧ t.block.fsm = .resp ∧ t.block.rspValid = true ∧
      t.ghost.trace = s.ghost.trace ++ es ∧ es.length ≤ 8 ∧
      let reads := (es.filter (fun e => e.dir == .read)).length
      let writes := (es.filter (fun e => e.dir == .write)).length
      match validate i s, i with
      | some st, _ => es = [] ∧ t.block.rspStatus = st ∧ t.block.rspData = 0#32
      | none, .regRead _ _ => reads = 1 ∧ writes = 0 ∧ t.block.rspStatus = .ok
      | none, .regWrite _ _ _ => reads = 0 ∧ writes = 1 ∧ t.block.rspStatus = .ok
      | none, .resolveMask => writes = 0 ∧ t.block.rspStatus = .ok ∧ t.block.maskValid = true ∧
          (if s.block.maskValid then reads = 0 else 1 ≤ reads ∧ reads ≤ 8)
      | none, .setTrigger _ _ => reads = 1 ∧ writes = 1 ∧ t.block.rspStatus = .ok
      | none, .setPending _ => reads = 0 ∧ writes = 1 ∧ t.block.rspStatus = .ok
      | none, .clearPending _ => reads = 0 ∧ writes = 1 ∧ t.block.rspStatus = .ok
      | none, .setSecurity _ _ => reads = 1 ∧ writes = 1 ∧ t.block.rspStatus = .ok
      | none, .enable _ => reads = 2 ∧ writes = 3 ∧ t.block.rspStatus = .ok
      | none, .disable _ => reads = 0 ∧ writes = 1 ∧ t.block.rspStatus = .ok
      | none, .ack => reads = 1 ∧ writes = 0 ∧ t.block.rspStatus = .ok
      | none, .complete _ => reads = 0 ∧ writes = 1 ∧ t.block.rspStatus = .ok
      | none, .setType _ _ => reads = 1 ∧ writes = 1 ∧ t.block.rspStatus = .ok

/-- 45_ack_complete.md R111: an ACK of an interrupt that exists and the COMPLETE of the ID it answered leave the
outstanding list and the hazard bit as they were, so pairs nest. -/
def Obligations.AckThenCompleteRestoresOutstanding : Prop :=
  ∀ s : State, s.block.fsm = .decode → s.ports.pins.busAck = true →
    s.ports.pins.ackData.toNat % 1024 < s.params.nIrq →
    ∃ t u, runExec .ack 2 s = .next t ∧
      runExec (.complete (BitVec.ofNat 10 t.block.rspData.toNat)) 2 (relatched t) = .next u ∧
      u.block.rspStatus = .ok ∧ u.ghost.outstanding = s.ghost.outstanding ∧
      u.ghost.hazardFault = s.ghost.hazardFault ∧ u.banks = s.banks

/-- 45_ack_complete.md R109: what bits 31:10 of the acknowledge word hold reaches neither the response nor the
outstanding list. -/
def Obligations.AckDiscardsTheHighBits : Prop :=
  ∀ (s : State) (v v' : Word), v.toNat % 1024 = v'.toNat % 1024 → ackedAt s 0#3 →
    let drawn (x : Word) : State := { s with ports := { s.ports with pins := { s.ports.pins with ackData := x } } }
    ∃ t t', exec .ack (drawn v) = .next t ∧ exec .ack (drawn v') = .next t' ∧
      t.block.rspData = t'.block.rspData ∧ t.block.rspStatus = t'.block.rspStatus ∧
      t.ghost.outstanding = t'.ghost.outstanding ∧ t.banks = t'.banks

/-! ### Rules of the whole machine -/

/-- The invariant of the machine (its fields cite their rules) is kept by every step. For a step in reset, what the trace
and the outstanding list hold is the model's choice (assumption logs 6 and 10). -/
def Obligations.EveryStepKeepsTheInvariant : Prop :=
  ∀ s t : State, MachineInv s → step s = .next t → MachineInv t

/-- The invariant holds at launch, for every admitted configuration, canonical banks and inputs; the reset state is one
of these. -/
def Obligations.LaunchMeetsTheInvariant : Prop :=
  (∀ (p : Params) (b : Banks) (q : List Pins), paramsOk p = true → banksWf p b = true → MachineInv (State.launch p b q)) ∧
  MachineInv State.reset

/-- 20_memory.md R41, R54, R58, 30_encoding.md R85: in a good state in XFER a transaction is presented, at a word
address inside the window of its bank, and when the bus acknowledges it the FSM performs it and goes on. -/
def Obligations.RunningCommandMakesProgress : Prop :=
  ∀ s : State, MachineInv s → s.block.fsm = .xfer →
    ∃ x t, s.presented = some x ∧ s.busReq = true ∧ s.perform x = some t ∧
      s.busAddr = some (bankBase s.params x.bank + BitVec.ofNat 32 x.off) ∧ x.off % 4 = 0 ∧ x.off < 0x1000 ∧
      (s.ports.pins.busAck = true → ∃ u, transition s = .next u ∧ u.banks = t.banks ∧ u.ghost = t.ghost ∧
        u.block.hold = t.block.hold ∧
        (u.block.fsm = .resp ∨ (u.block.fsm = .xfer ∧ u.block.step.toNat = s.block.step.toNat + 1)))

/-- 10_state.md R19: without reset a resolved mask never changes and stays resolved, only RESOLVE_MASK resolves it, and
ENABLE is refused until then. -/
def Obligations.ResolvedMaskNeverChanges : Prop :=
  (∀ s t : State, runsNext s → step s = .next t → s.block.maskValid = true →
    t.block.maskValid = true ∧ t.block.maskCache = s.block.maskCache ∧
    t.block.maskDefaulted = s.block.maskDefaulted) ∧
  (∀ s t : State, step s = .next t → s.block.maskValid = false → t.block.maskValid = true →
    decode s.block.cmd s.block.data = .ok .resolveMask) ∧
  (∀ (s : State) (irq : IrqId), s.block.fsm = .decode → s.block.maskValid = false →
    ∃ st, st ≠ .ok ∧ exec (.enable irq) s = .next (answered s st 0#32))

/-- 00_scope.md R7: no step changes the configuration. -/
def Obligations.NoStepChangesTheConfiguration : Prop :=
  ∀ s t : State, step s = .next t → t.params = s.params

/-- 10_state.md R33, R37: a step performs at most one transaction: the trace stays or gets one more entry. For a step in
reset the entry of a transaction in flight, and the trace being left otherwise, are the model's choice (assumption logs 6
and 10). -/
def Obligations.AStepPerformsAtMostOneTransaction : Prop :=
  ∀ s t : State, step s = .next t → t.ghost.trace = s.ghost.trace ∨ ∃ e, t.ghost.trace = s.ghost.trace ++ [e]

/-- 10_state.md R35: no step clears `hazard_fault`, not even reset; only a write of EOI that does not match the most
recent outstanding acknowledge sets it. For a step in reset two things are the model's choice and no rule of the spec: a
write of EOI in flight that is performed has its trace entry and its effect on the ghost state (assumption log 6), and
reset itself leaves the trace and the outstanding list (assumption log 10). -/
def Obligations.HazardFaultIsNeverCleared : Prop :=
  ∀ s t : State, step s = .next t →
    (s.ghost.hazardFault = true → t.ghost.hazardFault = true) ∧
    (s.ghost.hazardFault = false → t.ghost.hazardFault = true →
      ∃ v, t.ghost.trace = s.ghost.trace ++ [⟨.write, .cpu, 0x010, v⟩] ∧
        t.ghost.outstanding = s.ghost.outstanding ∧
        s.ghost.outstanding.getLast? ≠ some (BitVec.ofNat 10 v.toNat))

/-- 10_state.md R36, 20_memory.md R41: a step that performs no transaction changes nothing in the banks but pending
bits, and of those only the ones of interrupts that exist which the environment names in this step. "Performs no
transaction" reads as an unchanged trace; for a step in reset that rests on the model's choice that a transaction in
flight that is performed enters the trace (assumption log 6), and on reset leaving the trace (assumption log 10). That the
environment acts at the start of a step is assumption log 9. -/
def Obligations.BanksChangeOnlyByTransactions : Prop :=
  ∀ s t : State, step s = .next t → t.ghost.trace = s.ghost.trace →
    t.banks = { s.banks with pend := t.banks.pend } ∧
    (∀ irq : IrqId, pendBit t.banks irq ≠ pendBit s.banks irq →
      irq.toNat < s.params.nIrq ∧ (irq, pendBit t.banks irq) ∈ s.ports.nextPins.pendChanges)

/-- 60_exceptions.md R123, 10_state.md R23 to R28: which commands change which bank register, in every step of every
state: TGT and CPU_CTRL by ENABLE and REG_WRITE; CFG by SET_TRIGGER, SET_TYPE and REG_WRITE; GRP by SET_SECURITY and
REG_WRITE; EN by ENABLE, DISABLE, REG_WRITE and (aliased) SET_SECURITY. -/
def Obligations.OnlyTheseCommandsWriteEachRegister : Prop :=
  ∀ s t : State, step s = .next t →
    let runs (q : Instr → Prop) : Prop := ∃ i, decode s.block.cmd s.block.data = .ok i ∧ s.block.fsm = .xfer ∧ q i
    let rawWrite (i : Instr) : Prop := ∃ bank off d, i = .regWrite bank off d
    (t.banks.tgt ≠ s.banks.tgt → runs fun i => (∃ irq, i = .enable irq) ∨ rawWrite i) ∧
    (t.banks.cpuCtrl ≠ s.banks.cpuCtrl → runs fun i => (∃ irq, i = .enable irq) ∨ rawWrite i) ∧
    (t.banks.cfg ≠ s.banks.cfg → runs fun i =>
      (∃ kind irq, i = .setTrigger kind irq) ∨ (∃ arg irq, i = .setType arg irq) ∨ rawWrite i) ∧
    (t.banks.grp ≠ s.banks.grp → runs fun i => (∃ sec irq, i = .setSecurity sec irq) ∨ rawWrite i) ∧
    (t.banks.en ≠ s.banks.en → runs fun i =>
      (∃ irq, i = .enable irq) ∨ (∃ irq, i = .disable irq) ∨ rawWrite i ∨
      (s.params.groupBase = .aliased ∧ ∃ sec irq, i = .setSecurity sec irq))

/-- 20_memory.md R47, R50, R56: a write transaction changes no readable register but the one written and its set or
clear twin, by bytes: any address that reads differently afterwards lies in one of those words. -/
def Obligations.WritesChangeOnlyTheirWord : Prop :=
  ∀ (s t : State) (bank : Bank) (off : Nat) (v : Word) (r : Reg), paramsOk s.params = true →
    regAt s.params bank off = some r → s.perform (.write bank off v) = some t →
    ∀ a : Word, t.byteAt a = s.byteAt a ∨
      ∃ r' k, sameState r r' ∧ regExists s.params r' ∧ k < 4 ∧
        a = busAddress s.params (regHome r').1 (regHome r').2 + BitVec.ofNat 32 k

/-- 20_memory.md R56: a second identical write of any register but EOI changes no bank state, and a read of any register
but ACK changes neither the banks nor the outstanding list. -/
def Obligations.AccessesAreIdempotent : Prop :=
  ∀ (s t u : State) (bank : Bank) (off : Nat) (v : Word) (r : Reg), paramsOk s.params = true →
    regAt s.params bank off = some r →
    (r ≠ .eoi → s.perform (.write bank off v) = some t → t.perform (.write bank off v) = some u →
      u.banks = t.banks ∧ u.ghost.outstanding = s.ghost.outstanding ∧ u.ghost.hazardFault = s.ghost.hazardFault) ∧
    (r ≠ .ack → s.perform (.read bank off) = some t → t.banks = s.banks ∧
      t.ghost.outstanding = s.ghost.outstanding ∧ t.ghost.hazardFault = s.ghost.hazardFault)

/-- 20_memory.md R53: lane `k` of the word of a register that holds state is the byte at its address plus `k`. -/
def Obligations.LaneKIsTheByteAtOffsetK : Prop :=
  ∀ (s : State) (bank : Bank) (off : Nat) (r : Reg) (w : Word) (k : Nat), paramsOk s.params = true →
    regAt s.params bank off = some r → r ≠ .ack → s.peek r = some w → k < 4 →
    s.byteAt (busAddress s.params bank off + BitVec.ofNat 32 k) = some (w.extractLsb' (8 * k) 8)

/-- 30_encoding.md R81, R82, R83: the signals of the bus master port at the five steps of ENABLE. That `busWdata` has no
value at the two read steps is the model's choice (assumption log 18): the spec gives `bus_wdata` no value on a read. -/
def Obligations.EnableDrivesTheBusInOrder : Prop :=
  ∀ (s : State) (irq : IrqId), s.block.fsm = .xfer → decode s.block.cmd s.block.data = .ok (.enable irq) →
    let port (we : Bool) (a : Word) : Prop := s.busReq = true ∧ s.busWe = some we ∧ s.busAddr = some a
    let d := s.params.distBase
    let tgtWord := d + BitVec.ofNat 32 (0x800 + 4 * (irq.toNat / 4))
    (s.block.step = 0#3 → port false s.params.cpuBase ∧ s.busWdata = none) ∧
    (s.block.step = 1#3 → port true s.params.cpuBase ∧ s.busWdata = some (s.block.hold &&& ~~~8#32)) ∧
    (s.block.step = 2#3 → port true (d + BitVec.ofNat 32 (0x100 + 4 * (irq.toNat / 32))) ∧
      s.busWdata = some (1#32 <<< (irq.toNat % 32))) ∧
    (s.block.step = 3#3 → port false tgtWord ∧ s.busWdata = none) ∧
    (s.block.step = 4#3 → port true tgtWord ∧ s.busWdata = some
      ((s.block.hold &&& ~~~(0xFF#32 <<< (8 * (irq.toNat % 4)))) |||
        (s.block.maskCache.setWidth 32 <<< (8 * (irq.toNat % 4)))))
end

