-- ==== Sys2Proof/Laws/Encoding.lean ====
section
/-! SUPPORT. The bits of an encoded command word, format by format (30_encoding.md R68 to R70). -/

namespace Sys2Proof

theorem getLsbD_encodeN (op : BitVec 4) (k : Nat) :
    (encodeN op).getLsbD k = if k < 28 then false else op.getLsbD (k - 28) := by
  simp only [encodeN, BitVec.getLsbD_append, BitVec.getLsbD_zero]

theorem getLsbD_encodeI (op arg : BitVec 4) (irq : IrqId) (k : Nat) :
    (encodeI op arg irq).getLsbD k =
      if k < 10 then irq.getLsbD k else if k < 12 then false else if k < 16 then arg.getLsbD (k - 12)
      else if k < 28 then false else op.getLsbD (k - 28) := by
  simp only [encodeI, BitVec.getLsbD_append, BitVec.getLsbD_zero]
  split_ifs <;> first | rfl | omega

theorem getLsbD_encodeR (op : BitVec 4) (bank : Bank) (off : BitVec 12) (k : Nat) :
    (encodeR op bank off).getLsbD k =
      if k < 12 then off.getLsbD k else if k < 27 then false else if k < 28 then bank.code.getLsbD (k - 27)
      else op.getLsbD (k - 28) := by
  simp only [encodeR, BitVec.getLsbD_append, BitVec.getLsbD_zero]
  split_ifs <;> first | rfl | omega

theorem alignedOff_iff (off : BitVec 12) :
    alignedOff off = true ↔ off.getLsbD 0 = false ∧ off.getLsbD 1 = false := by
  simp only [alignedOff, beq_iff_eq]
  constructor
  · intro h
    exact ⟨by simpa using congrArg (fun b => b.getLsbD 0) h, by simpa using congrArg (fun b => b.getLsbD 1) h⟩
  · rintro ⟨h0, h1⟩
    apply BitVec.eq_of_getLsbD_eq
    intro k hk
    interval_cases k <;> simp_all

end Sys2Proof
end

