-- ==== Sys2Proof/Laws/Words.lean ====
section
/-! SUPPORT. The laws of the word, bit and byte views of the bank vectors, and of the access types and muxes on bits. -/

namespace Sys2Proof.Machine

theorem getLsbD_wordAt {n : Nat} (x : BitVec n) (j i : Nat) :
    (wordAt x j).getLsbD i = (decide (i < 32) && x.getLsbD (32 * j + i)) := by
  simp [wordAt, BitVec.getLsbD_extractLsb']

theorem getLsbD_setWordAt {n : Nat} (x : BitVec n) (j : Nat) (v : Word) (i : Nat) :
    (setWordAt x j v).getLsbD i =
      if 32 * j ≤ i ∧ i < 32 * j + 32 then decide (i < n) && v.getLsbD (i - 32 * j) else x.getLsbD i := by
  by_cases hn : i < n
  · have hm : i - 32 * j < n := by omega
    simp only [setWordAt, BitVec.getLsbD_or, BitVec.getLsbD_and, BitVec.getLsbD_not, BitVec.getLsbD_shiftLeft,
      BitVec.getLsbD_setWidth, BitVec.getLsbD_allOnes, hn, hm, decide_true, Bool.true_and]
    by_cases h1 : i < 32 * j
    · have h2 : ¬ (32 * j ≤ i ∧ i < 32 * j + 32) := by omega
      simp [h1, h2]
    · by_cases h3 : i - 32 * j < 32
      · have h2 : 32 * j ≤ i ∧ i < 32 * j + 32 := by omega
        simp [h1, h2, h3]
      · have h2 : ¬ (32 * j ≤ i ∧ i < 32 * j + 32) := by omega
        simp [h1, h2, h3, BitVec.getLsbD_of_ge v (i - 32 * j) (by omega)]
  · have : n ≤ i := by omega
    simp [BitVec.getLsbD_of_ge _ _ this, hn]

/-- Reading the word just written gives the value written. -/
theorem wordAt_setWordAt_same {n : Nat} (x : BitVec n) (j : Nat) (v : Word) (h : 32 * j + 32 ≤ n) :
    wordAt (setWordAt x j v) j = v := by
  apply BitVec.eq_of_getLsbD_eq
  intro i hi
  rw [getLsbD_wordAt, getLsbD_setWordAt]
  have h1 : 32 * j ≤ 32 * j + i ∧ 32 * j + i < 32 * j + 32 := by omega
  have h2 : 32 * j + i < n := by omega
  simp [hi, h2]

/-- A write leaves every other word alone. -/
theorem wordAt_setWordAt_ne {n : Nat} (x : BitVec n) (j k : Nat) (v : Word) (h : k ≠ j) :
    wordAt (setWordAt x j v) k = wordAt x k := by
  apply BitVec.eq_of_getLsbD_eq
  intro i hi
  rw [getLsbD_wordAt, getLsbD_setWordAt, getLsbD_wordAt]
  have h1 : ¬ (32 * j ≤ 32 * k + i ∧ 32 * k + i < 32 * j + 32) := by omega
  simp [h1]

/-- Writing a word back as read changes nothing. -/
theorem setWordAt_wordAt {n : Nat} (x : BitVec n) (j : Nat) : setWordAt x j (wordAt x j) = x := by
  apply BitVec.eq_of_getLsbD_eq
  intro i hi
  rw [getLsbD_setWordAt]
  split
  · rename_i h
    have h1 : i - 32 * j < 32 := by omega
    have h2 : 32 * j + (i - 32 * j) = i := by omega
    rw [getLsbD_wordAt, h2]
    simp [h1, hi]
  · rfl

theorem setWordAt_setWordAt {n : Nat} (x : BitVec n) (j : Nat) (v w : Word) :
    setWordAt (setWordAt x j v) j w = setWordAt x j w := by
  apply BitVec.eq_of_getLsbD_eq
  intro i _
  simp only [getLsbD_setWordAt]
  split <;> rfl

theorem getLsbD_oneHot (k i : Nat) (h : k < 32) : (oneHot k).getLsbD i = decide (i = k) := by
  by_cases hi : i < 32
  · by_cases hk : i < k
    · have : i ≠ k := by omega
      simp [oneHot, hi, hk, this]
    · have : (i - k = 0) ↔ i = k := by omega
      simp [oneHot, hi, hk, this]
  · have : i ≠ k := by omega
    rw [BitVec.getLsbD_of_ge _ _ (by omega)]
    simp [this]

theorem b32_lt (irq : IrqId) : b32 irq < 32 := Nat.mod_lt _ (by omega)

theorem cb_lt (irq : IrqId) : cb irq < 32 := by unfold cb; omega

theorem sh_le (irq : IrqId) : sh irq ≤ 24 := by unfold sh; omega

theorem w32_lt (irq : IrqId) : w32 irq < 32 := by have := irq.isLt; unfold w32; omega

theorem w16_lt (irq : IrqId) : w16 irq < 64 := by have := irq.isLt; unfold w16; omega

theorem w4_lt (irq : IrqId) : w4 irq < 256 := by have := irq.isLt; unfold w4; omega

theorem word_bit_of_irq (irq : IrqId) : 32 * w32 irq + b32 irq = irq.toNat := by unfold w32 b32; omega

theorem word_bit_of_cfg (irq : IrqId) : 32 * w16 irq + cb irq = 2 * irq.toNat + 1 := by unfold w16 cb; omega

theorem word_bit_of_tgt (irq : IrqId) : 32 * w4 irq + sh irq = 8 * irq.toNat := by unfold w4 sh; omega

theorem getLsbD_bitMask (irq : IrqId) (i : Nat) : (bitMask irq).getLsbD i = decide (i = b32 irq) :=
  getLsbD_oneHot _ _ (b32_lt irq)

theorem getLsbD_writeRw (old v wi : Word) (i : Nat) :
    (writeRw old v wi).getLsbD i = if wi.getLsbD i then old.getLsbD i else v.getLsbD i := by
  by_cases h : i < 32
  · simp only [writeRw, BitVec.getLsbD_or, BitVec.getLsbD_and, BitVec.getLsbD_not, h, decide_true, Bool.true_and]
    cases wi.getLsbD i <;> simp
  · simp [BitVec.getLsbD_of_ge _ _ (Nat.not_lt.mp h)]

theorem getLsbD_writeW1s (old v wi : Word) (i : Nat) :
    (writeW1s old v wi).getLsbD i = (old.getLsbD i || (v.getLsbD i && !wi.getLsbD i)) := by
  by_cases h : i < 32
  · simp [writeW1s, h]
  · simp [BitVec.getLsbD_of_ge _ _ (Nat.not_lt.mp h)]

theorem getLsbD_writeW1c (old v wi : Word) (i : Nat) :
    (writeW1c old v wi).getLsbD i = (old.getLsbD i && !(v.getLsbD i && !wi.getLsbD i)) := by
  by_cases h : i < 32
  · simp [writeW1c, h]
  · simp [BitVec.getLsbD_of_ge _ _ (Nat.not_lt.mp h)]

theorem getLsbD_trigMux (kind : TrigKind) (irq : IrqId) (h : Word) (i : Nat) :
    (trigMux kind irq h).getLsbD i = if i = cb irq then kind == .edge else h.getLsbD i := by
  by_cases hi : i < 32
  · by_cases hc : i = cb irq
    all_goals cases kind <;> simp only [trigMux, BitVec.getLsbD_or, BitVec.getLsbD_and, BitVec.getLsbD_not, getLsbD_oneHot _ _ (cb_lt irq), hi, hc,
      decide_true, decide_false, if_true, if_false] <;> simp
  · have : i ≠ cb irq := by have := cb_lt irq; omega
    simp [BitVec.getLsbD_of_ge _ _ (Nat.not_lt.mp hi), this]

theorem getLsbD_secMux (sec : Security) (irq : IrqId) (h : Word) (i : Nat) :
    (secMux sec irq h).getLsbD i = if i = b32 irq then sec == .nonSecure else h.getLsbD i := by
  by_cases hi : i < 32
  · by_cases hc : i = b32 irq
    all_goals cases sec <;> simp only [secMux, BitVec.getLsbD_or, BitVec.getLsbD_and, BitVec.getLsbD_not, getLsbD_bitMask, hi, hc,
      decide_true, decide_false, if_true, if_false] <;> simp
  · have : i ≠ b32 irq := by have := b32_lt irq; omega
    simp [BitVec.getLsbD_of_ge _ _ (Nat.not_lt.mp hi), this]

theorem getLsbD_laneMux (mask : CpuMask) (irq : IrqId) (h : Word) (i : Nat) :
    (laneMux mask irq h).getLsbD i =
      if sh irq ≤ i ∧ i < sh irq + 8 then mask.getLsbD (i - sh irq) else h.getLsbD i := by
  have hs := sh_le irq
  have hff : ∀ k, (0xFF#32).getLsbD k = decide (k < 8) := by
    intro k
    by_cases hk : k < 32
    · interval_cases k <;> rfl
    · rw [BitVec.getLsbD_of_ge _ _ (by omega)]; simp; omega
  by_cases hi : i < 32
  · simp only [laneMux, BitVec.getLsbD_or, BitVec.getLsbD_and, BitVec.getLsbD_not, BitVec.getLsbD_shiftLeft,
      BitVec.getLsbD_setWidth, hff, hi, decide_true, Bool.true_and]
    by_cases h1 : i < sh irq
    · have h2 : ¬ (sh irq ≤ i ∧ i < sh irq + 8) := by omega
      simp [h1, h2]
    · have h4 : i - sh irq < 32 := by omega
      by_cases h3 : i - sh irq < 8
      · have h2 : sh irq ≤ i ∧ i < sh irq + 8 := by omega
        simp [h1, h2, h3, h4]
      · have h2 : ¬ (sh irq ≤ i ∧ i < sh irq + 8) := by omega
        simp [h1, h2, h3, BitVec.getLsbD_of_ge mask (i - sh irq) (by omega)]
  · have : ¬ i < sh irq + 8 := by omega
    simp [BitVec.getLsbD_of_ge _ _ (Nat.not_lt.mp hi), this]

theorem getLsbD_ctrlMux (h : Word) (i : Nat) :
    (ctrlMux h).getLsbD i = (h.getLsbD i && !decide (i = 3)) := by
  by_cases hi : i < 32
  · simp only [ctrlMux, BitVec.getLsbD_and, BitVec.getLsbD_not, getLsbD_oneHot 3 i (by omega), hi, decide_true,
      Bool.true_and]
  · simp [BitVec.getLsbD_of_ge _ _ (Nat.not_lt.mp hi)]

/-- The fold is the OR of the four bytes of the word. -/
theorem fold_eq (w : Word) :
    fold w = w.extractLsb' 0 8 ||| w.extractLsb' 8 8 ||| w.extractLsb' 16 8 ||| w.extractLsb' 24 8 := by
  apply BitVec.eq_of_getLsbD_eq
  intro i hi
  have h1 : i < 32 := by omega
  simp only [fold, BitVec.getLsbD_extractLsb', BitVec.getLsbD_or, BitVec.getLsbD_ushiftRight, hi, decide_true,
    Bool.true_and, Nat.zero_add]
  rw [show 16 + (8 + i) = 24 + i by omega]
  cases w.getLsbD i <;> cases w.getLsbD (8 + i) <;> cases w.getLsbD (16 + i) <;> cases w.getLsbD (24 + i) <;> rfl

/-- The fold is 0 exactly for the word 0. -/
theorem fold_eq_zero (w : Word) : fold w = 0#8 ↔ w = 0#32 := by
  constructor
  · intro h
    apply BitVec.eq_of_getLsbD_eq
    intro i hi
    have key : ∀ k, k < 8 → w.getLsbD k = false ∧ w.getLsbD (8 + k) = false ∧ w.getLsbD (16 + k) = false ∧
        w.getLsbD (24 + k) = false := by
      intro k hk
      have := congrArg (fun b => b.getLsbD k) h
      simp only [fold_eq, BitVec.getLsbD_or, BitVec.getLsbD_extractLsb', hk, decide_true, Bool.true_and,
        BitVec.getLsbD_zero, Nat.zero_add, Bool.or_eq_false_iff] at this
      tauto
    obtain ⟨k, hk, h4⟩ : ∃ k, k < 8 ∧ (i = k ∨ i = 8 + k ∨ i = 16 + k ∨ i = 24 + k) := ⟨i % 8, by omega, by omega⟩
    have := key k hk
    rcases h4 with rfl | rfl | rfl | rfl <;> simp_all
  · rintro rfl
    decide

end Sys2Proof.Machine
end

