-- ==== Sys2Proof/Laws/RegisterMap.lean ====
section
/-! SUPPORT. The laws of the register map: which register stands where, and where the per-interrupt offsets lead. -/

namespace Sys2Proof.Machine

/-- What the constraints on the parameters say of the interrupt count. -/
theorem paramsOk_nIrq {p : Params} (h : paramsOk p = true) : p.nIrq % 32 = 0 ∧ 32 ≤ p.nIrq ∧ p.nIrq ≤ 1024 := by
  simp only [paramsOk, Bool.and_eq_true, beq_iff_eq, decide_eq_true_eq] at h
  omega

/-- What they say of the windows: aligned, inside 32 bits and disjoint. -/
theorem paramsOk_windows {p : Params} (h : paramsOk p = true) :
    p.distBase.toNat % 0x1000 = 0 ∧ p.distBase.toNat + 0x1000 ≤ 2 ^ 32 ∧
    p.cpuBase.toNat % 0x1000 = 0 ∧ p.cpuBase.toNat + 0x1000 ≤ 2 ^ 32 ∧
    (p.distBase.toNat + 0x1000 ≤ p.cpuBase.toNat ∨ p.cpuBase.toNat + 0x1000 ≤ p.distBase.toNat) := by
  simp only [paramsOk, Bool.and_eq_true, beq_iff_eq, decide_eq_true_eq] at h
  omega

@[simp] theorem irqExists_iff (p : Params) (irq : IrqId) : irqExists p irq = true ↔ irq.toNat < p.nIrq := by
  simp [irqExists]

theorem inFam_iff (off start words : Nat) : inFam off start words = true ↔ start ≤ off ∧ off < start + 4 * words := by
  simp [inFam]

/-- The register map is the table of 20_memory.md R46: a register is found exactly at its home, if it exists. -/
theorem regAt_eq_some_iff {p : Params} (h : paramsOk p = true) (bank : Bank) (off : Nat) (r : Reg) :
    regAt p bank off = some r ↔ regHome r = (bank, off) ∧ regExists p r := by
  obtain ⟨h1, h2, h3⟩ := paramsOk_nIrq h
  cases bank
  · simp only [regAt, distReg, inFam_iff]
    split_ifs with c1 c2 c3 c4 c5 c6 c7 c8 <;>
      cases r <;> simp_all only [regHome, regExists, Prod.mk.injEq, Option.some.injEq, Reg.group.injEq,
        Reg.enableSet.injEq, Reg.enableClear.injEq, Reg.pendingSet.injEq, Reg.pendingClear.injEq, Reg.target.injEq,
        Reg.config.injEq, reduceCtorEq, false_and, true_and, and_true, not_and, false_iff] <;>
      first
        | omega
        | (intro hoff hg
           simp only [hg, true_implies] at *
           omega)
  · simp only [regAt, cpuReg, ctrlOff, ackOff, eoiOff]
    by_cases c1 : off = 0
    · subst c1; cases r <;> simp [regHome, regExists]
    · by_cases c2 : off = 0x00C
      · subst c2; cases r <;> simp [regHome, regExists]
      · by_cases c3 : off = 0x010
        · subst c3; cases r <;> simp [regHome, regExists]
        · cases r <;> simp [regHome, regExists, c1, c2, c3] <;> omega

/-! ### Where the per-interrupt offsets lead (20_memory.md R44) -/

section
variable {p : Params} (h : paramsOk p = true) (irq : IrqId) (hi : irq.toNat < p.nIrq)
include h hi

theorem regAt_enSetOff : regAt p .dist (enSetOff irq) = some (.enableSet (w32 irq)) := by
  have := paramsOk_nIrq h
  rw [regAt_eq_some_iff h]
  exact ⟨rfl, by simp only [regExists, w32]; omega⟩

theorem regAt_enClrOff : regAt p .dist (enClrOff irq) = some (.enableClear (w32 irq)) := by
  have := paramsOk_nIrq h
  rw [regAt_eq_some_iff h]
  exact ⟨rfl, by simp only [regExists, w32]; omega⟩

theorem regAt_pendSetOff : regAt p .dist (pendSetOff irq) = some (.pendingSet (w32 irq)) := by
  have := paramsOk_nIrq h
  rw [regAt_eq_some_iff h]
  exact ⟨rfl, by simp only [regExists, w32]; omega⟩

theorem regAt_pendClrOff : regAt p .dist (pendClrOff irq) = some (.pendingClear (w32 irq)) := by
  have := paramsOk_nIrq h
  rw [regAt_eq_some_iff h]
  exact ⟨rfl, by simp only [regExists, w32]; omega⟩

theorem regAt_tgtOff : regAt p .dist (tgtOff irq) = some (.target (w4 irq)) := by
  have := paramsOk_nIrq h
  rw [regAt_eq_some_iff h]
  exact ⟨rfl, by simp only [regExists, w4]; omega⟩

theorem regAt_cfgOff : regAt p .dist (cfgOff irq) = some (.config (w16 irq)) := by
  have := paramsOk_nIrq h
  rw [regAt_eq_some_iff h]
  exact ⟨rfl, by simp only [regExists, w16]; omega⟩

theorem regAt_grpOff_dedicated (hg : p.groupBase = .dedicated) :
    regAt p .dist (grpOff p.groupBase irq) = some (.group (w32 irq)) := by
  have := paramsOk_nIrq h
  rw [regAt_eq_some_iff h, hg]
  exact ⟨rfl, hg, by simp only [w32]; omega⟩

theorem regAt_grpOff_aliased (hg : p.groupBase = .aliased) :
    regAt p .dist (grpOff p.groupBase irq) = some (.enableSet (w32 irq)) := by
  rw [hg]
  exact regAt_enSetOff h irq hi

end

theorem regAt_probeOff {p : Params} (h : paramsOk p = true) (i : Nat) (hi : i < 8) :
    regAt p .dist (probeOff i) = some (.target i) := by
  have := paramsOk_nIrq h
  rw [regAt_eq_some_iff h]
  exact ⟨rfl, by simp only [regExists]; omega⟩

theorem regAt_ctrlOff (p : Params) : regAt p .cpu ctrlOff = some .ctrl := rfl

theorem regAt_ackOff (p : Params) : regAt p .cpu ackOff = some .ack := rfl

theorem regAt_eoiOff (p : Params) : regAt p .cpu eoiOff = some .eoi := rfl

end Sys2Proof.Machine
end

