-- ==== Sys2Proof/Laws/State.lean ====
section
/-! SUPPORT. One lemma per field per update of the state, each true by rfl, so that no proof unfolds an update. -/

namespace Sys2Proof.Machine

variable (s : State)

/-! ### endCommand -/

@[simp] theorem State.endCommand_fsm (st : Status) (d : Word) : (s.endCommand st d).block.fsm = .resp := rfl
@[simp] theorem State.endCommand_step (st : Status) (d : Word) : (s.endCommand st d).block.step = s.block.step := rfl
@[simp] theorem State.endCommand_cmd (st : Status) (d : Word) : (s.endCommand st d).block.cmd = s.block.cmd := rfl
@[simp] theorem State.endCommand_data (st : Status) (d : Word) : (s.endCommand st d).block.data = s.block.data := rfl
@[simp] theorem State.endCommand_rspStatus (st : Status) (d : Word) : (s.endCommand st d).block.rspStatus = st := rfl
@[simp] theorem State.endCommand_rspData (st : Status) (d : Word) : (s.endCommand st d).block.rspData = d := rfl
@[simp] theorem State.endCommand_hold (st : Status) (d : Word) : (s.endCommand st d).block.hold = s.block.hold := rfl
@[simp] theorem State.endCommand_rspValid (st : Status) (d : Word) : (s.endCommand st d).block.rspValid = true := rfl
@[simp] theorem State.endCommand_maskCache (st : Status) (d : Word) : (s.endCommand st d).block.maskCache = s.block.maskCache := rfl
@[simp] theorem State.endCommand_maskValid (st : Status) (d : Word) : (s.endCommand st d).block.maskValid = s.block.maskValid := rfl
@[simp] theorem State.endCommand_maskDefaulted (st : Status) (d : Word) : (s.endCommand st d).block.maskDefaulted = s.block.maskDefaulted := rfl
@[simp] theorem State.endCommand_rstHeld (st : Status) (d : Word) : (s.endCommand st d).block.rstHeld = s.block.rstHeld := rfl
@[simp] theorem State.endCommand_params (st : Status) (d : Word) : (s.endCommand st d).params = s.params := rfl
@[simp] theorem State.endCommand_banks (st : Status) (d : Word) : (s.endCommand st d).banks = s.banks := rfl
@[simp] theorem State.endCommand_ghost (st : Status) (d : Word) : (s.endCommand st d).ghost = s.ghost := rfl
@[simp] theorem State.endCommand_ports (st : Status) (d : Word) : (s.endCommand st d).ports = s.ports := rfl

/-! ### raise -/

@[simp] theorem State.raise_fsm (st : Status) : (s.raise st).block.fsm = .resp := rfl
@[simp] theorem State.raise_step (st : Status) : (s.raise st).block.step = s.block.step := rfl
@[simp] theorem State.raise_cmd (st : Status) : (s.raise st).block.cmd = s.block.cmd := rfl
@[simp] theorem State.raise_data (st : Status) : (s.raise st).block.data = s.block.data := rfl
@[simp] theorem State.raise_rspStatus (st : Status) : (s.raise st).block.rspStatus = st := rfl
@[simp] theorem State.raise_rspData (st : Status) : (s.raise st).block.rspData = 0#32 := rfl
@[simp] theorem State.raise_hold (st : Status) : (s.raise st).block.hold = s.block.hold := rfl
@[simp] theorem State.raise_rspValid (st : Status) : (s.raise st).block.rspValid = true := rfl
@[simp] theorem State.raise_maskCache (st : Status) : (s.raise st).block.maskCache = s.block.maskCache := rfl
@[simp] theorem State.raise_maskValid (st : Status) : (s.raise st).block.maskValid = s.block.maskValid := rfl
@[simp] theorem State.raise_maskDefaulted (st : Status) : (s.raise st).block.maskDefaulted = s.block.maskDefaulted := rfl
@[simp] theorem State.raise_rstHeld (st : Status) : (s.raise st).block.rstHeld = s.block.rstHeld := rfl
@[simp] theorem State.raise_params (st : Status) : (s.raise st).params = s.params := rfl
@[simp] theorem State.raise_banks (st : Status) : (s.raise st).banks = s.banks := rfl
@[simp] theorem State.raise_ghost (st : Status) : (s.raise st).ghost = s.ghost := rfl
@[simp] theorem State.raise_ports (st : Status) : (s.raise st).ports = s.ports := rfl

/-! ### enterXfer -/

@[simp] theorem State.enterXfer_fsm : (s.enterXfer).block.fsm = .xfer := rfl
@[simp] theorem State.enterXfer_step : (s.enterXfer).block.step = 0#3 := rfl
@[simp] theorem State.enterXfer_cmd : (s.enterXfer).block.cmd = s.block.cmd := rfl
@[simp] theorem State.enterXfer_data : (s.enterXfer).block.data = s.block.data := rfl
@[simp] theorem State.enterXfer_rspStatus : (s.enterXfer).block.rspStatus = s.block.rspStatus := rfl
@[simp] theorem State.enterXfer_rspData : (s.enterXfer).block.rspData = s.block.rspData := rfl
@[simp] theorem State.enterXfer_hold : (s.enterXfer).block.hold = s.block.hold := rfl
@[simp] theorem State.enterXfer_rspValid : (s.enterXfer).block.rspValid = s.block.rspValid := rfl
@[simp] theorem State.enterXfer_maskCache : (s.enterXfer).block.maskCache = s.block.maskCache := rfl
@[simp] theorem State.enterXfer_maskValid : (s.enterXfer).block.maskValid = s.block.maskValid := rfl
@[simp] theorem State.enterXfer_maskDefaulted : (s.enterXfer).block.maskDefaulted = s.block.maskDefaulted := rfl
@[simp] theorem State.enterXfer_rstHeld : (s.enterXfer).block.rstHeld = s.block.rstHeld := rfl
@[simp] theorem State.enterXfer_params : (s.enterXfer).params = s.params := rfl
@[simp] theorem State.enterXfer_banks : (s.enterXfer).banks = s.banks := rfl
@[simp] theorem State.enterXfer_ghost : (s.enterXfer).ghost = s.ghost := rfl
@[simp] theorem State.enterXfer_ports : (s.enterXfer).ports = s.ports := rfl

/-! ### advance -/

@[simp] theorem State.advance_fsm : (s.advance).block.fsm = s.block.fsm := rfl
@[simp] theorem State.advance_step : (s.advance).block.step = s.block.step + 1#3 := rfl
@[simp] theorem State.advance_cmd : (s.advance).block.cmd = s.block.cmd := rfl
@[simp] theorem State.advance_data : (s.advance).block.data = s.block.data := rfl
@[simp] theorem State.advance_rspStatus : (s.advance).block.rspStatus = s.block.rspStatus := rfl
@[simp] theorem State.advance_rspData : (s.advance).block.rspData = s.block.rspData := rfl
@[simp] theorem State.advance_hold : (s.advance).block.hold = s.block.hold := rfl
@[simp] theorem State.advance_rspValid : (s.advance).block.rspValid = s.block.rspValid := rfl
@[simp] theorem State.advance_maskCache : (s.advance).block.maskCache = s.block.maskCache := rfl
@[simp] theorem State.advance_maskValid : (s.advance).block.maskValid = s.block.maskValid := rfl
@[simp] theorem State.advance_maskDefaulted : (s.advance).block.maskDefaulted = s.block.maskDefaulted := rfl
@[simp] theorem State.advance_rstHeld : (s.advance).block.rstHeld = s.block.rstHeld := rfl
@[simp] theorem State.advance_params : (s.advance).params = s.params := rfl
@[simp] theorem State.advance_banks : (s.advance).banks = s.banks := rfl
@[simp] theorem State.advance_ghost : (s.advance).ghost = s.ghost := rfl
@[simp] theorem State.advance_ports : (s.advance).ports = s.ports := rfl

/-! ### adoptMask -/

@[simp] theorem State.adoptMask_fsm (m : CpuMask) (f : Bool) : (s.adoptMask m f).block.fsm = s.block.fsm := rfl
@[simp] theorem State.adoptMask_step (m : CpuMask) (f : Bool) : (s.adoptMask m f).block.step = s.block.step := rfl
@[simp] theorem State.adoptMask_cmd (m : CpuMask) (f : Bool) : (s.adoptMask m f).block.cmd = s.block.cmd := rfl
@[simp] theorem State.adoptMask_data (m : CpuMask) (f : Bool) : (s.adoptMask m f).block.data = s.block.data := rfl
@[simp] theorem State.adoptMask_rspStatus (m : CpuMask) (f : Bool) : (s.adoptMask m f).block.rspStatus = s.block.rspStatus := rfl
@[simp] theorem State.adoptMask_rspData (m : CpuMask) (f : Bool) : (s.adoptMask m f).block.rspData = s.block.rspData := rfl
@[simp] theorem State.adoptMask_hold (m : CpuMask) (f : Bool) : (s.adoptMask m f).block.hold = s.block.hold := rfl
@[simp] theorem State.adoptMask_rspValid (m : CpuMask) (f : Bool) : (s.adoptMask m f).block.rspValid = s.block.rspValid := rfl
@[simp] theorem State.adoptMask_maskCache (m : CpuMask) (f : Bool) : (s.adoptMask m f).block.maskCache = m := rfl
@[simp] theorem State.adoptMask_maskValid (m : CpuMask) (f : Bool) : (s.adoptMask m f).block.maskValid = true := rfl
@[simp] theorem State.adoptMask_maskDefaulted (m : CpuMask) (f : Bool) : (s.adoptMask m f).block.maskDefaulted = f := rfl
@[simp] theorem State.adoptMask_rstHeld (m : CpuMask) (f : Bool) : (s.adoptMask m f).block.rstHeld = s.block.rstHeld := rfl
@[simp] theorem State.adoptMask_params (m : CpuMask) (f : Bool) : (s.adoptMask m f).params = s.params := rfl
@[simp] theorem State.adoptMask_banks (m : CpuMask) (f : Bool) : (s.adoptMask m f).banks = s.banks := rfl
@[simp] theorem State.adoptMask_ghost (m : CpuMask) (f : Bool) : (s.adoptMask m f).ghost = s.ghost := rfl
@[simp] theorem State.adoptMask_ports (m : CpuMask) (f : Bool) : (s.adoptMask m f).ports = s.ports := rfl

/-! ### resetBlock -/

@[simp] theorem State.resetBlock_fsm : (s.resetBlock).block.fsm = .idle := rfl
@[simp] theorem State.resetBlock_step : (s.resetBlock).block.step = 0#3 := rfl
@[simp] theorem State.resetBlock_cmd : (s.resetBlock).block.cmd = 0#32 := rfl
@[simp] theorem State.resetBlock_data : (s.resetBlock).block.data = 0#32 := rfl
@[simp] theorem State.resetBlock_rspStatus : (s.resetBlock).block.rspStatus = .ok := rfl
@[simp] theorem State.resetBlock_rspData : (s.resetBlock).block.rspData = 0#32 := rfl
@[simp] theorem State.resetBlock_hold : (s.resetBlock).block.hold = 0#32 := rfl
@[simp] theorem State.resetBlock_rspValid : (s.resetBlock).block.rspValid = false := rfl
@[simp] theorem State.resetBlock_maskCache : (s.resetBlock).block.maskCache = 0x01#8 := rfl
@[simp] theorem State.resetBlock_maskValid : (s.resetBlock).block.maskValid = false := rfl
@[simp] theorem State.resetBlock_maskDefaulted : (s.resetBlock).block.maskDefaulted = false := rfl
@[simp] theorem State.resetBlock_rstHeld : (s.resetBlock).block.rstHeld = !s.ports.pins.rstN := rfl
@[simp] theorem State.resetBlock_params : (s.resetBlock).params = s.params := rfl
@[simp] theorem State.resetBlock_banks : (s.resetBlock).banks = s.banks := rfl
@[simp] theorem State.resetBlock_ghost : (s.resetBlock).ghost = s.ghost := rfl
@[simp] theorem State.resetBlock_ports : (s.resetBlock).ports = s.ports := rfl

/-! ### sample -/

@[simp] theorem State.sample_params : s.sample.params = s.params := rfl
@[simp] theorem State.sample_block : s.sample.block = s.block := rfl
@[simp] theorem State.sample_ghost : s.sample.ghost = s.ghost := rfl
@[simp] theorem State.sample_pins : s.sample.ports.pins = s.ports.nextPins := rfl
@[simp] theorem State.sample_script : s.sample.ports.script = s.ports.script.tail := rfl
@[simp] theorem State.sample_cycle : s.sample.ports.cycle = s.ports.cycle + 1 := rfl
@[simp] theorem State.sample_banks :
    s.sample.banks = s.banks.environment s.params s.ports.nextPins.pendChanges := rfl
@[simp] theorem Ports.nextPins_cons (p : Pins) (ps : List Pins) (q : Pins) (n : Nat) :
    (Ports.mk q (p :: ps) n).nextPins = p := rfl

/-! ### record -/

@[simp] theorem Ghost.record_trace (g : Ghost) (e : TraceEntry) : (g.record e).trace = g.trace ++ [e] := rfl
@[simp] theorem Ghost.record_outstanding (g : Ghost) (e : TraceEntry) :
    (g.record e).outstanding = g.outstanding := rfl
@[simp] theorem Ghost.record_hazardFault (g : Ghost) (e : TraceEntry) :
    (g.record e).hazardFault = g.hazardFault := rfl

/-! ### Transactions -/

@[simp] theorem Txn.read_bank (bank : Bank) (off : Nat) : (Txn.read bank off).bank = bank := rfl
@[simp] theorem Txn.read_off (bank : Bank) (off : Nat) : (Txn.read bank off).off = off := rfl
@[simp] theorem Txn.read_dir (bank : Bank) (off : Nat) : (Txn.read bank off).dir = .read := rfl
@[simp] theorem Txn.write_bank (bank : Bank) (off : Nat) (v : Word) : (Txn.write bank off v).bank = bank := rfl
@[simp] theorem Txn.write_off (bank : Bank) (off : Nat) (v : Word) : (Txn.write bank off v).off = off := rfl
@[simp] theorem Txn.write_dir (bank : Bank) (off : Nat) (v : Word) : (Txn.write bank off v).dir = .write := rfl

/-! ### The terms of the claims -/

theorem State.endCommand_eq_answered (st : Status) (d : Word) : s.endCommand st d = answered s st d := rfl
theorem State.raise_eq_answered (st : Status) : s.raise st = answered s st 0#32 := rfl

/-! ### launch and reset -/

@[simp] theorem State.launch_params (p : Params) (b : Banks) (q : List Pins) : (State.launch p b q).params = p := rfl
@[simp] theorem State.launch_block (p : Params) (b : Banks) (q : List Pins) :
    (State.launch p b q).block = Block.reset := rfl
@[simp] theorem State.launch_banks (p : Params) (b : Banks) (q : List Pins) : (State.launch p b q).banks = b := rfl
@[simp] theorem State.launch_ghost (p : Params) (b : Banks) (q : List Pins) :
    (State.launch p b q).ghost = Ghost.launch := rfl

end Sys2Proof.Machine
end

