-- ==== Sys2Proof/Laws/Ops.lean ====
section
/-! SUPPORT. For each shared operation, everything it can do. -/

namespace Sys2Proof.Machine

variable {s t : State}

/-! ### Checks -/

theorem checkRange_eq_none_iff (p : Params) (irq : IrqId) : checkRange p irq = none ↔ irq.toNat < p.nIrq := by
  simp [checkRange]

theorem checkRange_eq_some_iff (p : Params) (irq : IrqId) (st : Status) :
    checkRange p irq = some st ↔ p.nIrq ≤ irq.toNat ∧ st = .outOfRange := by
  unfold checkRange
  split <;> simp_all [irqExists, eq_comm]

theorem checkMapped_eq_none_iff (p : Params) (bank : Bank) (off : BitVec 12) (dir : Dir) :
    checkMapped p bank off dir = none ↔ mapped p bank off.toNat dir = true := by simp [checkMapped]

theorem mapped_of_regAt {p : Params} {bank : Bank} {off : Nat} {r : Reg} (h : regAt p bank off = some r) (dir : Dir) :
    mapped p bank off dir = r.allows dir := by simp [mapped, h]

/-! ### Register access -/

/-- A register can be read exactly when its access type admits it. -/
theorem peek_isSome (s : State) (r : Reg) : (s.peek r).isSome = r.allows .read := by cases r <;> rfl

/-- A register can be written exactly when its access type admits it. -/
theorem poke_isSome (b : Banks) (r : Reg) (v wi : Word) : (b.poke r v wi).isSome = r.allows .write := by
  cases r <;> rfl

/-! ### Transactions -/

/-- A read transaction captures the register's word, records it, and claims on ACK. -/
theorem busRead_eq_some_iff (s : State) (bank : Bank) (off : Nat) :
    s.busRead bank off = some t ↔ ∃ r v, regAt s.params bank off = some r ∧ s.peek r = some v ∧
      t = { s with block := { s.block with hold := v }
                   ghost := (s.ghost.record ⟨.read, bank, off, v⟩).afterRead s.params r v } := by
  simp only [State.busRead, Option.bind_eq_some_iff, Option.map_eq_some_iff]
  constructor
  · rintro ⟨r, hr, v, hv, rfl⟩; exact ⟨r, v, hr, hv, rfl⟩
  · rintro ⟨r, v, hr, hv, rfl⟩; exact ⟨r, hr, v, hv, rfl⟩

/-- A write transaction changes the banks under the register's access type, records it, and ends service on EOI. -/
theorem busWrite_eq_some_iff (s : State) (bank : Bank) (off : Nat) (v : Word) :
    s.busWrite bank off v = some t ↔ ∃ r b, regAt s.params bank off = some r ∧
      s.banks.poke r v (writeIgnoreAt s.params bank off) = some b ∧
      t = { s with banks := b
                   ghost := (s.ghost.record ⟨.write, bank, off, v⟩).afterWrite r v } := by
  simp only [State.busWrite, Option.bind_eq_some_iff, Option.map_eq_some_iff]
  constructor
  · rintro ⟨r, hr, b, hb, rfl⟩; exact ⟨r, b, hr, hb, rfl⟩
  · rintro ⟨r, b, hr, hb, rfl⟩; exact ⟨r, hr, b, hb, rfl⟩

theorem busRead_of {bank : Bank} {off : Nat} {r : Reg} {v : Word} (hr : regAt s.params bank off = some r)
    (hv : s.peek r = some v) :
    s.busRead bank off = some { s with
      block := { s.block with hold := v }
      ghost := (s.ghost.record ⟨.read, bank, off, v⟩).afterRead s.params r v } :=
  (busRead_eq_some_iff s bank off).2 ⟨r, v, hr, hv, rfl⟩

theorem busWrite_of {bank : Bank} {off : Nat} {v : Word} {r : Reg} {b : Banks}
    (hr : regAt s.params bank off = some r) (hb : s.banks.poke r v (writeIgnoreAt s.params bank off) = some b) :
    s.busWrite bank off v = some { s with
      banks := b, ghost := (s.ghost.record ⟨.write, bank, off, v⟩).afterWrite r v } :=
  (busWrite_eq_some_iff s bank off v).2 ⟨r, b, hr, hb, rfl⟩

@[simp] theorem Ghost.afterRead_trace (g : Ghost) (p : Params) (r : Reg) (v : Word) :
    (g.afterRead p r v).trace = g.trace := by
  unfold Ghost.afterRead Ghost.claim
  split
  · split <;> rfl
  · rfl

@[simp] theorem Ghost.afterRead_hazardFault (g : Ghost) (p : Params) (r : Reg) (v : Word) :
    (g.afterRead p r v).hazardFault = g.hazardFault := by
  unfold Ghost.afterRead Ghost.claim
  split
  · split <;> rfl
  · rfl

theorem Ghost.afterRead_of_ne {r : Reg} (h : r ≠ .ack) (g : Ghost) (p : Params) (v : Word) :
    g.afterRead p r v = g := if_neg h

@[simp] theorem Ghost.afterWrite_trace (g : Ghost) (r : Reg) (v : Word) : (g.afterWrite r v).trace = g.trace := by
  unfold Ghost.afterWrite Ghost.endService
  split
  · split <;> rfl
  · rfl

theorem Ghost.afterWrite_of_ne {r : Reg} (h : r ≠ .eoi) (g : Ghost) (v : Word) : g.afterWrite r v = g := if_neg h

/-- An acknowledged ID joins the outstanding list if its interrupt exists (10_state.md R34). -/
theorem Ghost.claim_cases (g : Ghost) (p : Params) (v : Word) :
    ((idOf v).toNat < p.nIrq ∧ g.claim p v = { g with outstanding := g.outstanding ++ [idOf v] }) ∨
    (p.nIrq ≤ (idOf v).toNat ∧ g.claim p v = g) := by
  unfold Ghost.claim
  by_cases h : (idOf v).toNat < p.nIrq
  · exact .inl ⟨h, if_pos ((irqExists_iff _ _).2 h)⟩
  · exact .inr ⟨by omega, if_neg (fun hc => h ((irqExists_iff _ _).1 hc))⟩

/-- A completion removes the most recent outstanding ID, or marks the hazard (10_state.md R34, R35). -/
theorem Ghost.endService_cases (g : Ghost) (v : Word) :
    (g.outstanding.getLast? = some (idOf v) ∧ g.endService v = { g with outstanding := g.outstanding.dropLast }) ∨
    (g.outstanding.getLast? ≠ some (idOf v) ∧ g.endService v = { g with hazardFault := true }) := by
  unfold Ghost.endService
  by_cases h : g.outstanding.getLast? = some (idOf v)
  · exact .inl ⟨h, if_pos h⟩
  · exact .inr ⟨h, if_neg h⟩

/-- A transaction can be performed exactly where the register map admits its direction. -/
theorem perform_isSome (s : State) (x : Txn) : (s.perform x).isSome = mapped s.params x.bank x.off x.dir := by
  cases x with
  | read bank off =>
    simp only [State.perform, State.busRead, mapped, Txn.bank, Txn.off, Txn.dir]
    cases h : regAt s.params bank off <;> simp [← peek_isSome s]
  | write bank off v =>
    simp only [State.perform, State.busWrite, mapped, Txn.bank, Txn.off, Txn.dir]
    cases h : regAt s.params bank off <;> simp [← poke_isSome s.banks _ v (writeIgnoreAt s.params bank off)]

/-- A transaction adds one entry to the trace: its own direction, bank and offset. -/
theorem perform_trace {x : Txn} (h : s.perform x = some t) :
    ∃ v, t.ghost.trace = s.ghost.trace ++ [⟨x.dir, x.bank, x.off, v⟩] := by
  cases x with
  | read bank off =>
    obtain ⟨r, v, -, -, rfl⟩ := (busRead_eq_some_iff s bank off).1 h
    exact ⟨v, by simp [Txn.dir, Txn.bank, Txn.off]⟩
  | write bank off v =>
    obtain ⟨r, b, -, -, rfl⟩ := (busWrite_eq_some_iff s bank off v).1 h
    exact ⟨v, by simp [Txn.dir, Txn.bank, Txn.off]⟩

/-- What any transaction leaves unchanged. -/
theorem perform_frame {x : Txn} (h : s.perform x = some t) :
    t.params = s.params ∧ t.ports = s.ports ∧ t.block = { s.block with hold := t.block.hold } := by
  cases x with
  | read bank off =>
    obtain ⟨r, v, -, -, rfl⟩ := (busRead_eq_some_iff s bank off).1 h
    exact ⟨rfl, rfl, rfl⟩
  | write bank off v =>
    obtain ⟨r, b, -, -, rfl⟩ := (busWrite_eq_some_iff s bank off v).1 h
    exact ⟨rfl, rfl, rfl⟩

/-! ### The sequencing of a command -/

/-- DECODE can do one of three things (30_encoding.md R80). -/
theorem runDecode_cases (s : State) (fail : Option Status) (txns : List Txn) (finish : State → State) :
    (∃ st, fail = some st ∧ s.runDecode fail txns finish = s.raise st) ∨
    (fail = none ∧ txns = [] ∧ s.runDecode fail txns finish = finish s) ∨
    (fail = none ∧ txns ≠ [] ∧ s.runDecode fail txns finish = s.enterXfer) := by
  cases fail with
  | some st => exact .inl ⟨st, rfl, rfl⟩
  | none =>
    cases txns with
    | nil => exact .inr (.inl ⟨rfl, rfl, rfl⟩)
    | cons x xs => exact .inr (.inr ⟨rfl, by simp, rfl⟩)

/-- XFER can do one of three things: hold, end after its last transaction, or go on to the next (30_encoding.md R85). -/
theorem runXfer_cases (s : State) (txns : List Txn) (stop : State → Bool) (finish : State → State) :
    s.runXfer txns stop finish = s ∨
    ∃ x t, s.ports.pins.busAck = true ∧ txns[s.block.step.toNat]? = some x ∧ s.perform x = some t ∧
      (((stop t = true ∨ s.block.step.toNat + 1 = txns.length) ∧ s.runXfer txns stop finish = finish t) ∨
       (stop t = false ∧ s.block.step.toNat + 1 ≠ txns.length ∧ s.runXfer txns stop finish = t.advance)) := by
  cases hb : s.ports.pins.busAck with
  | false => left; simp [State.runXfer, hb]
  | true =>
    cases hx : txns[s.block.step.toNat]? with
    | none => left; simp [State.runXfer, hb, hx]
    | some x =>
      cases ht : s.perform x with
      | none => left; simp [State.runXfer, hb, hx, ht]
      | some t =>
        right
        refine ⟨x, t, rfl, rfl, ht, ?_⟩
        have hstep : t.block.step = s.block.step := by rw [(perform_frame ht).2.2]
        by_cases hc : stop t = true ∨ s.block.step.toNat + 1 = txns.length
        · left
          refine ⟨hc, ?_⟩
          rcases hc with hc | hc <;> simp [State.runXfer, hb, hx, ht, hc, hstep]
        · right
          simp only [not_or, Bool.not_eq_true] at hc
          refine ⟨hc.1, hc.2, ?_⟩
          simp [State.runXfer, hb, hx, ht, hc, hstep]

/-- The acknowledged transaction that is not the last. -/
theorem runXfer_advance {txns : List Txn} {stop : State → Bool} {finish : State → State} {x : Txn}
    (hb : s.ports.pins.busAck = true) (hx : txns[s.block.step.toNat]? = some x) (ht : s.perform x = some t)
    (hs : stop t = false) (hl : s.block.step.toNat + 1 ≠ txns.length) : s.runXfer txns stop finish = t.advance := by
  have hstep : t.block.step = s.block.step := by rw [(perform_frame ht).2.2]
  simp [State.runXfer, hb, hx, ht, hs, hl, hstep]

/-- The acknowledged transaction that is the last. -/
theorem runXfer_last {txns : List Txn} {stop : State → Bool} {finish : State → State} {x : Txn}
    (hb : s.ports.pins.busAck = true) (hx : txns[s.block.step.toNat]? = some x) (ht : s.perform x = some t)
    (hl : stop t = true ∨ s.block.step.toNat + 1 = txns.length) : s.runXfer txns stop finish = finish t := by
  have hstep : t.block.step = s.block.step := by rw [(perform_frame ht).2.2]
  rcases hl with hl | hl <;> simp [State.runXfer, hb, hx, ht, hl, hstep]

theorem runCommand_decode {fail : Option Status} {txns : List Txn} {stop : State → Bool} {finish : State → State}
    (h : s.block.fsm = .decode) : s.runCommand fail txns stop finish = .next (s.runDecode fail txns finish) := by
  simp [State.runCommand, h]

theorem runCommand_xfer {fail : Option Status} {txns : List Txn} {stop : State → Bool} {finish : State → State}
    (h : s.block.fsm = .xfer) : s.runCommand fail txns stop finish = .next (s.runXfer txns stop finish) := by
  simp [State.runCommand, h]

/-- A command's transition always answers a next state. -/
theorem runCommand_next (s : State) (fail : Option Status) (txns : List Txn) (stop : State → Bool)
    (finish : State → State) : ∃ t, s.runCommand fail txns stop finish = .next t := by
  unfold State.runCommand
  cases s.block.fsm <;> exact ⟨_, rfl⟩

/-! ### Every command at once -/

/-- The early stop of a command: only RESOLVE_MASK has one (30_encoding.md R87). -/
def stopOf : Instr → State → Bool
  | .resolveMask => stopResolveMask
  | .regRead _ _ | .regWrite _ _ _ | .setTrigger _ _ | .setPending _ | .clearPending _ | .setSecurity _ _ | .enable _
  | .disable _ | .ack | .complete _ | .setType _ _ => fun _ => false

/-- The end of a command after its last transaction (30_encoding.md R81, the result column). -/
def finishOf : Instr → State → State
  | .resolveMask => finishResolveMask
  | .regRead _ _ => fun t => t.endCommand .ok t.block.hold
  | .ack => fun t => t.endCommand .ok ((idOf t.block.hold).setWidth 32)
  | .regWrite _ _ _ | .setTrigger _ _ | .setPending _ | .clearPending _ | .setSecurity _ _ | .enable _
  | .disable _ | .complete _ | .setType _ _ => fun t => t.endCommand .ok 0#32

/-- Every meaning is one transition of the FSM over the validation table and the sequence table. -/
theorem exec_eq_runCommand (i : Instr) (s : State) :
    exec i s = s.runCommand (validate i s) (transactions i s) (stopOf i) (finishOf i) := by
  cases i <;> rfl

/-- Every meaning answers a next state in every state. -/
theorem exec_next (i : Instr) (s : State) : ∃ t, exec i s = .next t := by
  rw [exec_eq_runCommand]
  exact runCommand_next s _ _ _ _

/-- The end of a command changes only the response, the FSM state and the mask registers. -/
theorem finishOf_frame (i : Instr) (t : State) :
    (finishOf i t).params = t.params ∧ (finishOf i t).banks = t.banks ∧ (finishOf i t).ghost = t.ghost ∧
    (finishOf i t).ports = t.ports ∧ (finishOf i t).block.fsm = .resp ∧ (finishOf i t).block.rspValid = true := by
  cases i
  case resolveMask =>
    simp only [finishOf, finishResolveMask]
    split
    · simp
    · split <;> simp
  all_goals simp [finishOf]

/-! ### The environment, the ports and reset -/

/-- Nothing but pending bits of interrupts that exist changes with the environment (10_state.md R36). -/
theorem setPend_frame (b : Banks) (p : Params) (c : IrqId × Bool) :
    b.setPend p c = { b with pend := (b.setPend p c).pend } := by
  unfold Banks.setPend
  split <;> rfl

theorem environment_frame (p : Params) (cs : List (IrqId × Bool)) (b : Banks) :
    b.environment p cs = { b with pend := (b.environment p cs).pend } := by
  induction cs generalizing b with
  | nil => rfl
  | cons c cs ih =>
    have := ih (b.setPend p c)
    simp only [Banks.environment, List.foldl_cons] at this ⊢
    rw [this]
    rw [setPend_frame b p c]

/-- The environment changes the pending bit it names, if the interrupt exists, and no other. -/
theorem pendBit_setPend (b : Banks) (p : Params) (c : IrqId × Bool) (irq : IrqId) :
    pendBit (b.setPend p c) irq = if irq = c.1 ∧ irq.toNat < p.nIrq then c.2 else pendBit b irq := by
  obtain ⟨i, v⟩ := c
  have hi := irq.isLt
  have e : irq = i ↔ irq.toNat = i.toNat := BitVec.toNat_inj.symm
  have hone : ((1#1024) <<< i.toNat).getLsbD irq.toNat = decide (irq.toNat = i.toNat) := by
    by_cases h1 : irq.toNat < i.toNat
    · have : irq.toNat ≠ i.toNat := by omega
      simp [h1, this]
    · have : (irq.toNat - i.toNat = 0) ↔ irq.toNat = i.toNat := by omega
      simp [h1, hi, this]
  by_cases hx : i.toNat < p.nIrq
  · have hx' : irqExists p i = true := by simpa using hx
    by_cases hc : irq = i
    · subst hc
      cases v <;> simp [pendBit, Banks.setPend, hx', hx, BitVec.getLsbD_or, BitVec.getLsbD_and, BitVec.getLsbD_not, hone]
    · have hn : irq.toNat ≠ i.toNat := fun h => hc (e.2 h)
      simp only [hc, false_and, if_false]
      cases v <;>
        simp only [pendBit, Banks.setPend, hx', if_true, if_false, Bool.false_eq_true, BitVec.getLsbD_or,
          BitVec.getLsbD_and, BitVec.getLsbD_not, hone, hn, decide_false, Bool.or_false, Bool.not_false, Bool.and_true,
          decide_eq_true (show irq.toNat < 1024 from hi)]
  · have hx' : irqExists p i = false := by simpa [irqExists] using hx
    have : ¬ (irq = i ∧ irq.toNat < p.nIrq) := by
      rintro ⟨rfl, h⟩; exact hx h
    simp [Banks.setPend, hx', this]

/-- IDLE accepts a command or waits (10_state.md R14). -/
theorem accept_cases (s : State) :
    (s.ports.pins.cmdValid = true ∧ s.accept = { s with
      block := { s.block with cmd := s.ports.pins.cmdWord, data := s.ports.pins.cmdData, fsm := .decode } }) ∨
    (s.ports.pins.cmdValid = false ∧ s.accept = s) := by
  cases h : s.ports.pins.cmdValid <;> simp [State.accept, h]

/-- RESP is released or waits (10_state.md R15). -/
theorem release_cases (s : State) :
    (s.ports.pins.rspReady = true ∧
      s.release = { s with block := { s.block with rspValid := false, fsm := .idle } }) ∨
    (s.ports.pins.rspReady = false ∧ s.release = s) := by
  cases h : s.ports.pins.rspReady <;> simp [State.release, h]

/-- A transaction in flight when reset asserts is performed or not (70_reset_and_hazards.md R136). -/
theorem settleInflight_cases (s : State) (o : Option Txn) :
    s.settleInflight o = s ∨
    ∃ x, s.ports.pins.inflightDone = true ∧ o = some x ∧ s.perform x = some (s.settleInflight o) := by
  cases hd : s.ports.pins.inflightDone with
  | false => left; simp [State.settleInflight, hd]
  | true =>
    cases o with
    | none => left; simp [State.settleInflight, hd]
    | some x =>
      cases ht : s.perform x with
      | none => left; simp [State.settleInflight, hd, ht]
      | some t => right; exact ⟨x, rfl, rfl, by simp [State.settleInflight, hd, ht]⟩

/-! ### The step -/

/-- Everything a step can do: refuse the configuration, reset, or make one transition (10_state.md R37). -/
theorem step_cases (s : State) :
    (paramsOk s.params = false ∧ step s = .refused .badConfiguration) ∨
    (paramsOk s.params = true ∧ s.sample.inReset = true ∧ step s = .next s.sample.takeReset) ∨
    (paramsOk s.params = true ∧ s.sample.inReset = false ∧ step s = transition s.sample) := by
  cases h : paramsOk s.params <;> cases h' : s.sample.inReset <;> simp [step, State.cycle, h, h']

end Sys2Proof.Machine
end

