-- ==== Sys2Proof/Laws/Wf.lean ====
section
/-! SUPPORT. The canonical form of the banks (20_memory.md R48) is kept by every operation on them. -/

namespace Sys2Proof.Machine

theorem ushiftRight_eq_zero_iff {w : Nat} (x : BitVec w) (n : Nat) :
    x >>> n = 0#w ↔ ∀ i, n ≤ i → x.getLsbD i = false := by
  constructor
  · intro h i hi
    have := congrArg (fun b => b.getLsbD (i - n)) h
    simpa [BitVec.getLsbD_ushiftRight, show n + (i - n) = i by omega] using this
  · intro h
    apply BitVec.eq_of_getLsbD_eq
    intro i _
    simp [h (n + i) (by omega)]

/-- The canonical form bit by bit: no bank vector has a bit at or above the end of its last interrupt. -/
theorem banksWf_iff (p : Params) (b : Banks) :
    banksWf p b = true ↔
      (∀ i, p.nIrq ≤ i → b.en.getLsbD i = false) ∧ (∀ i, p.nIrq ≤ i → b.pend.getLsbD i = false) ∧
      (∀ i, p.nIrq ≤ i → b.grp.getLsbD i = false) ∧ (∀ i, 2 * p.nIrq ≤ i → b.cfg.getLsbD i = false) ∧
      (∀ i, 8 * p.nIrq ≤ i → b.tgt.getLsbD i = false) := by
  simp only [banksWf, Bool.and_eq_true, beq_iff_eq, ushiftRight_eq_zero_iff]
  tauto

/-- Writing a word below the end of a vector keeps every bit above it. -/
theorem setWordAt_keeps_zero {n e : Nat} {x : BitVec n} (h : ∀ i, e ≤ i → x.getLsbD i = false) {j : Nat} {v : Word}
    (hj : 32 * j + 32 ≤ e) : ∀ i, e ≤ i → (setWordAt x j v).getLsbD i = false := by
  intro i hi
  rw [getLsbD_setWordAt, if_neg (by omega)]
  exact h i hi

theorem banksWf_zero (p : Params) : banksWf p .zero = true := by
  simp [banksWf, Banks.zero]

/-- A register write keeps the canonical form. -/
theorem banksWf_poke {p : Params} (hp : paramsOk p = true) {b b' : Banks} {bank : Bank} {off : Nat} {r : Reg}
    {v wi : Word} (hr : regAt p bank off = some r) (hb : b.poke r v wi = some b') (h : banksWf p b = true) :
    banksWf p b' = true := by
  have hn := paramsOk_nIrq hp
  have he := ((regAt_eq_some_iff hp bank off r).1 hr).2
  rw [banksWf_iff] at h ⊢
  obtain ⟨h1, h2, h3, h4, h5⟩ := h
  cases r <;> simp only [Banks.poke, Option.some.injEq, reduceCtorEq] at hb <;> subst hb <;>
    simp only [regExists] at he
  case group j => exact ⟨h1, h2, setWordAt_keeps_zero h3 (by omega), h4, h5⟩
  case enableSet j => exact ⟨setWordAt_keeps_zero h1 (by omega), h2, h3, h4, h5⟩
  case enableClear j => exact ⟨setWordAt_keeps_zero h1 (by omega), h2, h3, h4, h5⟩
  case pendingSet j => exact ⟨h1, setWordAt_keeps_zero h2 (by omega), h3, h4, h5⟩
  case pendingClear j => exact ⟨h1, setWordAt_keeps_zero h2 (by omega), h3, h4, h5⟩
  case target j => exact ⟨h1, h2, h3, h4, setWordAt_keeps_zero h5 (by omega)⟩
  case config j => exact ⟨h1, h2, h3, setWordAt_keeps_zero h4 (by omega), h5⟩
  case ctrl => exact ⟨h1, h2, h3, h4, h5⟩
  case eoi => exact ⟨h1, h2, h3, h4, h5⟩

/-- A change of the environment keeps the canonical form. -/
theorem banksWf_setPend {p : Params} {b : Banks} (h : banksWf p b = true) (c : IrqId × Bool) :
    banksWf p (b.setPend p c) = true := by
  by_cases hx : irqExists p c.1 = true
  · rw [banksWf_iff] at h ⊢
    obtain ⟨h1, h2, h3, h4, h5⟩ := h
    rw [setPend_frame]
    refine ⟨h1, ?_, h3, h4, h5⟩
    intro i hi
    have hc : c.1.toNat < i := by have := (irqExists_iff p c.1).1 hx; omega
    have hone : (1#1024 <<< c.1.toNat).getLsbD i = false := by
      have h0 : i - c.1.toNat ≠ 0 := by omega
      by_cases hl : i < 1024
      · simp [hl, h0]
      · exact BitVec.getLsbD_of_ge _ _ (by omega)
    have hz := h2 i hi
    simp only [Banks.setPend, hx, if_true]
    split
    · simp only [BitVec.getLsbD_or, hz, hone, Bool.or_false]
    · simp only [BitVec.getLsbD_and, hz, Bool.false_and]
  · simpa [Banks.setPend, hx] using h

/-- The environment keeps the canonical form. -/
theorem banksWf_environment {p : Params} (cs : List (IrqId × Bool)) {b : Banks} (h : banksWf p b = true) :
    banksWf p (b.environment p cs) = true := by
  induction cs generalizing b with
  | nil => exact h
  | cons c cs ih => exact ih (banksWf_setPend h c)

/-- A transaction keeps the canonical form. -/
theorem banksWf_perform {s t : State} {x : Txn} (hp : paramsOk s.params = true) (ht : s.perform x = some t)
    (h : banksWf s.params s.banks = true) : banksWf t.params t.banks = true := by
  cases x with
  | read bank off =>
    obtain ⟨r, v, -, -, rfl⟩ := (busRead_eq_some_iff s bank off).1 ht
    exact h
  | write bank off v =>
    obtain ⟨r, b, hr, hb, rfl⟩ := (busWrite_eq_some_iff s bank off v).1 ht
    exact banksWf_poke hp hr hb h

theorem banksWf_reset : banksWf State.reset.params State.reset.banks = true := banksWf_zero _

end Sys2Proof.Machine
end

