-- ==== Sys2Proof/Laws/Exec.lean ====
section
/-! SUPPORT. What `exec` answers at each kind of FSM transition, for every command at once: the lemmas a proof about one
command cites instead of unfolding the sequencing. -/

namespace Sys2Proof.Machine

variable {s : State} {i : Instr}

/-- DECODE of a command that fails (30_encoding.md R80). -/
theorem exec_decode_fail {st : Status} (hf : s.block.fsm = .decode) (hv : validate i s = some st) :
    exec i s = .next (answered s st 0#32) := by
  rw [exec_eq_runCommand, runCommand_decode hf, hv]
  rfl

/-- DECODE of a valid command with transactions to do (R80). -/
theorem exec_decode_enter (hf : s.block.fsm = .decode) (hv : validate i s = none) (hs : transactions i s ≠ []) :
    exec i s = .next s.enterXfer := by
  rw [exec_eq_runCommand, runCommand_decode hf, hv]
  rcases runDecode_cases s none (transactions i s) (finishOf i) with ⟨_, h, _⟩ | ⟨_, h, _⟩ | ⟨_, _, h⟩
  · cases h
  · exact absurd h hs
  · rw [h]

/-- DECODE of a valid command with no transaction (R80). -/
theorem exec_decode_empty (hf : s.block.fsm = .decode) (hv : validate i s = none) (hs : transactions i s = []) :
    exec i s = .next (finishOf i s) := by
  rw [exec_eq_runCommand, runCommand_decode hf, hv, hs]
  rfl

/-- XFER without an acknowledge (20_memory.md R59). -/
theorem exec_xfer_wait (hf : s.block.fsm = .xfer) (hb : s.ports.pins.busAck = false) : exec i s = .next s := by
  rw [exec_eq_runCommand, runCommand_xfer hf]
  simp [State.runXfer, hb]

/-- XFER with an acknowledged transaction that is not the last (R85). -/
theorem exec_xfer_advance {n : BitVec 3} {x : Txn} {t : State} (ha : ackedAt s n)
    (hx : (transactions i s)[n.toNat]? = some x) (ht : s.perform x = some t) (hs : stopOf i t = false)
    (hl : n.toNat + 1 ≠ (transactions i s).length) : exec i s = .next t.advance := by
  obtain ⟨hf, rfl, hb⟩ := ha
  rw [exec_eq_runCommand, runCommand_xfer hf, runXfer_advance hb hx ht hs hl]

/-- XFER with the acknowledged last transaction (R85). -/
theorem exec_xfer_last {n : BitVec 3} {x : Txn} {t : State} (ha : ackedAt s n)
    (hx : (transactions i s)[n.toNat]? = some x) (ht : s.perform x = some t)
    (hl : stopOf i t = true ∨ n.toNat + 1 = (transactions i s).length) : exec i s = .next (finishOf i t) := by
  obtain ⟨hf, rfl, hb⟩ := ha
  rw [exec_eq_runCommand, runCommand_xfer hf, runXfer_last hb hx ht hl]

/-- A read of a register other than ACK, performed. -/
theorem perform_read {bank : Bank} {off : Nat} {r : Reg} {v : Word} (hr : regAt s.params bank off = some r)
    (hv : s.peek r = some v) (hn : r ≠ .ack) :
    s.perform (.read bank off) = some (traced { s with block := { s.block with hold := v } } .read bank off v) := by
  rw [State.perform, busRead_of hr hv, Ghost.afterRead_of_ne hn]
  rfl

/-- A write of a register other than EOI, performed. -/
theorem perform_write {bank : Bank} {off : Nat} {v : Word} {r : Reg} {b : Banks}
    (hr : regAt s.params bank off = some r) (hb : s.banks.poke r v (writeIgnoreAt s.params bank off) = some b)
    (hn : r ≠ .eoi) :
    s.perform (.write bank off v) = some (traced { s with banks := b } .write bank off v) := by
  rw [State.perform, busWrite_of hr hb, Ghost.afterWrite_of_ne hn]
  rfl

/-- A read of ACK, performed: the ID is claimed (10_state.md R34). -/
theorem perform_read_ack :
    s.perform (.read .cpu ackOff) = some { s with
      block := { s.block with hold := s.ports.pins.ackData }
      ghost := (s.ghost.record ⟨.read, .cpu, ackOff, s.ports.pins.ackData⟩).claim s.params s.ports.pins.ackData } := rfl

/-- A write of EOI, performed: service ends, or the hazard is marked (10_state.md R34, R35). -/
theorem perform_write_eoi (v : Word) :
    s.perform (.write .cpu eoiOff v) = some { s with
      ghost := (s.ghost.record ⟨.write, .cpu, eoiOff, v⟩).endService v } := rfl

/-! ### The effect of a step outside the block's registers -/

/-- A transition of a command leaves the banks and the ghost state alone, or performs the transaction numbered `step`. -/
theorem exec_effect {t : State} (h : exec i s = .next t) :
    t.params = s.params ∧ t.ports = s.ports ∧
    ((t.banks = s.banks ∧ t.ghost = s.ghost) ∨
      ∃ x u, s.block.fsm = .xfer ∧ (transactions i s)[s.block.step.toNat]? = some x ∧ s.perform x = some u ∧
        t.banks = u.banks ∧ t.ghost = u.ghost) := by
  rw [exec_eq_runCommand] at h
  cases hf : s.block.fsm <;> simp only [State.runCommand, hf, Host.Outcome.next.injEq] at h <;> subst h
  case decode =>
    rcases runDecode_cases s (validate i s) (transactions i s) (finishOf i) with ⟨_, _, h⟩ | ⟨_, _, h⟩ | ⟨_, _, h⟩ <;>
      rw [h]
    · exact ⟨rfl, rfl, .inl ⟨rfl, rfl⟩⟩
    · have := finishOf_frame i s
      exact ⟨this.1, this.2.2.2.1, .inl ⟨this.2.1, this.2.2.1⟩⟩
    · exact ⟨rfl, rfl, .inl ⟨rfl, rfl⟩⟩
  case xfer =>
    rcases runXfer_cases s (transactions i s) (stopOf i) (finishOf i) with h | ⟨x, u, _, hx, hu, ⟨_, h⟩ | ⟨_, _, h⟩⟩ <;>
      rw [h]
    · exact ⟨rfl, rfl, .inl ⟨rfl, rfl⟩⟩
    · have hfr := perform_frame hu
      have := finishOf_frame i u
      exact ⟨this.1.trans hfr.1, this.2.2.2.1.trans hfr.2.1, .inr ⟨x, u, rfl, hx, hu, this.2.1, this.2.2.1⟩⟩
    · have hfr := perform_frame hu
      exact ⟨hfr.1, hfr.2.1, .inr ⟨x, u, rfl, hx, hu, rfl, rfl⟩⟩
  case idle => exact ⟨rfl, rfl, .inl ⟨rfl, rfl⟩⟩
  case resp => exact ⟨rfl, rfl, .inl ⟨rfl, rfl⟩⟩

/-- What a step does to the banks and the ghost state: the environment's changes, and at most the one transaction that
was presented (10_state.md R36, R37). -/
theorem step_effect {t : State} (h : step s = .next t) :
    t.params = s.params ∧ t.ports = s.sample.ports ∧
    ((t.banks = s.sample.banks ∧ t.ghost = s.ghost) ∨
      ∃ i x u, s.block.fsm = .xfer ∧ s.fetch = .ok i ∧ (transactions i s.sample)[s.block.step.toNat]? = some x ∧
        s.sample.perform x = some u ∧ t.banks = u.banks ∧ t.ghost = u.ghost) := by
  rcases step_cases s with ⟨_, hs⟩ | ⟨_, _, hs⟩ | ⟨_, _, hs⟩ <;> rw [hs] at h
  · cases h
  · injection h with h
    subst h
    simp only [State.takeReset, State.resetBlock_params, State.resetBlock_ports, State.resetBlock_banks,
      State.resetBlock_ghost]
    rcases settleInflight_cases s.sample s.sample.presented with h | ⟨x, _, hx, hu⟩
    · rw [h]
      exact ⟨rfl, rfl, .inl ⟨rfl, rfl⟩⟩
    · have hfr := perform_frame hu
      refine ⟨hfr.1, hfr.2.1, .inr ?_⟩
      unfold State.presented at hx
      split at hx
      · rename_i i hf hd
        exact ⟨i, x, _, hf, hd, hx, hu, rfl, rfl⟩
      · cases hx
  · unfold transition at h
    cases hf : s.block.fsm <;> simp only [State.sample_block, hf] at h
    case idle =>
      injection h with h
      subst h
      rcases accept_cases s.sample with ⟨_, h⟩ | ⟨_, h⟩ <;> rw [h] <;> exact ⟨rfl, rfl, .inl ⟨rfl, rfl⟩⟩
    case resp =>
      injection h with h
      subst h
      rcases release_cases s.sample with ⟨_, h⟩ | ⟨_, h⟩ <;> rw [h] <;> exact ⟨rfl, rfl, .inl ⟨rfl, rfl⟩⟩
    all_goals
      cases hd : s.sample.fetch with
      | error e =>
        rw [hd] at h
        injection h with h
        subst h
        exact ⟨rfl, rfl, .inl ⟨rfl, rfl⟩⟩
      | ok i =>
        rw [hd] at h
        obtain ⟨h1, h2, h3 | ⟨x, u, hx1, hx2, hx3, hx4, hx5⟩⟩ := exec_effect h
        · exact ⟨h1, h2, .inl h3⟩
        · exact ⟨h1, h2, .inr ⟨i, x, u, hx1.symm.trans hf ▸ rfl, hd, hx2, hx3, hx4, hx5⟩⟩

/-! ### Runs of one command -/

theorem runExec_succ {k : Nat} {t : State} (h : exec i s = .next t) : runExec i (k + 1) s = runExec i k t := by
  simp [runExec, h]

theorem runExec_one {t : State} (h : exec i s = .next t) : runExec i 1 s = .next t := by
  rw [runExec_succ h]
  rfl

/-- Runs compose. -/
theorem runExec_add {j k : Nat} {t : State} (h : runExec i j s = .next t) :
    runExec i (j + k) s = runExec i k t := by
  induction j generalizing s with
  | zero =>
    simp only [runExec, Host.Outcome.next.injEq] at h
    subst h
    rw [Nat.zero_add]
  | succ j ih =>
    obtain ⟨u, hu⟩ := exec_next i s
    rw [runExec_succ hu] at h
    rw [Nat.add_right_comm, runExec_succ hu]
    exact ih h

end Sys2Proof.Machine
end

