-- ==== Sys2Proof/Laws/PerInstr.lean ====
section
/-! SUPPORT. The family TableRow: an encoded command word lies in its row of spec/opcode_table.json. -/

namespace Sys2Proof.Laws.TableRow

/-- "mask" of the instruction's row of the opcode table. -/
def rowMask : Instr → Word
  | .regRead _ _ => 0xF7FFF003#32
  | .regWrite _ _ _ => 0xF7FFF003#32
  | .resolveMask => 0xFFFFFFFF#32
  | .setTrigger _ _ => 0xFFFFEC00#32
  | .setPending _ => 0xFFFFFC00#32
  | .clearPending _ => 0xFFFFFC00#32
  | .setSecurity _ _ => 0xFFFFEC00#32
  | .enable _ => 0xFFFFFC00#32
  | .disable _ => 0xFFFFFC00#32
  | .ack => 0xFFFFFFFF#32
  | .complete _ => 0xFFFFFC00#32
  | .setType _ _ => 0xFFFF0C00#32

/-- "match" of the instruction's row of the opcode table. -/
def rowMatch : Instr → Word
  | .regRead _ _ => 0x10000000#32
  | .regWrite _ _ _ => 0x20000000#32
  | .resolveMask => 0x30000000#32
  | .setTrigger _ _ => 0x40000000#32
  | .setPending _ => 0x50000000#32
  | .clearPending _ => 0x60000000#32
  | .setSecurity _ _ => 0x70000000#32
  | .enable _ => 0x80000000#32
  | .disable _ => 0x90000000#32
  | .ack => 0xA0000000#32
  | .complete _ => 0xB0000000#32
  | .setType _ _ => 0xC0000000#32

/-- The command word of a well-formed instruction, under its row's mask, is its row's match. -/
def Statement (i : Instr) : Prop := i.wf = true → encodeCmd i &&& rowMask i = rowMatch i

/-- A format I word whose ARG is fixed has its row's fixed bits, whatever the interrupt. -/
theorem encodeI_masked (op arg : BitVec 4) (irq : IrqId) :
    encodeI op arg irq &&& 0xFFFFFC00#32 = encodeI op arg 0#10 := by
  have hm : ∀ k, k < 32 → (0xFFFFFC00#32).getLsbD k = decide (10 ≤ k) := by decide
  apply BitVec.eq_of_getLsbD_eq
  intro k hk
  simp only [BitVec.getLsbD_and, getLsbD_encodeI, hm k hk, BitVec.getLsbD_zero]
  split_ifs <;> simp <;> omega

/-- A format I word whose ARG is 0 or 1 has the fixed bits of a row that leaves bit 12 open. -/
theorem encodeI_masked_arg0 (op arg : BitVec 4) (irq : IrqId) (h : arg = 0#4 ∨ arg = 1#4) :
    encodeI op arg irq &&& 0xFFFFEC00#32 = encodeI op 0#4 0#10 := by
  have hm : ∀ k, k < 32 → (0xFFFFEC00#32).getLsbD k = (decide (10 ≤ k) && !decide (k = 12)) := by decide
  have ha : ∀ k, k ≠ 0 → arg.getLsbD k = false := by
    intro k hk
    rcases h with rfl | rfl
    · simp
    · simp [BitVec.getLsbD_one, hk]
  apply BitVec.eq_of_getLsbD_eq
  intro k hk
  simp only [BitVec.getLsbD_and, getLsbD_encodeI, hm k hk, BitVec.getLsbD_zero]
  by_cases h12 : k = 12
  · subst h12; simp
  · split_ifs <;> first | (rw [ha _ (by omega)]; simp) | (simp [h12]; omega) | simp [h12]

/-- A format I word has the fixed bits of a row that leaves ARG open. -/
theorem encodeI_masked_arg (op arg : BitVec 4) (irq : IrqId) :
    encodeI op arg irq &&& 0xFFFF0C00#32 = encodeI op 0#4 0#10 := by
  have hm : ∀ k, k < 32 → (0xFFFF0C00#32).getLsbD k = (decide (10 ≤ k) && (decide (k < 12) || decide (16 ≤ k))) := by
    decide
  apply BitVec.eq_of_getLsbD_eq
  intro k hk
  simp only [BitVec.getLsbD_and, getLsbD_encodeI, hm k hk, BitVec.getLsbD_zero]
  split_ifs <;> simp <;> omega

/-- A format R word with an aligned offset has its row's fixed bits, whatever the bank and the offset. -/
theorem encodeR_masked (op : BitVec 4) (bank : Bank) (off : BitVec 12) (h : alignedOff off = true) :
    encodeR op bank off &&& 0xF7FFF003#32 = encodeR op .dist 0#12 := by
  have hm : ∀ k, k < 32 → (0xF7FFF003#32).getLsbD k = (decide (k < 2) || (decide (12 ≤ k) && !decide (k = 27))) := by
    decide
  obtain ⟨h0, h1⟩ := (alignedOff_iff off).1 h
  apply BitVec.eq_of_getLsbD_eq
  intro k hk
  simp only [BitVec.getLsbD_and, getLsbD_encodeR, hm k hk, BitVec.getLsbD_zero]
  by_cases hlow : k < 2
  · have : k = 0 ∨ k = 1 := by omega
    rcases this with rfl | rfl
    · simpa using h0
    · simpa using h1
  · by_cases h27 : k = 27
    · subst h27; simp [Bank.code]
    · split_ifs <;> simp [hlow, h27] <;> omega

theorem regRead (bank : Bank) (off : BitVec 12) : Statement (.regRead bank off) := fun h =>
  encodeR_masked 0x1#4 bank off h

theorem regWrite (bank : Bank) (off : BitVec 12) (data : Word) : Statement (.regWrite bank off data) := fun h =>
  encodeR_masked 0x2#4 bank off h

theorem resolveMask : Statement .resolveMask := fun _ => by decide

theorem setTrigger (kind : TrigKind) (irq : IrqId) : Statement (.setTrigger kind irq) := fun _ =>
  encodeI_masked_arg0 0x4#4 kind.code irq (by cases kind <;> simp [TrigKind.code])

theorem setPending (irq : IrqId) : Statement (.setPending irq) := fun _ => encodeI_masked 0x5#4 0#4 irq

theorem clearPending (irq : IrqId) : Statement (.clearPending irq) := fun _ => encodeI_masked 0x6#4 0#4 irq

theorem setSecurity (sec : Security) (irq : IrqId) : Statement (.setSecurity sec irq) := fun _ =>
  encodeI_masked_arg0 0x7#4 sec.code irq (by cases sec <;> simp [Security.code])

theorem enable (irq : IrqId) : Statement (.enable irq) := fun _ => encodeI_masked 0x8#4 0#4 irq

theorem disable (irq : IrqId) : Statement (.disable irq) := fun _ => encodeI_masked 0x9#4 0#4 irq

theorem ack : Statement .ack := fun _ => by decide

theorem complete (irq : IrqId) : Statement (.complete irq) := fun _ => encodeI_masked 0xB#4 0#4 irq

theorem setType (arg : BitVec 4) (irq : IrqId) : Statement (.setType arg irq) := fun _ =>
  encodeI_masked_arg 0xC#4 arg irq

end Sys2Proof.Laws.TableRow
end

