-- ==== Sys2Proof/Tests/Slice0.lean ====
section
/-! SUPPORT. Our own tests: the smoke of the well-formedness check, decoded words, one step of every command with the
values of 95_test_vectors.md, and for each statement with hypotheses a state and operands that meet them. -/

namespace Sys2Proof.Tests

open Sys2Proof.Machine

set_option Elab.async false

/-! ### Well-formedness (30_encoding.md R70, R74(e)) -/

theorem test_wf_refuses_misaligned_read : (Instr.regRead .dist 0x102#12).wf = false := by decide
theorem test_wf_refuses_misaligned_write : (Instr.regWrite .cpu 0x011#12 0#32).wf = false := by decide
theorem test_wf_accepts_last_word : (Instr.regRead .dist 0xFFC#12).wf = true := by decide

/-! ### Decoding: words written bit by bit from 30_encoding.md R68 to R73 and the tables of 95_test_vectors.md -/

/-- The instruction a command word decodes to, with a zero data word. -/
def read (cmd : Word) : Option Instr := decodeTableWord 32 cmd.toNat

/-- The reason a command word does not decode. -/
def refuses (cmd : Word) (e : DecodeError) : Bool :=
  match decode cmd 0#32 with
  | .ok _ => false
  | .error e' => e == e'

theorem test_word_reg_read : read 0b0001_1_000000000000000_000000001100#32 = some (.regRead .cpu 0x00C#12) := by decide
theorem test_word_reg_write : decodeTableWord 64 0x01010101_20000800 = some (.regWrite .dist 0x800#12 0x01010101#32) := by
  decide
theorem test_word_resolve_mask : read 0b0011_0000000000000000000000000000#32 = some .resolveMask := by decide
theorem test_word_set_trigger : read 0b0100_000000000000_0001_00_0000001111#32 = some (.setTrigger .edge 15#10) := by decide
theorem test_word_set_trigger_level : read 0x40000000#32 = some (.setTrigger .level 0#10) := by decide
theorem test_word_set_pending : read 0b0101_000000000000_0000_00_1111111111#32 = some (.setPending 1023#10) := by decide
theorem test_word_clear_pending : read 0x60000028#32 = some (.clearPending 40#10) := by decide
theorem test_word_set_security : read 0x70001028#32 = some (.setSecurity .nonSecure 40#10) := by decide
theorem test_word_set_security_secure : read 0x70000028#32 = some (.setSecurity .secure 40#10) := by decide
theorem test_word_enable : read 0b1000_000000000000_0000_00_0000100010#32 = some (.enable 34#10) := by decide
theorem test_word_disable : read 0x9000003F#32 = some (.disable 63#10) := by decide
theorem test_word_ack : read 0xA0000000#32 = some .ack := by decide
theorem test_word_complete : read 0xB00003FF#32 = some (.complete 1023#10) := by decide
theorem test_word_set_type : read 0b1100_000000000000_1111_00_0000100010#32 = some (.setType 15#4 34#10) := by decide

/-- V60, R74(a). -/
theorem test_reserved_opcodes : [0x00000000#32, 0xD0000000#32, 0xE0000000#32, 0xF0000000#32].all (refuses · .reservedOpcode) = true := by
  decide
/-- V40.9, V41.9, V42.10, V45.8, V46.8, R74(b). -/
theorem test_reserved_fields : [0x10001104#32, 0x30000001#32, 0x40001422#32, 0xA0000001#32, 0xC0011022#32,
    0x50000800#32].all (refuses · .reservedField) = true := by
  decide
/-- V42.9, V43.5, V43.8, V44.9, V45.9, R74(c), (d). -/
theorem test_arg_outside_its_set : [0x40002022#32, 0x50001005#32, 0x60001000#32, 0x70002003#32, 0x80001022#32,
    0x90008000#32, 0xB0001022#32].all (refuses · .argOutsideSet) = true := by
  decide
/-- V40.3, R74(e). -/
theorem test_misaligned_offset : refuses 0x10000102#32 .misalignedOffset = true := by decide +kernel

/-! ### One step of every command -/

/-- Levels with the bus acknowledging and the given acknowledge word. -/
def acking (v : Word) : Pins := { Pins.quiet with busAck := true, ackData := v }

/-- A state in FSM state `f` at transaction `n` of the command in `cmd` and `data`, the next step's levels being `p`. -/
def at_ (f : Fsm) (n : BitVec 3) (cmd data : Word) (p : Pins) : State :=
  { State.launch .reference .zero [p] with
    block := { Block.reset with fsm := f, step := n, cmd := cmd, data := data }
    ports := { pins := p, script := [p], cycle := 0 } }

/-- A field of the state after one step. -/
def got {α : Type} (s : State) (f : State → α) : Option α :=
  match step s with
  | .next t => some (f t)
  | .fault _ => none
  | .refused _ => none

/-- The response of a state: the FSM code, the status code and the data. -/
def response (t : State) : BitVec 2 × BitVec 3 × Word := (t.block.fsm.code, t.block.rspStatus.code, t.block.rspData)

/-- The same state with the word the read half of the command captured. -/
def withHold (h : Word) (s : State) : State := { s with block := { s.block with hold := h } }

/-- The same state with the mask resolved to `m`. -/
def resolved (m : CpuMask) (s : State) : State :=
  { s with block := { s.block with maskCache := m, maskValid := true } }

/-- The same state with some IDs outstanding. -/
def serving (ids : List IrqId) (s : State) : State := { s with ghost := { s.ghost with outstanding := ids } }

/-- The same state in the aliased configuration with `EN` word 1 as given. -/
def aliasedEn (w : Word) (s : State) : State :=
  { s with params := { s.params with groupBase := .aliased }, banks := { s.banks with en := setWordAt 0#1024 1 w } }

/-- V40.16. -/
theorem test_reg_read_ack : got (at_ .xfer 0#3 0x1800000C#32 0#32 (acking 0xFFFFFC22#32))
    (fun t => (response t, t.ghost.outstanding)) = some ((3#2, 0#3, 0xFFFFFC22#32), [34#10]) := by decide +kernel
/-- V40.4: `N_IRQ = 64`, so ENABLE_SET has two words. -/
theorem test_reg_read_unmapped : got (at_ .decode 0#3 0x10000108#32 0#32 .quiet) (fun t => (response t, t.ghost.trace)) =
    some ((3#2, 3#3, 0#32), []) := by decide +kernel
/-- V40.14. -/
theorem test_reg_write_target : got (at_ .xfer 0#3 0x20000800#32 0x01010101#32 (acking 0#32))
    (fun t => ((List.range 5).map fun k => tgtByte t.banks (BitVec.ofNat 10 k))) =
    some [0x01#8, 0x01#8, 0x01#8, 0x01#8, 0x00#8] := by decide +kernel
/-- V40.18: no range check and no match, so the hazard is marked. -/
theorem test_reg_write_eoi : got (at_ .xfer 0#3 0x28000010#32 0x3FF#32 (acking 0#32))
    (fun t => (response t, t.ghost.hazardFault)) = some ((3#2, 0#3, 0#32), true) := by decide +kernel
/-- V41.10. -/
theorem test_resolve_mask_first_word :
    got { at_ .xfer 0#3 0x30000000#32 0#32 (acking 0#32) with banks := { Banks.zero with tgt := 0xAABBCCDD#8192 } }
      (fun t => (response t, t.block.maskCache, t.block.maskValid)) = some ((3#2, 0#3, 0xFF#32), 0xFF#8, true) := by decide +kernel
/-- V41.6, its last read. -/
theorem test_resolve_mask_default : got (at_ .xfer 7#3 0x30000000#32 0#32 (acking 0#32))
    (fun t => (response t, t.ghost.trace, t.block.maskDefaulted)) =
    some ((3#2, 0#3, 0x101#32), [⟨.read, .dist, 0x81C, 0#32⟩], true) := by decide +kernel
/-- V42.2, its write. -/
theorem test_set_trigger_level : got (withHold 0xFFFFFFFF#32 (at_ .xfer 1#3 0x40000022#32 0#32 (acking 0#32)))
    (fun t => t.ghost.trace) = some [⟨.write, .dist, 0xC08, 0xFFFFFFDF#32⟩] := by decide +kernel
/-- V42.4, its write: the top bit of CONFIG word 0. -/
theorem test_set_trigger_edge : got (at_ .xfer 1#3 0x4000100F#32 0#32 (acking 0#32))
    (fun t => (t.ghost.trace, cfgField t.banks 15#10, edgeBit t.banks 14#10)) =
    some ([⟨.write, .dist, 0xC00, 0x80000000#32⟩], 2#2, false) := by decide +kernel
/-- V43.2. -/
theorem test_set_pending : got (at_ .xfer 0#3 0x5000003F#32 0#32 (acking 0#32))
    (fun t => (t.ghost.trace, pendBit t.banks 63#10, pendBit t.banks 62#10)) =
    some ([⟨.write, .dist, 0x204, 0x80000000#32⟩], true, false) := by decide +kernel
/-- V43.3. -/
theorem test_clear_pending :
    got { at_ .xfer 0#3 0x60000028#32 0#32 (acking 0#32) with banks := { Banks.zero with pend := setWordAt 0 1 0x300#32 } }
      (fun t => (t.ghost.trace, wordAt t.banks.pend 1)) = some ([⟨.write, .dist, 0x284, 0x100#32⟩], 0x200#32) := by decide +kernel
/-- V43.7, its write. -/
theorem test_set_security_secure : got (withHold 0xFFFFFFFF#32 (at_ .xfer 1#3 0x70000028#32 0#32 (acking 0#32)))
    (fun t => (t.ghost.trace, grpBit t.banks 40#10)) = some ([⟨.write, .dist, 0x084, 0xFFFFFEFF#32⟩], false) := by decide +kernel
/-- V43.9, its write: with the reference aliasing SET_SECURITY enables. -/
theorem test_set_security_aliased :
    got (aliasedEn 0x4#32 (withHold 0x4#32 (at_ .xfer 1#3 0x70001028#32 0#32 (acking 0#32))))
      (fun t => (t.ghost.trace, wordAt t.banks.en 1)) = some ([⟨.write, .dist, 0x104, 0x104#32⟩], 0x104#32) := by decide +kernel
/-- S3, its last write. -/
theorem test_enable_lane : got (withHold 0x11223344#32 (resolved 0x01#8 (at_ .xfer 4#3 0x80000022#32 0#32 (acking 0#32))))
    (fun t => (response t, t.ghost.trace)) =
    some ((3#2, 0#3, 0#32), [⟨.write, .dist, 0x820, 0x11013344#32⟩]) := by decide +kernel
/-- V44.1. -/
theorem test_enable_unresolved : got (at_ .decode 0#3 0x80000022#32 0#32 .quiet) (fun t => (response t, t.ghost.trace)) =
    some ((3#2, 4#3, 0#32), []) := by decide +kernel
/-- V44.7. -/
theorem test_disable : got (at_ .xfer 0#3 0x9000003F#32 0#32 (acking 0#32)) (fun t => (response t, t.ghost.trace)) =
    some ((3#2, 0#3, 0#32), [⟨.write, .dist, 0x184, 0x80000000#32⟩]) := by decide +kernel
/-- V44.8. -/
theorem test_disable_out_of_range : got (at_ .decode 0#3 0x90000040#32 0#32 .quiet) response =
    some (3#2, 1#3, 0#32) := by decide +kernel
/-- S7, its first row. -/
theorem test_ack : got (at_ .xfer 0#3 0xA0000000#32 0#32 (acking 0x00001C05#32))
    (fun t => (response t, t.ghost.outstanding)) = some ((3#2, 0#3, 0x5#32), [5#10]) := by decide +kernel
/-- V45.6: an ID that does not exist is answered and not recorded. -/
theorem test_ack_outside : got (at_ .xfer 0#3 0xA0000000#32 0#32 (acking 0x3FF#32))
    (fun t => (response t, t.ghost.outstanding)) = some ((3#2, 0#3, 0x3FF#32), []) := by decide +kernel
/-- V45.4, its first completion. -/
theorem test_complete : got (serving [5#10, 40#10] (at_ .xfer 0#3 0xB0000028#32 0#32 (acking 0#32)))
    (fun t => (t.ghost.trace, t.ghost.outstanding, t.ghost.hazardFault)) =
    some ([⟨.write, .cpu, 0x010, 0x28#32⟩], [5#10], false) := by decide +kernel
/-- V45.5, its first completion. -/
theorem test_complete_out_of_order : got (serving [5#10, 40#10] (at_ .xfer 0#3 0xB0000005#32 0#32 (acking 0#32)))
    (fun t => (t.ghost.outstanding, t.ghost.hazardFault)) = some ([5#10, 40#10], true) := by decide +kernel
/-- V46.3, its write. -/
theorem test_set_type_high : got (withHold 0xFFFFFFFF#32 (at_ .xfer 1#3 0xC0004022#32 0#32 (acking 0#32)))
    (fun t => t.ghost.trace) = some [⟨.write, .dist, 0xC08, 0xFFFFFFDF#32⟩] := by decide +kernel
/-- V46.6: the type is checked before the range. -/
theorem test_set_type_unsupported : got (at_ .decode 0#3 0xC0003040#32 0#32 .quiet) response =
    some (3#2, 2#3, 0#32) := by decide +kernel
/-- V60: an opcode outside the map ends with IllegalCommand. -/
theorem test_illegal_opcode : got (at_ .decode 0#3 0xD0000000#32 0#32 .quiet) response = some (3#2, 3#3, 0#32) := by decide +kernel
/-- V43.11: the environment's change is seen by the read that follows it. -/
theorem test_environment : got (at_ .xfer 0#3 0x10000200#32 0#32 { acking 0#32 with pendChanges := [(7#10, true), (0#10, true)] })
    response = some (3#2, 0#3, 0x81#32) := by decide +kernel
/-- V70.1. -/
theorem test_reset : got (resolved 0x03#8 (at_ .resp 0#3 0#32 0#32 { Pins.quiet with rstN := false }))
    (fun t => (t.block.fsm, t.block.maskValid, t.block.maskCache)) = some (.idle, false, 0x01#8) := by decide +kernel
/-- V0: the index arithmetic of interrupt 1023. -/
theorem test_offsets : (enSetOff 1023#10, b32 1023#10, cfgOff 1023#10, cb 1023#10, tgtOff 1023#10, sh 1023#10) =
    (0x17C, 31, 0xCFC, 31, 0xBFC, 24) := by decide +kernel
/-- The fold values of V41. -/
theorem test_fold : (fold 0x00000100#32, fold 0x12345678#32, fold 0x80000000#32, fold 0x00FF0000#32) =
    (0x01#8, 0x7E#8, 0x80#8, 0xFF#8) := by decide +kernel
/-- An instruction placed by `withFetchWord` runs in the next step from reset. -/
theorem test_fetch_word : got (State.reset.withFetchWord 32 0xC0003022) response = some (3#2, 2#3, 0#32) := by decide +kernel

/-! ### Witnesses: for each statement with hypotheses, states and operands that meet them, at the ends of their ranges -/

/-- The largest configuration, with the reference aliasing and a write-ignored word. -/
def large : Params where
  nIrq := 1024
  distBase := 0xFFFFF000#32
  cpuBase := 0x00000000#32
  groupBase := .aliased
  writeIgnore := [⟨.dist, 0x104, 0x1#32⟩]

/-- A state in the configuration `p`. -/
def inConfig (p : Params) (s : State) : State := { s with params := p }

/-- A transfer of the command in `cmd` at transaction `n` with the bus acknowledging. -/
def xfer (n : BitVec 3) (cmd : Word) : State := at_ .xfer n cmd 0#32 (acking 0#32)

/-- A command about to run in DECODE, with the bus acknowledging. -/
def starting (cmd : Word) : State := at_ .decode 0#3 cmd 0#32 (acking 0#32)

theorem witness_DecodeOfEncodeIsTheInstruction :
    (Instr.regWrite .cpu 0xFFC#12 0xFFFFFFFF#32).wf = true ∧ (Instr.setType 15#4 1023#10).wf = true := by decide
theorem witness_EncodeOfDecodeIsTheWord : decode 0x20000FFC#32 5#32 = .ok (.regWrite .dist 0xFFC#12 5#32) ∧
    decode 0xC000F3FF#32 5#32 = .ok (.setType 15#4 1023#10) := ⟨rfl, rfl⟩
theorem witness_OnlyRegWriteUsesTheDataWord : decode 0xA0000000#32 5#32 = .ok .ack ∧
    (∀ bank off d, Instr.ack ≠ .regWrite bank off d) ∧
    decode 0x20000000#32 5#32 = .ok (.regWrite .dist 0#12 5#32) ∧ decode 0xA0000001#32 5#32 = .error .reservedField :=
  ⟨rfl, by simp, rfl, rfl⟩
/-- One word for each condition of R74, and with the large configuration for the mapped registers. -/
theorem witness_IllegalWordsEndWithIllegalCommand :
    (starting 0#32).block.fsm = .decode ∧
    illegalEncoding .reference 0x00000000#32 ∧ illegalEncoding .reference 0xF0000000#32 ∧
    illegalEncoding .reference 0xA8000000#32 ∧ illegalEncoding .reference 0x50000400#32 ∧
    illegalEncoding .reference 0x50010000#32 ∧ illegalEncoding .reference 0x10001104#32 ∧
    illegalEncoding .reference 0x8000F000#32 ∧ illegalEncoding .reference 0x40002000#32 ∧
    illegalEncoding .reference 0x10000103#32 ∧ illegalEncoding .reference 0x10000108#32 ∧
    illegalEncoding .reference 0x18000010#32 ∧ illegalEncoding .reference 0x2800000C#32 ∧
    illegalEncoding large 0x10000080#32 := by
  refine ⟨rfl, ?_, ?_, ?_, ?_, ?_, ?_, ?_, ?_, ?_, ?_, ?_, ?_, ?_⟩ <;> dsimp only [illegalEncoding] <;> decide +kernel
theorem witness_EveryOtherWordIsACommand :
    ¬ illegalEncoding .reference 0x10000084#32 ∧ ¬ illegalEncoding large 0x20000CFC#32 ∧
    ¬ illegalEncoding .reference 0x1800000C#32 ∧ ¬ illegalEncoding .reference 0xC000F3FF#32 ∧
    ¬ illegalEncoding .reference 0x400013FF#32 ∧ ¬ illegalEncoding .reference 0xA0000000#32 := by
  refine ⟨?_, ?_, ?_, ?_, ?_, ?_⟩ <;> dsimp only [illegalEncoding] <;> decide +kernel
theorem witness_StepRunsTheDecodedCommand :
    (runsNext (starting 0x80000022#32) ∧ (starting 0x80000022#32).block.fsm = .decode ∧
      (starting 0x80000022#32).fetch = .ok (.enable 34#10)) ∧
    (runsNext (xfer 4#3 0x80000022#32) ∧ (xfer 4#3 0x80000022#32).block.fsm = .xfer ∧
      (xfer 4#3 0x80000022#32).fetch = .ok (.enable 34#10)) :=
  ⟨⟨⟨by decide, rfl, rfl⟩, rfl, rfl⟩, ⟨by decide, rfl, rfl⟩, rfl, rfl⟩
theorem witness_PlacedWordRunsNext : paramsOk State.reset.params = true ∧
    decodeTableWord 64 0xFFFFFFFF_20000CFC = some (.regWrite .dist 0xCFC#12 0xFFFFFFFF#32) := by decide
theorem witness_CommandsAreAcceptedInIdleOnly :
    runsNext (at_ .idle 0#3 0#32 0#32 { Pins.quiet with cmdValid := true }) ∧ runsNext (at_ .idle 0#3 0#32 0#32 .quiet) ∧
    runsNext (at_ .resp 0#3 0#32 0#32 { Pins.quiet with cmdValid := true }) :=
  ⟨⟨by decide, rfl, rfl⟩, ⟨by decide, rfl, rfl⟩, ⟨by decide, rfl, rfl⟩⟩
theorem witness_ResponsesAreHeldUntilTaken :
    runsNext (at_ .resp 0#3 0#32 0#32 { Pins.quiet with rspReady := true }) ∧ runsNext (at_ .resp 0#3 0#32 0#32 .quiet) ∧
    (∃ t, step (xfer 0#3 0x80000022#32) = .next t ∧ t.block.fsm = .xfer) ∧
    (∃ t, step (at_ .resp 0#3 0#32 0#32 .quiet) = .next t) :=
  ⟨⟨by decide, rfl, rfl⟩, ⟨by decide, rfl, rfl⟩, ⟨_, rfl, rfl⟩, ⟨_, rfl⟩⟩
theorem witness_ResetGivesTheBlockItsResetValues :
    (at_ .resp 7#3 0#32 0#32 { Pins.quiet with rstN := false }).ports.nextPins.rstN = false ∧
    paramsOk (at_ .resp 7#3 0#32 0#32 { Pins.quiet with rstN := false }).params = true ∧
    ({ (starting 0#32) with block := { Block.reset with rstHeld := true } } : State).block.rstHeld = true ∧
    (at_ .resp 7#3 0#32 0#32 { Pins.quiet with rstN := false }).block.fsm ≠ .xfer := by decide
/-- V70.3 with DISABLE: its write in flight when reset asserts, performed or not. -/
def resetInFlight (done : Bool) : State :=
  at_ .xfer 0#3 0x90000022#32 0#32 { Pins.quiet with rstN := false, inflightDone := done }
theorem witness_ResetSettlesTheTransactionInFlight : ∀ done : Bool,
    paramsOk (resetInFlight done).params = true ∧ (resetInFlight done).ports.nextPins.rstN = false ∧
    (resetInFlight done).ports.nextPins.inflightDone = done ∧
    (resetInFlight done).sample.presented = some (.write .dist 0x184 4#32) ∧
    ((resetInFlight done).sample.perform (.write .dist 0x184 4#32)).isSome = true := by
  intro done
  cases done <;> exact ⟨by decide, rfl, rfl, by decide +kernel, by decide +kernel⟩
theorem witness_BadConfigurationsAreRefused :
    paramsOk { Params.reference with nIrq := 1056 } = false ∧ paramsOk { Params.reference with nIrq := 0 } = false ∧
    paramsOk { Params.reference with nIrq := 33 } = false ∧ paramsOk { Params.reference with distBase := 0x800#32 } = false ∧
    paramsOk { Params.reference with cpuBase := 0x10001000#32 } = false ∧ paramsOk .reference = true ∧
    paramsOk large = true := by decide
theorem witness_UnacknowledgedTransactionWaits : runsNext (at_ .xfer 7#3 0x30000000#32 0#32 .quiet) ∧
    (at_ .xfer 7#3 0x30000000#32 0#32 .quiet).block.fsm = .xfer ∧
    (at_ .xfer 7#3 0x30000000#32 0#32 .quiet).ports.nextPins.busAck = false := ⟨⟨by decide, rfl, rfl⟩, rfl, rfl⟩
/-- Each status a command can fail with. -/
theorem witness_RejectedCommandsChangeOnlyTheirResponse : (starting 0#32).block.fsm = .decode ∧
    (starting 0#32).fetch = .error .reservedOpcode ∧ (starting 0x10000102#32).fetch = .error .misalignedOffset ∧
    validate (.enable 64#10) (starting 0#32) = some .outOfRange ∧
    validate (.enable 63#10) (starting 0#32) = some .maskUnresolved ∧
    validate (.setType 0#4 64#10) (starting 0#32) = some .unsupportedTriggerType ∧
    validate (.regRead .cpu 0x010#12) (starting 0#32) = some .illegalCommand :=
  ⟨rfl, rfl, rfl, by decide, by decide, by decide, by decide⟩
/-- The range checks at 63 and 64, the register checks at the ends of two families, the mask check. -/
theorem witness_FirstFailingCheckGivesTheStatus : (starting 0#32).block.fsm = .decode ∧
    (starting 0#32).params.nIrq ≤ (64#10 : IrqId).toNat ∧ ¬ (starting 0#32).params.nIrq ≤ (63#10 : IrqId).toNat ∧
    (starting 0#32).block.maskValid = false ∧ (resolved 0xFF#8 (starting 0#32)).block.maskValid = true ∧
    mapped .reference .dist (0x108#12).toNat .read = false ∧ mapped .reference .dist (0x104#12).toNat .read = true ∧
    mapped .reference .cpu (0x00C#12).toNat .write = false ∧ mapped .reference .cpu (0x010#12).toNat .write = true := by
  decide
theorem witness_DecodeEndsOrEntersXfer : (starting 0#32).block.fsm = .decode ∧
    (starting 0#32).fetch = .error .reservedOpcode ∧
    validate (.enable 64#10) (starting 0#32) = some .outOfRange ∧
    (validate .resolveMask (starting 0#32) = none ∧ ¬ (Instr.resolveMask = .resolveMask ∧ (starting 0#32).block.maskValid = true)) ∧
    (resolved 0x80#8 (starting 0#32)).block.maskValid = true :=
  ⟨rfl, rfl, by decide, by decide, rfl⟩
/-- The first and last words of families, the offsets beside them, and both directions of ACK and EOI. -/
theorem witness_MappedIsTheSpecsPredicate :
    mapped .reference .dist 0x080 .read = true ∧ mapped .reference .dist 0x084 .write = true ∧
    mapped .reference .dist 0x088 .read = false ∧ mapped .reference .dist 0x07C .read = false ∧
    mapped large .dist 0x080 .read = false ∧ mapped large .dist 0x17C .read = true ∧
    mapped large .dist 0x180 .write = true ∧ mapped large .dist 0x1FC .write = true ∧ mapped large .dist 0x2FC .read = true ∧
    mapped large .dist 0x300 .read = false ∧ mapped large .dist 0xBFC .read = true ∧ mapped large .dist 0xCFC .write = true ∧
    mapped large .dist 0xD00 .read = false ∧ mapped large .cpu 0x00C .read = true ∧ mapped large .cpu 0x010 .read = false ∧
    mapped large .cpu 0x000 .write = true ∧ (starting 0#32).block.fsm = .decode := by decide
/-- A readable register of every family, first or last word. -/
theorem witness_RegReadAnswersTheWord : ackedAt (xfer 0#3 0#32) 0#3 ∧ paramsOk .reference = true ∧ paramsOk large = true ∧
    ([0x080, 0x084, 0x100, 0x184, 0x204, 0x280, 0x83C, 0xC0C].all fun o => mapped .reference .dist o .read) = true ∧
    ([0x17C, 0x1FC, 0x200, 0x2FC, 0x800, 0xBFC, 0xC00, 0xCFC].all fun o => mapped large .dist o .read) = true ∧
    ([0x000, 0x00C].all fun o => mapped large .cpu o .read) = true := ⟨⟨rfl, rfl, rfl⟩, by decide⟩
/-- A writable register of every family, first or last word, and EOI with and without the ID outstanding. -/
theorem witness_RegWriteStoresUnderTheAccessType :
    ackedAt (xfer 0#3 0#32) 0#3 ∧ paramsOk .reference = true ∧ paramsOk large = true ∧
    ([0x080, 0x084, 0x100, 0x184, 0x204, 0x280, 0x83C, 0xC0C].all fun o => mapped .reference .dist o .write) = true ∧
    ([0x17C, 0x1FC, 0x200, 0x2FC, 0x800, 0xBFC, 0xC00, 0xCFC].all fun o => mapped large .dist o .write) = true ∧
    ([0x000, 0x010].all fun o => mapped large .cpu o .write) = true ∧
    (serving [5#10, 34#10] (xfer 0#3 0#32)).ghost.outstanding = [5#10] ++ [BitVec.ofNat 10 (0x422#32).toNat] ∧
    (∀ l, (xfer 0#3 0#32).ghost.outstanding ≠ l ++ [BitVec.ofNat 10 (0x422#32).toNat]) :=
  ⟨⟨rfl, rfl, rfl⟩, by decide, by decide, by decide, by decide, by decide, by decide, by simp [xfer, at_, State.launch, Ghost.launch]⟩

/-- The hypotheses of a statement about one transaction of an interrupt that exists, in both configurations. -/
theorem meets_one_transaction (n : BitVec 3) :
    (paramsOk .reference = true ∧ (63#10 : IrqId).toNat < Params.reference.nIrq ∧ ackedAt (xfer n 0#32) n) ∧
    (paramsOk large = true ∧ (1023#10 : IrqId).toNat < large.nIrq ∧ ackedAt (inConfig large (xfer n 0#32)) n) :=
  ⟨⟨by decide, by decide, rfl, rfl, rfl⟩, by decide, by decide, rfl, rfl, rfl⟩

/-- The write-ignore clauses: bit 32 of the enables is write-ignored in the large configuration, bit 33 is not. -/
theorem meets_write_ignore : (writeIgnoreAt large .dist 0x104).getLsbD 0 = true ∧
    (writeIgnoreAt large .dist 0x104).getLsbD 1 = false := by decide

theorem witness_SetPendingSetsOneBit : paramsOk (xfer 0#3 0#32).params = true ∧
    (63#10 : IrqId).toNat < (xfer 0#3 0#32).params.nIrq ∧ ackedAt (xfer 0#3 0#32) 0#3 := (meets_one_transaction 0#3).1
theorem witness_ClearPendingClearsOneBit : paramsOk (inConfig large (xfer 0#3 0#32)).params = true ∧
    (1023#10 : IrqId).toNat < (inConfig large (xfer 0#3 0#32)).params.nIrq ∧
    ackedAt (inConfig large (xfer 0#3 0#32)) 0#3 := (meets_one_transaction 0#3).2
theorem witness_DisableClearsOneBit : paramsOk (xfer 0#3 0#32).params = true ∧
    (0#10 : IrqId).toNat < (xfer 0#3 0#32).params.nIrq ∧ ackedAt (xfer 0#3 0#32) 0#3 :=
  ⟨by decide, by decide, rfl, rfl, rfl⟩
theorem witness_AckAnswersTheIdAndClaimsIt : ackedAt (at_ .xfer 0#3 0xA0000000#32 0#32 (acking 0xFFFFFFFF#32)) 0#3 ∧
    ackedAt (at_ .xfer 0#3 0xA0000000#32 0#32 (acking 63#32)) 0#3 := ⟨⟨rfl, rfl, rfl⟩, rfl, rfl, rfl⟩
theorem witness_CompleteEndsServiceOrMarksTheHazard : ackedAt (serving [5#10, 40#10] (xfer 0#3 0#32)) 0#3 ∧
    (serving [5#10, 40#10] (xfer 0#3 0#32)).ghost.outstanding = [5#10] ++ [40#10] ∧
    (∀ l, (serving [5#10, 40#10] (xfer 0#3 0#32)).ghost.outstanding ≠ l ++ [5#10]) := by
  refine ⟨⟨rfl, rfl, rfl⟩, rfl, ?_⟩
  intro l h
  have := congrArg List.getLast? h
  simp [serving] at this
theorem witness_TriggerCommandsReadThenWrite : paramsOk (xfer 1#3 0#32).params = true ∧
    (63#10 : IrqId).toNat < (xfer 1#3 0#32).params.nIrq ∧ ackedAt (xfer 0#3 0#32) 0#3 ∧ ackedAt (xfer 1#3 0#32) 1#3 :=
  ⟨by decide, by decide, ⟨rfl, rfl, rfl⟩, rfl, rfl, rfl⟩
theorem witness_SetSecurityReadsThenWritesTheGroup : paramsOk (xfer 1#3 0#32).params = true ∧
    (63#10 : IrqId).toNat < (xfer 1#3 0#32).params.nIrq ∧ (xfer 1#3 0#32).params.groupBase = .dedicated ∧
    ackedAt (xfer 0#3 0#32) 0#3 ∧ ackedAt (xfer 1#3 0#32) 1#3 :=
  ⟨by decide, by decide, rfl, ⟨rfl, rfl, rfl⟩, rfl, rfl, rfl⟩
/-- Both clauses, with an enable bit that is write-ignored (interrupt 32) and one that is not (1023). -/
theorem witness_AliasedSetSecurityEnables : paramsOk (inConfig large (starting 0#32)).params = true ∧
    (1023#10 : IrqId).toNat < (inConfig large (starting 0#32)).params.nIrq ∧
    (32#10 : IrqId).toNat < (inConfig large (starting 0#32)).params.nIrq ∧
    (inConfig large (starting 0#32)).params.groupBase = .aliased ∧ (inConfig large (starting 0#32)).block.fsm = .decode ∧
    (inConfig large (starting 0#32)).ports.pins.busAck = true := by decide
theorem witness_EnablePerformsItsFiveTransactions : paramsOk (xfer 4#3 0#32).params = true ∧
    (63#10 : IrqId).toNat < (xfer 4#3 0#32).params.nIrq ∧ ackedAt (xfer 0#3 0#32) 0#3 ∧ ackedAt (xfer 1#3 0#32) 1#3 ∧
    ackedAt (xfer 2#3 0#32) 2#3 ∧ ackedAt (xfer 3#3 0#32) 3#3 ∧ ackedAt (xfer 4#3 0#32) 4#3 :=
  ⟨by decide, by decide, ⟨rfl, rfl, rfl⟩, ⟨rfl, rfl, rfl⟩, ⟨rfl, rfl, rfl⟩, ⟨rfl, rfl, rfl⟩, rfl, rfl, rfl⟩
/-- A state whose TARGET word 7 is the first that is not 0 (V41.5). -/
def lastWord (s : State) : State := { s with banks := { Banks.zero with tgt := setWordAt 0 7 0x80000000#32 } }
theorem witness_ResolverProbesOneWordPerStep : paramsOk (xfer 7#3 0#32).params = true ∧
    ackedAt (xfer 7#3 0#32) 7#3 ∧ ackedAt (xfer 0#3 0#32) 0#3 ∧ ackedAt (lastWord (xfer 7#3 0#32)) 7#3 ∧
    (xfer 7#3 0#32).block.maskValid = false ∧
    (lastWord (xfer 7#3 0#32)).banks.tgt.extractLsb' (32 * (7#3).toNat) 32 ≠ 0#32 ∧
    (xfer 0#3 0#32).banks.tgt.extractLsb' (32 * (0#3).toNat) 32 = 0#32 :=
  ⟨by decide, ⟨rfl, rfl, rfl⟩, ⟨rfl, rfl, rfl⟩, ⟨rfl, rfl, rfl⟩, rfl, by decide +kernel, by decide +kernel⟩
/-- The hypotheses of the statements about a whole command of an interrupt that exists. -/
theorem meets_whole_command : paramsOk (starting 0#32).params = true ∧ (63#10 : IrqId).toNat < (starting 0#32).params.nIrq ∧
    (starting 0#32).block.fsm = .decode ∧ (starting 0#32).ports.pins.busAck = true := by decide
theorem witness_TriggerCommandsPreserveEveryOtherBit : paramsOk (starting 0#32).params = true ∧
    (63#10 : IrqId).toNat < (starting 0#32).params.nIrq ∧ (starting 0#32).block.fsm = .decode ∧
    (starting 0#32).ports.pins.busAck = true := meets_whole_command
theorem witness_TriggerReadsBackAndIsIdempotent : paramsOk (starting 0#32).params = true ∧
    (63#10 : IrqId).toNat < (starting 0#32).params.nIrq ∧
    (writeIgnoreAt (starting 0#32).params .dist (0xC00 + 4 * (63 / 16))).getLsbD (2 * (63 % 16) + 1) = false ∧
    (starting 0#32).block.fsm = .decode ∧ (starting 0#32).ports.pins.busAck = true := by decide
theorem witness_SetSecurityPreservesEveryOtherBit : paramsOk (starting 0#32).params = true ∧
    (0#10 : IrqId).toNat < (starting 0#32).params.nIrq ∧ (starting 0#32).params.groupBase = .dedicated ∧
    (starting 0#32).block.fsm = .decode ∧ (starting 0#32).ports.pins.busAck = true := by decide
theorem witness_EnableRoutesOneInterrupt : paramsOk (resolved 0xFF#8 (starting 0#32)).params = true ∧
    (resolved 0xFF#8 (starting 0#32)).params.writeIgnore = [] ∧
    (63#10 : IrqId).toNat < (resolved 0xFF#8 (starting 0#32)).params.nIrq ∧
    (resolved 0xFF#8 (starting 0#32)).block.maskValid = true ∧ (resolved 0xFF#8 (starting 0#32)).block.fsm = .decode ∧
    (resolved 0xFF#8 (starting 0#32)).ports.pins.busAck = true := by decide
theorem witness_EnableAndDisableAreIdempotent :
    let s := inConfig large (resolved 0x03#8 (starting 0#32))
    paramsOk s.params = true ∧ (1023#10 : IrqId).toNat < s.params.nIrq ∧
    (writeIgnoreAt s.params .dist (0x180 + 4 * (1023 / 32))).getLsbD (1023 % 32) = false ∧
    s.block.maskValid = true ∧ s.block.fsm = .decode ∧ s.ports.pins.busAck = true := by decide
/-- The last word alone not 0 (`k = 7`), and all eight 0. -/
theorem witness_ResolverAdoptsTheFirstNonzeroWord : paramsOk (starting 0#32).params = true ∧
    (starting 0#32).block.fsm = .decode ∧ (starting 0#32).ports.pins.busAck = true ∧
    (starting 0#32).block.maskValid = false ∧
    ((List.range 7).all fun j => (lastWord (starting 0#32)).banks.tgt.extractLsb' (32 * j) 32 == 0#32) = true ∧
    (lastWord (starting 0#32)).banks.tgt.extractLsb' (32 * 7) 32 ≠ 0#32 ∧
    ((List.range 8).all fun j => (starting 0#32).banks.tgt.extractLsb' (32 * j) 32 == 0#32) = true := by decide +kernel
theorem witness_EveryCommandAnswersAfterItsTransactions : paramsOk (starting 0#32).params = true ∧
    (starting 0#32).block.fsm = .decode ∧ (starting 0#32).ports.pins.busAck = true := by decide
theorem witness_AckThenCompleteRestoresOutstanding :
    let s := at_ .decode 0#3 0xA0000000#32 0#32 (acking 0xFFFFFC3F#32)
    s.block.fsm = .decode ∧ s.ports.pins.busAck = true ∧ s.ports.pins.ackData.toNat % 1024 < s.params.nIrq := by decide
theorem witness_AckDiscardsTheHighBits : (0xFFFFFC22#32).toNat % 1024 = (0x22#32).toNat % 1024 ∧
    ackedAt (xfer 0#3 0xA0000000#32) 0#3 := ⟨by decide, rfl, rfl, rfl⟩
/-- A good state in the middle of ENABLE. -/
theorem good_enable_4 : MachineInv (resolved 0x01#8 (xfer 4#3 0x80000022#32)) where
  params_ok := by decide
  banks_wf := by decide +kernel
  rspValid_iff := by decide
  unresolved := by decide
  defaulted := by decide
  mask_ne_zero := by decide
  outstanding_exist := by simp [resolved, xfer, at_, State.launch, Ghost.launch]
  trace_mapped := by simp [resolved, xfer, at_, State.launch, Ghost.launch]
  running := fun _ => ⟨.enable 34#10, rfl, by decide, by decide⟩
  reset_idle := by decide
theorem witness_EveryStepKeepsTheInvariant : MachineInv (resolved 0x01#8 (xfer 4#3 0x80000022#32)) ∧
    ∃ t, step (resolved 0x01#8 (xfer 4#3 0x80000022#32)) = .next t := ⟨good_enable_4, _, rfl⟩
theorem witness_LaunchMeetsTheInvariant : paramsOk large = true ∧
    banksWf large { Banks.zero with en := BitVec.allOnes 1024, tgt := BitVec.allOnes 8192 } = true := by decide +kernel
theorem witness_RunningCommandMakesProgress : MachineInv (resolved 0x01#8 (xfer 4#3 0x80000022#32)) ∧
    (resolved 0x01#8 (xfer 4#3 0x80000022#32)).block.fsm = .xfer ∧
    (resolved 0x01#8 (xfer 4#3 0x80000022#32)).ports.pins.busAck = true := ⟨good_enable_4, rfl, rfl⟩
theorem witness_ResolvedMaskNeverChanges :
    (runsNext (resolved 0x02#8 (starting 0x30000000#32)) ∧ (resolved 0x02#8 (starting 0x30000000#32)).block.maskValid = true ∧
      ∃ t, step (resolved 0x02#8 (starting 0x30000000#32)) = .next t) ∧
    ((xfer 7#3 0x30000000#32).block.maskValid = false ∧
      got (xfer 7#3 0x30000000#32) (fun t => t.block.maskValid) = some true) ∧
    ((starting 0x80000022#32).block.fsm = .decode ∧ (starting 0x80000022#32).block.maskValid = false) :=
  ⟨⟨⟨by decide, rfl, rfl⟩, rfl, _, rfl⟩, ⟨rfl, by decide +kernel⟩, rfl, rfl⟩
/-- For the statements about every step: a step that performs a transaction, one that performs none. -/
theorem meets_any_step : (∃ t, step (xfer 0#3 0x18000000#32) = .next t) ∧
    (∃ t, step (at_ .idle 0#3 0#32 0#32 .quiet) = .next t) := ⟨⟨_, rfl⟩, _, rfl⟩
theorem witness_NoStepChangesTheConfiguration : ∃ t, step (xfer 0#3 0x18000000#32) = .next t := meets_any_step.1
theorem witness_AStepPerformsAtMostOneTransaction : ∃ t, step (xfer 0#3 0x18000000#32) = .next t := meets_any_step.1
/-- The first COMPLETE of V45.5 marks the hazard. -/
theorem witness_HazardFaultIsNeverCleared :
    got (serving [5#10, 40#10] (xfer 0#3 0xB0000005#32)) (fun t => t.ghost.hazardFault) = some true ∧
    (serving [5#10, 40#10] (xfer 0#3 0xB0000005#32)).ghost.hazardFault = false := by decide +kernel
theorem witness_BanksChangeOnlyByTransactions :
    got (at_ .idle 0#3 0#32 0#32 { Pins.quiet with pendChanges := [(63#10, true)] })
      (fun t => (t.ghost.trace, pendBit t.banks 63#10)) = some ([], true) := by decide +kernel
/-- A step that changes each bank register. -/
theorem witness_OnlyTheseCommandsWriteEachRegister :
    got (resolved 0x01#8 (xfer 4#3 0x80000022#32)) (fun t => t.banks.tgt != 0) = some true ∧
    got (withHold 1#32 (xfer 1#3 0x80000022#32)) (fun t => t.banks.cpuCtrl != 0) = some true ∧
    got (xfer 1#3 0x40001022#32) (fun t => t.banks.cfg != 0) = some true ∧
    got (xfer 1#3 0x70001028#32) (fun t => t.banks.grp != 0) = some true ∧
    got (xfer 2#3 0x80000022#32) (fun t => t.banks.en != 0) = some true := by decide +kernel
theorem witness_WritesChangeOnlyTheirWord : paramsOk (inConfig large (xfer 0#3 0#32)).params = true ∧
    regAt large .dist 0x1FC = some (.enableClear 31) ∧
    ∃ t, (inConfig large (xfer 0#3 0#32)).perform (.write .dist 0x1FC 0xFFFFFFFF#32) = some t :=
  ⟨by decide, by decide, _, rfl⟩
/-- A register of the pair, and a second identical write. -/
theorem witness_AccessesAreIdempotent : regAt Params.reference .dist 0x104 = some (.enableSet 1) ∧
    (∃ t u, (xfer 0#3 0#32).perform (.write .dist 0x104 0xFFFFFFFF#32) = some t ∧
      t.perform (.write .dist 0x104 0xFFFFFFFF#32) = some u) ∧
    (∃ t, (xfer 0#3 0#32).perform (.read .dist 0x104) = some t) := ⟨by decide, ⟨_, _, rfl, rfl⟩, _, rfl⟩
/-- The last byte of the last TARGET word, and of CTRL. -/
theorem witness_LaneKIsTheByteAtOffsetK : regAt large .dist 0xBFC = some (.target 255) ∧
    (∃ w, (inConfig large (xfer 0#3 0#32)).peek (.target 255) = some w) ∧ regAt large .cpu 0x000 = some .ctrl ∧
    (∃ w, (inConfig large (xfer 0#3 0#32)).peek .ctrl = some w) := ⟨by decide, ⟨_, rfl⟩, by decide, _, rfl⟩
theorem witness_EnableDrivesTheBusInOrder : ∀ n : BitVec 3, (xfer n 0x80000022#32).block.fsm = .xfer ∧
    decode (xfer n 0x80000022#32).block.cmd (xfer n 0x80000022#32).block.data = .ok (.enable 34#10) ∧
    (xfer n 0x80000022#32).block.step = n :=
  fun _ => ⟨rfl, by show decode 0x80000022#32 0#32 = _; rfl, rfl⟩

end Sys2Proof.Tests
end

section
/-! The family 00_scope.md: which configurations a step refuses (R8), and that a step keeps the configuration (R7). -/

namespace Sys2Proof.Machine

/-- The constraints of 00_scope.md R7 and R8, spelled out. -/
theorem paramsOk_iff (p : Params) :
    paramsOk p = true ↔
      p.nIrq % 32 = 0 ∧ 32 ≤ p.nIrq ∧ p.nIrq ≤ 1024 ∧
      p.distBase.toNat % 0x1000 = 0 ∧ p.distBase.toNat + 0x1000 ≤ 2 ^ 32 ∧
      p.cpuBase.toNat % 0x1000 = 0 ∧ p.cpuBase.toNat + 0x1000 ≤ 2 ^ 32 ∧
      (p.distBase.toNat + 0x1000 ≤ p.cpuBase.toNat ∨ p.cpuBase.toNat + 0x1000 ≤ p.distBase.toNat) := by
  simp only [paramsOk, Bool.and_eq_true, beq_iff_eq, decide_eq_true_eq, and_assoc]

/-- A transition of the FSM neither faults nor is refused, whatever the state (30_encoding.md R85). -/
theorem transition_next (s : State) : ∃ t, transition s = .next t := by
  unfold transition
  cases s.block.fsm with
  | idle => exact ⟨_, rfl⟩
  | resp => exact ⟨_, rfl⟩
  | decode | xfer =>
    cases s.fetch with
    | ok i => exact exec_next i s
    | error e => exact ⟨_, rfl⟩

/-- A step with an admitted configuration answers a next state. -/
theorem step_next_of_paramsOk {s : State} (h : paramsOk s.params = true) : ∃ t, step s = .next t := by
  rcases step_cases s with ⟨hbad, -⟩ | ⟨-, -, hreset⟩ | ⟨-, -, hrun⟩
  · exact absurd h (by simp [hbad])
  · exact ⟨_, hreset⟩
  · rw [hrun]
    exact transition_next s.sample

/-- The check of the configuration is the one thing that refuses a step. -/
theorem step_refused_iff (s : State) : step s = .refused .badConfiguration ↔ ¬ paramsOk s.params = true := by
  constructor
  · intro hrefused hok
    obtain ⟨t, hnext⟩ := step_next_of_paramsOk hok
    cases hrefused.symm.trans hnext
  · exact fun hbad => if_neg hbad

/-- Settles O15: a step refuses exactly what `paramsOk` rejects, and `paramsOk` is the list of constraints. -/
theorem badConfigurationsAreRefused : Obligations.BadConfigurationsAreRefused := fun s =>
  (step_refused_iff s).trans (not_congr (paramsOk_iff s.params))

/-- Settles O47, by the frame of the effect of a step. -/
theorem noStepChangesTheConfiguration : Obligations.NoStepChangesTheConfiguration := by
  intro s t hstep
  obtain ⟨hparams, -, -⟩ := step_effect hstep
  exact hparams

end Sys2Proof.Machine
end

section
/-! The family 10_state.md: the FSM and its command port (R14 to R17, R37), the mask registers (R18 to R20), the ghost
state (R33 to R35), the environment (R36), the launch state (R38, R40), and the invariant of the machine. -/

namespace Sys2Proof.Machine

variable {s t : State}

/-! ### What a step can do -/

/-- The step of a block that is not in reset is a transition of the FSM on the sampled inputs. -/
theorem step_of_runsNext (h : runsNext s) : step s = transition s.sample := by
  obtain ⟨hparams, hrst, hheld⟩ := h
  rcases step_cases s with ⟨hbad, -⟩ | ⟨-, hreset, -⟩ | ⟨-, -, hrun⟩
  · exact absurd hparams (by simp [hbad])
  · exact absurd hreset (by simp [State.inReset, hrst, hheld])
  · exact hrun

/-- Only an admitted configuration makes a step. -/
theorem paramsOk_of_step (h : step s = .next t) : paramsOk s.params = true := by
  rcases step_cases s with ⟨-, hrefused⟩ | ⟨hok, -⟩ | ⟨hok, -⟩
  · cases hrefused.symm.trans h
  · exact hok
  · exact hok

theorem transition_of_idle (hf : s.block.fsm = .idle) : transition s = .next s.accept := by
  simp only [transition, hf]

theorem transition_of_resp (hf : s.block.fsm = .resp) : transition s = .next s.release := by
  simp only [transition, hf]

theorem transition_of_running {i : Instr} (hf : s.block.fsm = .decode ∨ s.block.fsm = .xfer) (hd : s.fetch = .ok i) :
    transition s = exec i s := by
  rcases hf with hf | hf <;> simp only [transition, hf, hd]

/-- One transition of the FSM, move by move (30_encoding.md R80, R85). -/
inductive FsmMove (s : State) : State → Prop where
  /-- IDLE, RESP or XFER wait for `cmd_valid`, `rsp_ready` or `bus_ack`. -/
  | wait (hf : s.block.fsm ≠ .decode) : FsmMove s s
  /-- IDLE latches a command (10_state.md R14). -/
  | latch (hf : s.block.fsm = .idle) : FsmMove s { s with
      block := { s.block with cmd := s.ports.pins.cmdWord, data := s.ports.pins.cmdData, fsm := .decode } }
  /-- RESP gives its response away (10_state.md R15). -/
  | release (hf : s.block.fsm = .resp) : FsmMove s { s with block := { s.block with rspValid := false, fsm := .idle } }
  /-- DECODE refuses an illegal word or a command that fails a check (R74, R79). -/
  | reject {st : Status} (hf : s.block.fsm = .decode) : FsmMove s (s.raise st)
  /-- DECODE ends a command that has no transaction (R80). -/
  | answer {i : Instr} (hf : s.block.fsm = .decode) (hd : s.fetch = .ok i) : FsmMove s (finishOf i s)
  /-- DECODE starts the transactions of a valid command (R80). -/
  | enter {i : Instr} (hf : s.block.fsm = .decode) (hd : s.fetch = .ok i) (hv : validate i s = none)
      (hs : transactions i s ≠ []) : FsmMove s s.enterXfer
  /-- XFER performs the last transaction of a command (R85). -/
  | last {i : Instr} {x : Txn} {u : State} (hf : s.block.fsm = .xfer) (hd : s.fetch = .ok i)
      (hu : s.perform x = some u) : FsmMove s (finishOf i u)
  /-- XFER performs another transaction of a command (R85). -/
  | advance {i : Instr} {x : Txn} {u : State} (hf : s.block.fsm = .xfer) (hd : s.fetch = .ok i)
      (hx : (transactions i s)[s.block.step.toNat]? = some x) (hu : s.perform x = some u)
      (hl : s.block.step.toNat + 1 ≠ (transactions i s).length) : FsmMove s u.advance

/-- A command in DECODE or XFER makes a move of the FSM. -/
theorem fsmMove_of_exec {i : Instr} (hf : s.block.fsm = .decode ∨ s.block.fsm = .xfer) (hd : s.fetch = .ok i)
    (h : exec i s = .next t) : FsmMove s t := by
  rw [exec_eq_runCommand] at h
  rcases hf with hf | hf
  · rw [runCommand_decode hf] at h
    injection h with h
    subst h
    rcases runDecode_cases s (validate i s) (transactions i s) (finishOf i) with
      ⟨st, -, heq⟩ | ⟨-, -, heq⟩ | ⟨hv, hs, heq⟩ <;> rw [heq]
    · exact .reject hf
    · exact .answer hf hd
    · exact .enter hf hd hv hs
  · rw [runCommand_xfer hf] at h
    injection h with h
    subst h
    rcases runXfer_cases s (transactions i s) (stopOf i) (finishOf i) with
      heq | ⟨x, u, -, hx, hu, ⟨-, heq⟩ | ⟨-, hl, heq⟩⟩ <;> rw [heq]
    · exact .wait (by simp [hf])
    · exact .last hf hd hu
    · exact .advance hf hd hx hu hl

/-- The moves are all that a transition can do. -/
theorem fsmMove_of_transition (h : transition s = .next t) : FsmMove s t := by
  cases hf : s.block.fsm with
  | idle =>
    rw [transition_of_idle hf] at h
    injection h with h
    subst h
    rcases accept_cases s with ⟨-, heq⟩ | ⟨-, heq⟩ <;> rw [heq]
    · exact .latch hf
    · exact .wait (by simp [hf])
  | resp =>
    rw [transition_of_resp hf] at h
    injection h with h
    subst h
    rcases release_cases s with ⟨-, heq⟩ | ⟨-, heq⟩ <;> rw [heq]
    · exact .release hf
    · exact .wait (by simp [hf])
  | decode =>
    cases hd : s.fetch with
    | ok i => exact fsmMove_of_exec (.inl hf) hd (transition_of_running (.inl hf) hd ▸ h)
    | error e =>
      simp only [transition, hf, hd, Host.Outcome.next.injEq] at h
      exact h ▸ .reject hf
  | xfer =>
    cases hd : s.fetch with
    | ok i => exact fsmMove_of_exec (.inr hf) hd (transition_of_running (.inr hf) hd ▸ h)
    | error e =>
      simp only [transition, hf, hd, Host.Outcome.next.injEq] at h
      exact h ▸ .wait (by simp [hf])

/-- The step of a block that is not in reset is a move of the FSM. -/
theorem fsmMove_of_step (hr : runsNext s) (h : step s = .next t) : FsmMove s.sample t :=
  fsmMove_of_transition (step_of_runsNext hr ▸ h)

/-- A step resets the block or is a move of the FSM, of a block that was not being reset. -/
theorem step_next_cases (h : step s = .next t) :
    t = s.sample.takeReset ∨ (s.block.rstHeld = false ∧ FsmMove s.sample t) := by
  rcases step_cases s with ⟨-, heq⟩ | ⟨-, -, heq⟩ | ⟨-, hrun, heq⟩ <;> rw [heq] at h
  · cases h
  · injection h with h
    exact .inl h.symm
  · simp only [State.inReset, State.sample_block, Bool.or_eq_false_iff] at hrun
    exact .inr ⟨hrun.2, fsmMove_of_transition h⟩

/-! ### The registers a move leaves alone -/

/-- A transaction changes no register of the block but `HOLD` (30_encoding.md R84). -/
theorem perform_block {x : Txn} (h : s.perform x = some t) : ∃ w, t.block = { s.block with hold := w } :=
  ⟨_, (perform_frame h).2.2⟩

/-- The end of a command answers `OK`; only RESOLVE_MASK with the mask unresolved also adopts a mask, which names a CPU
and is the default mask if it is marked so (41_mask_resolver.md R93). -/
theorem finishOf_cases (i : Instr) (s : State) :
    (∃ d, finishOf i s = s.endCommand .ok d) ∨
    (i = .resolveMask ∧ s.block.maskValid = false ∧ ∃ m f d, m ≠ 0#8 ∧ (f = true → m = defaultMask) ∧
      finishOf i s = (s.adoptMask m f).endCommand .ok d) := by
  cases i
  case resolveMask =>
    cases hv : s.block.maskValid with
    | true => exact .inl ⟨_, by simp only [finishOf, finishResolveMask, hv, if_true]; rfl⟩
    | false =>
      refine .inr ⟨rfl, rfl, ?_⟩
      simp only [finishOf, finishResolveMask, hv, Bool.false_eq_true, if_false]
      cases hstop : stopResolveMask s with
      | true => exact ⟨fold s.block.hold, false, _, by simpa [stopResolveMask] using hstop, nofun, rfl⟩
      | false => exact ⟨defaultMask, true, _, by decide, fun _ => rfl, rfl⟩
  all_goals exact .inl ⟨_, rfl⟩

/-- The end of a command leaves the command registers. -/
theorem finishOf_latched (i : Instr) (s : State) :
    (finishOf i s).block.cmd = s.block.cmd ∧ (finishOf i s).block.data = s.block.data := by
  rcases finishOf_cases i s with ⟨d, heq⟩ | ⟨-, -, m, f, d, -, -, heq⟩ <;> rw [heq] <;> exact ⟨rfl, rfl⟩

/-- No move of the FSM outside IDLE latches a command (10_state.md R14). -/
theorem FsmMove.latched (h : FsmMove s t) (hf : s.block.fsm ≠ .idle) :
    t.block.cmd = s.block.cmd ∧ t.block.data = s.block.data := by
  cases h with
  | latch hidle => exact absurd hidle hf
  | wait | release | reject | enter => exact ⟨rfl, rfl⟩
  | answer => exact finishOf_latched _ s
  | @last i x u _ _ hu =>
    obtain ⟨w, hw⟩ := perform_block hu
    simpa [hw] using finishOf_latched i u
  | advance _ _ _ hu =>
    obtain ⟨w, hw⟩ := perform_block hu
    simp [hw]

/-- A move that does not present a response leaves the response registers (10_state.md R15). -/
theorem FsmMove.response (h : FsmMove s t) (hf : s.block.fsm = .resp ∨ t.block.fsm ≠ .resp) :
    t.block.rspStatus = s.block.rspStatus ∧ t.block.rspData = s.block.rspData := by
  cases h with
  | wait | latch | release | enter => exact ⟨rfl, rfl⟩
  | reject hdec => simp [hdec] at hf
  | @answer i hdec => simp [hdec, finishOf_frame i s] at hf
  | @last i x u hx => simp [hx, finishOf_frame i u] at hf
  | advance _ _ _ hu =>
    obtain ⟨w, hw⟩ := perform_block hu
    simp [hw]

/-- A move leaves the mask registers, or it is the end of RESOLVE_MASK with the mask unresolved (10_state.md R19). -/
theorem FsmMove.mask (h : FsmMove s t) :
    (t.block.maskValid = s.block.maskValid ∧ t.block.maskCache = s.block.maskCache ∧
      t.block.maskDefaulted = s.block.maskDefaulted) ∨
    (s.fetch = .ok .resolveMask ∧ s.block.maskValid = false) := by
  cases h with
  | wait | latch | release | reject | enter => exact .inl ⟨rfl, rfl, rfl⟩
  | @answer i _ hd =>
    rcases finishOf_cases i s with ⟨d, heq⟩ | ⟨rfl, hv, -⟩
    · exact .inl (by simp [heq])
    · exact .inr ⟨hd, hv⟩
  | @last i x u _ hd hu =>
    obtain ⟨w, hw⟩ := perform_block hu
    rcases finishOf_cases i u with ⟨d, heq⟩ | ⟨rfl, hv, -⟩
    · exact .inl (by simp [heq, hw])
    · exact .inr ⟨hd, by simpa [hw] using hv⟩
  | advance _ _ _ hu =>
    obtain ⟨w, hw⟩ := perform_block hu
    exact .inl (by simp [hw])

/-! ### The ghost state and the environment -/

theorem Ghost.mem_outstanding_afterRead {g : Ghost} {p : Params} {r : Reg} {v : Word} {id : IrqId}
    (h : id ∈ (g.afterRead p r v).outstanding) : id ∈ g.outstanding ∨ irqExists p id = true := by
  by_cases hr : r = .ack
  · rw [Ghost.afterRead, if_pos hr] at h
    rcases Ghost.claim_cases g p v with ⟨hlt, heq⟩ | ⟨-, heq⟩ <;> rw [heq] at h
    · rcases List.mem_append.1 h with h | h
      · exact .inl h
      · rw [List.mem_singleton.1 h]
        exact .inr ((irqExists_iff _ _).2 hlt)
    · exact .inl h
  · rw [Ghost.afterRead_of_ne hr] at h
    exact .inl h

theorem Ghost.mem_outstanding_afterWrite {g : Ghost} {r : Reg} {v : Word} {id : IrqId}
    (h : id ∈ (g.afterWrite r v).outstanding) : id ∈ g.outstanding := by
  by_cases hr : r = .eoi
  · rw [Ghost.afterWrite, if_pos hr] at h
    rcases Ghost.endService_cases g v with ⟨-, heq⟩ | ⟨-, heq⟩ <;> rw [heq] at h
    · exact List.mem_of_mem_dropLast h
    · exact h
  · rwa [Ghost.afterWrite_of_ne hr] at h

/-- A transaction adds no ID of an interrupt that does not exist to the outstanding list (10_state.md R34). -/
theorem perform_outstanding {x : Txn} (h : s.perform x = some t) {id : IrqId} (hid : id ∈ t.ghost.outstanding) :
    id ∈ s.ghost.outstanding ∨ irqExists s.params id = true := by
  cases x with
  | read bank off =>
    obtain ⟨r, v, -, -, rfl⟩ := (busRead_eq_some_iff s bank off).1 h
    exact Ghost.mem_outstanding_afterRead (g := s.ghost.record ⟨.read, bank, off, v⟩) hid
  | write bank off v =>
    obtain ⟨r, b, -, -, rfl⟩ := (busWrite_eq_some_iff s bank off v).1 h
    exact .inl (Ghost.mem_outstanding_afterWrite (g := s.ghost.record ⟨.write, bank, off, v⟩) hid)

theorem idOf_eq_ofNat (v : Word) : idOf v = BitVec.ofNat 10 v.toNat := by
  apply BitVec.eq_of_toNat_eq
  simp [idOf]

/-- A transaction leaves `hazard_fault`, or it is a write of EOI that does not match and sets it (10_state.md R35). -/
theorem perform_hazardFault (hp : paramsOk s.params = true) {x : Txn} (h : s.perform x = some t) :
    t.ghost.hazardFault = s.ghost.hazardFault ∨
    (t.ghost.hazardFault = true ∧ ∃ v, t.ghost.trace = s.ghost.trace ++ [⟨.write, .cpu, eoiOff, v⟩] ∧
      t.ghost.outstanding = s.ghost.outstanding ∧ s.ghost.outstanding.getLast? ≠ some (idOf v)) := by
  cases x with
  | read bank off =>
    obtain ⟨r, v, -, -, rfl⟩ := (busRead_eq_some_iff s bank off).1 h
    exact .inl (by simp)
  | write bank off v =>
    obtain ⟨r, b, hr, -, rfl⟩ := (busWrite_eq_some_iff s bank off v).1 h
    by_cases heoi : r = .eoi
    · subst heoi
      obtain ⟨hhome, -⟩ := (regAt_eq_some_iff hp bank off .eoi).1 hr
      cases hhome
      rw [Ghost.afterWrite, if_pos rfl]
      rcases Ghost.endService_cases (s.ghost.record ⟨.write, .cpu, 0x010, v⟩) v with ⟨-, heq⟩ | ⟨hne, heq⟩
      · exact .inl (by rw [heq]; rfl)
      · exact .inr (by rw [heq]; exact ⟨rfl, v, rfl, rfl, hne⟩)
    · exact .inl (by rw [Ghost.afterWrite_of_ne heoi]; rfl)

/-- The environment leaves a pending bit, or names it with the value it then has, of an interrupt that exists (R36). -/
theorem pendBit_environment (p : Params) (cs : List (IrqId × Bool)) (b : Banks) (irq : IrqId) :
    pendBit (b.environment p cs) irq = pendBit b irq ∨
    (irq.toNat < p.nIrq ∧ (irq, pendBit (b.environment p cs) irq) ∈ cs) := by
  induction cs generalizing b with
  | nil => exact .inl rfl
  | cons c cs ih =>
    rw [show b.environment p (c :: cs) = (b.setPend p c).environment p cs from rfl]
    rcases ih (b.setPend p c) with hkept | ⟨hlt, hmem⟩
    · rw [hkept, pendBit_setPend]
      split
      · next hc =>
        obtain ⟨rfl, hlt⟩ := hc
        exact .inr ⟨hlt, List.mem_cons_self⟩
      · exact .inl rfl
    · exact .inr ⟨hlt, List.mem_cons_of_mem _ hmem⟩

/-! ### What a command's checks and its number of transactions depend on -/

theorem validate_congr (hp : t.params = s.params) (hm : t.block.maskValid = s.block.maskValid) (i : Instr) :
    validate i t = validate i s := by
  cases i <;> simp only [validate, checkRegRead, checkRegWrite, checkResolveMask, checkSetTrigger, checkSetPending,
    checkClearPending, checkSetSecurity, checkEnable, checkDisable, checkAck, checkComplete, checkSetType, checkMask,
    hp, hm]

theorem transactions_length_congr (hm : t.block.maskValid = s.block.maskValid) (i : Instr) :
    (transactions i t).length = (transactions i s).length := by
  cases i
  case resolveMask => simp only [transactions, seqResolveMask, hm]
  case setType arg irq =>
    simp only [transactions, seqSetType]
    cases typeKind arg <;> rfl
  all_goals rfl

/-- No command has more than eight transactions, so `step` has three bits (10_state.md R16, R17). -/
theorem transactions_length_le (i : Instr) (s : State) : (transactions i s).length ≤ 8 := by
  cases i
  case resolveMask =>
    simp only [transactions, seqResolveMask]
    split <;> simp [probeWords]
  case setType arg irq =>
    simp only [transactions, seqSetType]
    cases typeKind arg <;> simp [triggerSequence]
  all_goals simp [transactions, seqRegRead, seqRegWrite, seqSetTrigger, triggerSequence, seqSetPending, seqClearPending,
    seqSetSecurity, seqEnable, seqDisable, seqAck, seqComplete]

/-- What the invariant says of XFER: `i` is a valid command in `CMD`, and `step` numbers one of its transactions. -/
def Running (s : State) (i : Instr) : Prop :=
  s.fetch = .ok i ∧ validate i s = none ∧ s.block.step.toNat < (transactions i s).length

/-- The banks, the inputs, the ghost state and `HOLD` have no part in which command runs. -/
theorem Running.of_frame {i : Instr} (h : Running s i) (hp : t.params = s.params) {w : Word}
    (hb : t.block = { s.block with hold := w }) : Running t i := by
  obtain ⟨hd, hv, hl⟩ := h
  have hm : t.block.maskValid = s.block.maskValid := by rw [hb]
  refine ⟨?_, (validate_congr hp hm i).trans hv, ?_⟩
  · rwa [State.fetch, hb]
  · rwa [transactions_length_congr hm, hb]

/-- A command that has another transaction goes on to it. -/
theorem Running.advance {i : Instr} (h : Running s i) (hl : s.block.step.toNat + 1 ≠ (transactions i s).length) :
    Running s.advance i := by
  obtain ⟨hd, hv, hlt⟩ := h
  have h8 := transactions_length_le i s
  refine ⟨hd, (validate_congr (s := s) (t := s.advance) rfl rfl i).trans hv, ?_⟩
  rw [transactions_length_congr (s := s) (t := s.advance) rfl, State.advance_step, BitVec.toNat_add]
  simp only [BitVec.toNat_ofNat]
  omega

/-! ### The invariant of the machine, operation by operation -/

namespace MachineInv

/-- Launch with canonical banks in an admitted configuration is a good state. -/
theorem launch {p : Params} {b : Banks} (q : List Pins) (hp : paramsOk p = true) (hb : banksWf p b = true) :
    MachineInv (State.launch p b q) where
  params_ok := hp
  banks_wf := hb
  rspValid_iff := by simp [Block.reset]
  unresolved := fun _ => ⟨rfl, rfl⟩
  defaulted := nofun
  mask_ne_zero := by simp [Block.reset]
  outstanding_exist := nofun
  trace_mapped := nofun
  running := nofun
  reset_idle := nofun

theorem sample (h : MachineInv s) : MachineInv s.sample :=
  { h with
    banks_wf := banksWf_environment _ h.banks_wf
    running := fun hf => (h.running hf).imp fun _ hrun => Running.of_frame (s := s) (t := s.sample) hrun rfl rfl }

/-- A transaction keeps the invariant: it is at a mapped register, and claims only interrupts that exist. -/
theorem perform (h : MachineInv s) {x : Txn} (hx : s.perform x = some t) : MachineInv t := by
  obtain ⟨hp, -, -⟩ := perform_frame hx
  obtain ⟨w, hw⟩ := perform_block hx
  exact {
    params_ok := hp ▸ h.params_ok
    banks_wf := banksWf_perform h.params_ok hx h.banks_wf
    rspValid_iff := by simpa [hw] using h.rspValid_iff
    unresolved := by simpa [hw] using h.unresolved
    defaulted := by simpa [hw] using h.defaulted
    mask_ne_zero := by simpa [hw] using h.mask_ne_zero
    outstanding_exist := fun id hid => hp ▸ (perform_outstanding hx hid).elim (h.outstanding_exist id) fun he => he
    trace_mapped := by
      obtain ⟨v, htrace⟩ := perform_trace hx
      have hmapped : mapped s.params x.bank x.off x.dir = true := by rw [← perform_isSome, hx]; rfl
      simpa [htrace, hp, or_imp, forall_and, hmapped] using h.trace_mapped
    running := fun hf => (h.running (by simpa [hw] using hf)).imp fun _ hrun => Running.of_frame hrun hp hw
    reset_idle := by simpa [hw] using h.reset_idle }

theorem resetBlock (h : MachineInv s) : MachineInv s.resetBlock :=
  { h with
    rspValid_iff := by simp
    unresolved := fun _ => ⟨rfl, rfl⟩
    defaulted := nofun
    mask_ne_zero := by simp
    running := nofun
    reset_idle := fun _ => rfl }

/-- A clock edge in reset keeps the invariant, whether the transaction in flight is performed or not. -/
theorem takeReset (h : MachineInv s) : MachineInv s.takeReset := by
  rcases settleInflight_cases s s.presented with heq | ⟨x, -, -, hx⟩
  · rw [State.takeReset, heq]
    exact h.resetBlock
  · exact (h.perform hx).resetBlock

theorem endCommand (h : MachineInv s) (hr : s.block.rstHeld = false) (st : Status) (d : Word) :
    MachineInv (s.endCommand st d) :=
  { h with
    rspValid_iff := by simp
    running := nofun
    reset_idle := by simp [hr] }

/-- Outside XFER a mask that names a CPU, and is the default mask if marked so, can be adopted. -/
theorem adoptMask (h : MachineInv s) (hf : s.block.fsm ≠ .xfer) {m : CpuMask} {f : Bool} (hm : m ≠ 0#8)
    (hd : f = true → m = defaultMask) : MachineInv (s.adoptMask m f) :=
  { h with
    unresolved := nofun
    defaulted := hd
    mask_ne_zero := hm
    running := fun hx => absurd hx hf }

theorem finish (h : MachineInv s) (hr : s.block.rstHeld = false) (i : Instr) : MachineInv (finishOf i s) := by
  rcases finishOf_cases i s with ⟨d, heq⟩ | ⟨-, -, m, f, d, hm, hd, heq⟩ <;> rw [heq]
  · exact h.endCommand hr _ _
  · exact (h.endCommand hr .ok d).adoptMask (by simp) hm hd

/-- Every move of the FSM keeps the invariant. -/
theorem move (h : MachineInv s) (hr : s.block.rstHeld = false) (hmove : FsmMove s t) : MachineInv t := by
  cases hmove with
  | wait => exact h
  | latch hf =>
    exact { h with
      rspValid_iff := by simpa [hf] using h.rspValid_iff
      running := nofun
      reset_idle := by simp [hr] }
  | release =>
    exact { h with
      rspValid_iff := by simp
      running := nofun
      reset_idle := fun _ => rfl }
  | reject => exact h.endCommand hr _ _
  | answer => exact h.finish hr _
  | enter hf hd hv hs =>
    exact { h with
      rspValid_iff := by simpa [hf] using h.rspValid_iff
      running := fun _ => ⟨_, hd, (validate_congr (s := s) (t := s.enterXfer) rfl rfl _).trans hv,
        (transactions_length_congr (s := s) (t := s.enterXfer) rfl _).symm ▸ List.length_pos_iff.2 hs⟩
      reset_idle := by simp [hr] }
  | last _ _ hu =>
    obtain ⟨w, hw⟩ := perform_block hu
    exact (h.perform hu).finish (by simpa [hw] using hr) _
  | @advance i x u hf hd hx hu hl =>
    obtain ⟨hp, -, -⟩ := perform_frame hu
    obtain ⟨w, hw⟩ := perform_block hu
    have hrun : Running u i := by
      obtain ⟨j, hrun⟩ := h.running hf
      have hj : j = i := Except.ok.inj (hrun.1.symm.trans hd)
      exact Running.of_frame (hj ▸ hrun) hp hw
    have hl' : u.block.step.toNat + 1 ≠ (transactions i u).length := by
      rwa [transactions_length_congr (s := s) (by rw [hw]), hw]
    exact { h.perform hu with
      running := fun _ => ⟨i, hrun.advance hl'⟩ }

end MachineInv

/-! ### The statements -/

/-- Settles O43: sampling, reset and every move of the FSM keep the invariant. -/
theorem everyStepKeepsTheInvariant : Obligations.EveryStepKeepsTheInvariant := by
  intro s t hinv hstep
  rcases step_next_cases hstep with rfl | ⟨hheld, hmove⟩
  · exact hinv.sample.takeReset
  · exact hinv.sample.move hheld hmove

/-- Settles O10: the clauses are the two cases of `accept`, and `FsmMove.latched`. -/
theorem commandsAreAcceptedInIdleOnly : Obligations.CommandsAreAcceptedInIdleOnly := by
  intro s hruns
  have hstep := step_of_runsNext hruns
  refine ⟨fun hidle hvalid => ?_, fun hidle hvalid => ?_, fun hidle => ⟨by simpa [cmdReady] using hidle, ?_⟩⟩
  · rw [hstep, transition_of_idle (s := s.sample) hidle, State.accept, State.sample_pins, if_pos hvalid]
    rfl
  · rw [hstep, transition_of_idle (s := s.sample) hidle, State.accept, State.sample_pins, if_neg (by simp [hvalid])]
  · obtain ⟨t, ht⟩ := transition_next s.sample
    exact ⟨t, hstep.trans ht, (fsmMove_of_transition ht).latched hidle⟩

/-- Settles O11: the clauses are `endCommand`, the two cases of `release`, and `FsmMove.response`. -/
theorem responsesAreHeldUntilTaken : Obligations.ResponsesAreHeldUntilTaken := by
  refine ⟨fun _ _ _ => rfl, fun s hruns hresp => ?_,
    fun s t hruns hstep hf => (fsmMove_of_step hruns hstep).response hf⟩
  have hstep := (step_of_runsNext hruns).trans (transition_of_resp (s := s.sample) hresp)
  refine ⟨fun hready => ?_, fun hready => ?_⟩
  · rw [hstep, State.release, State.sample_pins, if_pos hready]
    rfl
  · rw [hstep, State.release, State.sample_pins, if_neg (by simp [hready])]

/-- Settles O46: by `FsmMove.mask`, since reset resolves no mask, and by ENABLE's check of the mask. -/
theorem resolvedMaskNeverChanges : Obligations.ResolvedMaskNeverChanges := by
  refine ⟨fun s t hruns hstep hvalid => ?_, fun s t hstep hunresolved hvalid => ?_, fun s irq hf hunresolved => ?_⟩
  · rcases (fsmMove_of_step hruns hstep).mask with ⟨hv, hkept⟩ | ⟨-, hunresolved⟩
    · exact ⟨hv.trans hvalid, hkept⟩
    · cases hvalid.symm.trans hunresolved
  · rcases step_next_cases hstep with rfl | ⟨-, hmove⟩
    · simp [State.takeReset] at hvalid
    · rcases hmove.mask with ⟨hv, -⟩ | ⟨hd, -⟩
      · cases (hv.symm.trans hvalid).symm.trans hunresolved
      · exact hd
  · have hmask : checkMask s.block = some .maskUnresolved := by simp [checkMask, hunresolved]
    cases hrange : checkRange s.params irq with
    | none => exact ⟨.maskUnresolved, nofun, exec_decode_fail hf (by
        simp [validate, checkEnable, firstFailing, hrange, hmask])⟩
    | some st =>
      obtain ⟨-, rfl⟩ := (checkRange_eq_some_iff s.params irq st).1 hrange
      exact ⟨.outOfRange, nofun, exec_decode_fail hf (by simp [validate, checkEnable, firstFailing, hrange])⟩

/-- Settles O48: by the effect of a step and the trace of a transaction. -/
theorem aStepPerformsAtMostOneTransaction : Obligations.AStepPerformsAtMostOneTransaction := by
  intro s t hstep
  obtain ⟨-, -, ⟨-, hghost⟩ | ⟨i, x, u, -, -, -, hu, -, hghost⟩⟩ := step_effect hstep <;> rw [hghost]
  · exact .inl rfl
  · obtain ⟨v, htrace⟩ := perform_trace hu
    exact .inr ⟨_, htrace⟩

/-- Settles O49: by the effect of a step and what a transaction does to `hazard_fault`. -/
theorem hazardFaultIsNeverCleared : Obligations.HazardFaultIsNeverCleared := by
  intro s t hstep
  obtain ⟨-, -, ⟨-, hghost⟩ | ⟨i, x, u, -, -, -, hu, -, hghost⟩⟩ := step_effect hstep <;> rw [hghost]
  · exact ⟨id, fun hclear hset => by cases hclear.symm.trans hset⟩
  · have hp : paramsOk s.params = true := paramsOk_of_step hstep
    rcases perform_hazardFault (s := s.sample) hp hu with hkept | ⟨hset, v, htrace, hout, hne⟩
    · exact ⟨hkept.trans, fun hclear hset => by cases (hkept.symm.trans hset).symm.trans hclear⟩
    · exact ⟨fun _ => hset, fun _ _ => ⟨v, htrace, hout, idOf_eq_ofNat v ▸ hne⟩⟩

/-- Settles O50: a transaction would lengthen the trace, so only the environment has acted. -/
theorem banksChangeOnlyByTransactions : Obligations.BanksChangeOnlyByTransactions := by
  intro s t hstep htrace
  obtain ⟨-, -, ⟨hbanks, -⟩ | ⟨i, x, u, -, -, -, hu, -, hghost⟩⟩ := step_effect hstep
  · rw [hbanks, State.sample_banks]
    exact ⟨environment_frame _ _ _, fun irq hne => (pendBit_environment _ _ _ irq).resolve_left hne⟩
  · obtain ⟨v, hlonger⟩ := perform_trace hu
    rw [hghost, hlonger, State.sample_ghost] at htrace
    simp at htrace

/-- Settles O5: the codes by evaluation; the derived outputs are read from their registers. -/
theorem codesAndDerivedOutputs : Obligations.CodesAndDerivedOutputs :=
  ⟨⟨rfl, rfl, rfl, rfl⟩, ⟨rfl, rfl, rfl, rfl, rfl⟩, fun _ => ⟨beq_iff_eq, rfl⟩⟩

/-- Settles O8: by the transition in DECODE and XFER and the frame of the environment. -/
theorem stepRunsTheDecodedCommand : Obligations.StepRunsTheDecodedCommand := by
  intro s i hruns hf hd
  refine ⟨(step_of_runsNext hruns).trans (transition_of_running hf hd), ?_⟩
  have hbanks : s.sample.banks = { s.banks with pend := s.sample.banks.pend } := environment_frame _ _ _
  rw [← hbanks]
  rfl

/-- Settles O14, by evaluation at launch. -/
theorem launchStateIsAsStated : Obligations.LaunchStateIsAsStated := by
  intro p b q
  exact ⟨rfl, rfl, rfl, rfl, rfl, rfl, rfl, rfl, rfl, rfl, rfl, rfl⟩

/-- Settles O44: reset is the launch of the example configuration with zero banks. -/
theorem launchMeetsTheInvariant : Obligations.LaunchMeetsTheInvariant :=
  ⟨fun _ _ q hp hb => .launch q hp hb, .launch [] (by decide) banksWf_reset⟩

end Sys2Proof.Machine
end

section
/-! The family 20_memory.md: the bus master port in XFER (R41, R54, R58, R59), the banks by bytes (R53), and what an
access changes (R47, R50, R56). -/

namespace Sys2Proof.Machine

variable {s t : State}

/-! ### The transaction presented -/

/-- The transactions of a command depend on the parameters and the block's own registers alone. -/
theorem transactions_congr (hp : t.params = s.params) (hb : t.block = s.block) (i : Instr) :
    transactions i t = transactions i s := by
  cases i <;> simp only [transactions, seqResolveMask, seqSetTrigger, seqSetSecurity, seqEnable, seqSetType, hp, hb]

/-- The transaction presented depends on no more than they do (20_memory.md R58). -/
theorem presented_congr (hp : t.params = s.params) (hb : t.block = s.block) : t.presented = s.presented := by
  have hd : t.fetch = s.fetch := by simp only [State.fetch, hb]
  simp only [State.presented, hb, hd, transactions_congr hp hb]

theorem presented_of_xfer {i : Instr} (hf : s.block.fsm = .xfer) (hd : s.fetch = .ok i) :
    s.presented = (transactions i s)[s.block.step.toNat]? := by
  simp only [State.presented, hf, hd]

/-- XFER without an acknowledge holds the state, whatever the command word (20_memory.md R59). -/
theorem transition_xfer_wait (hf : s.block.fsm = .xfer) (hb : s.ports.pins.busAck = false) :
    transition s = .next s := by
  cases hd : s.fetch with
  | ok i => rw [transition_of_running (.inr hf) hd, exec_xfer_wait hf hb]
  | error e => simp only [transition, hf, hd]

/-! ### A valid command accesses mapped registers -/

theorem firstFailing_eq_none_iff (checks : List (Option Status)) :
    firstFailing checks = none ↔ ∀ c ∈ checks, c = none := by
  simp [firstFailing, List.findSome?_eq_none_iff]

/-- The trigger engine's transactions are at the CFG word of its interrupt (42_trigger.md R97). -/
theorem mapped_of_mem_triggerSequence {p : Params} (hp : paramsOk p = true) {kind : TrigKind} {irq : IrqId}
    (hi : irq.toNat < p.nIrq) {h : Word} {x : Txn} (hx : x ∈ triggerSequence kind irq h) :
    mapped p x.bank x.off x.dir = true := by
  have hcfg := mapped_of_regAt (regAt_cfgOff hp irq hi)
  simp only [triggerSequence, List.mem_cons, List.not_mem_nil, or_false] at hx
  rcases hx with rfl | rfl
  · exact hcfg .read
  · exact hcfg .write

/-- The read-modify-write of SET_SECURITY is at the GROUP word, or at ENABLE_SET with the aliased base (R49). -/
theorem mapped_grpOff {p : Params} (hp : paramsOk p = true) {irq : IrqId} (hi : irq.toNat < p.nIrq) (dir : Dir) :
    mapped p .dist (grpOff p.groupBase irq) dir = true := by
  cases hg : p.groupBase with
  | dedicated => exact hg ▸ mapped_of_regAt (regAt_grpOff_dedicated hp irq hi hg) dir
  | aliased => exact hg ▸ mapped_of_regAt (regAt_grpOff_aliased hp irq hi hg) dir

/-- Every transaction of a valid command is at a register mapped in its direction (20_memory.md R41). -/
theorem mapped_of_mem_transactions (hp : paramsOk s.params = true) {i : Instr} (hv : validate i s = none) {x : Txn}
    (hx : x ∈ transactions i s) : mapped s.params x.bank x.off x.dir = true := by
  have inRange {irq : IrqId} (hc : checkRange s.params irq = none) : irq.toNat < s.params.nIrq :=
    (checkRange_eq_none_iff s.params irq).1 hc
  cases i with
  | regRead bank off =>
    obtain rfl := List.mem_singleton.1 hx
    exact (checkMapped_eq_none_iff s.params bank off .read).1 hv
  | regWrite bank off data =>
    obtain rfl := List.mem_singleton.1 hx
    exact (checkMapped_eq_none_iff s.params bank off .write).1 hv
  | resolveMask =>
    simp only [transactions, seqResolveMask] at hx
    split at hx
    · exact absurd hx List.not_mem_nil
    · obtain ⟨k, hk, rfl⟩ := List.mem_map.1 hx
      exact mapped_of_regAt (regAt_probeOff hp k (List.mem_range.1 hk)) .read
  | setTrigger kind irq => exact mapped_of_mem_triggerSequence hp (inRange hv) hx
  | setPending irq =>
    obtain rfl := List.mem_singleton.1 hx
    exact mapped_of_regAt (regAt_pendSetOff hp irq (inRange hv)) .write
  | clearPending irq =>
    obtain rfl := List.mem_singleton.1 hx
    exact mapped_of_regAt (regAt_pendClrOff hp irq (inRange hv)) .write
  | setSecurity sec irq =>
    simp only [transactions, seqSetSecurity, List.mem_cons, List.not_mem_nil, or_false] at hx
    rcases hx with rfl | rfl
    · exact mapped_grpOff hp (inRange hv) .read
    · exact mapped_grpOff hp (inRange hv) .write
  | enable irq =>
    have hi := inRange ((firstFailing_eq_none_iff _).1 hv _ List.mem_cons_self)
    simp only [transactions, seqEnable, List.mem_cons, List.not_mem_nil, or_false] at hx
    rcases hx with rfl | rfl | rfl | rfl | rfl
    · exact mapped_of_regAt (regAt_ctrlOff s.params) .read
    · exact mapped_of_regAt (regAt_ctrlOff s.params) .write
    · exact mapped_of_regAt (regAt_enSetOff hp irq hi) .write
    · exact mapped_of_regAt (regAt_tgtOff hp irq hi) .read
    · exact mapped_of_regAt (regAt_tgtOff hp irq hi) .write
  | disable irq =>
    obtain rfl := List.mem_singleton.1 hx
    exact mapped_of_regAt (regAt_enClrOff hp irq (inRange hv)) .write
  | ack =>
    obtain rfl := List.mem_singleton.1 hx
    exact mapped_of_regAt (regAt_ackOff s.params) .read
  | complete irq =>
    obtain rfl := List.mem_singleton.1 hx
    exact mapped_of_regAt (regAt_eoiOff s.params) .write
  | setType arg irq =>
    have hi := inRange ((firstFailing_eq_none_iff _).1 hv _ (List.mem_cons_of_mem _ List.mem_cons_self))
    simp only [transactions, seqSetType] at hx
    split at hx
    · exact mapped_of_mem_triggerSequence hp hi hx
    · exact absurd hx List.not_mem_nil

/-- A register stands at a word address inside its window (20_memory.md R41, R54). -/
theorem regAt_wordOffset {p : Params} (hp : paramsOk p = true) {bank : Bank} {off : Nat} {r : Reg}
    (hr : regAt p bank off = some r) : off % 4 = 0 ∧ off < 0x1000 := by
  have hn := paramsOk_nIrq hp
  obtain ⟨hhome, hex⟩ := (regAt_eq_some_iff hp bank off r).1 hr
  cases r <;> simp only [regHome, Prod.mk.injEq] at hhome <;> simp only [regExists] at hex <;> omega

theorem exists_regAt_of_mapped {p : Params} {bank : Bank} {off : Nat} {dir : Dir} (h : mapped p bank off dir = true) :
    ∃ r, regAt p bank off = some r := by
  cases hr : regAt p bank off with
  | some r => exact ⟨r, rfl⟩
  | none => simp [mapped, hr] at h

theorem finishOf_hold (i : Instr) (s : State) : (finishOf i s).block.hold = s.block.hold := by
  rcases finishOf_cases i s with ⟨d, heq⟩ | ⟨-, -, m, f, d, -, -, heq⟩ <;> rw [heq] <;> rfl

/-- The acknowledged transaction of a running command is performed; the command ends or goes on to the next one, whose
number fits in `step` (30_encoding.md R85). -/
theorem exec_xfer_acked {i : Instr} {x : Txn} (hf : s.block.fsm = .xfer) (hack : s.ports.pins.busAck = true)
    (hx : (transactions i s)[s.block.step.toNat]? = some x) (ht : s.perform x = some t) :
    ∃ u, exec i s = .next u ∧ u.banks = t.banks ∧ u.ghost = t.ghost ∧ u.block.hold = t.block.hold ∧
      (u.block.fsm = .resp ∨ (u.block.fsm = .xfer ∧ u.block.step.toNat = s.block.step.toNat + 1)) := by
  have hacked : ackedAt s s.block.step := ⟨hf, rfl, hack⟩
  by_cases hlast : stopOf i t = true ∨ s.block.step.toNat + 1 = (transactions i s).length
  · obtain ⟨-, hbanks, hghost, -, hresp, -⟩ := finishOf_frame i t
    exact ⟨_, exec_xfer_last hacked hx ht hlast, hbanks, hghost, finishOf_hold i t, .inl hresp⟩
  · obtain ⟨hstop, hl⟩ := not_or.1 hlast
    obtain ⟨w, hw⟩ := perform_block ht
    have hlt : s.block.step.toNat < (transactions i s).length := (List.getElem?_eq_some_iff.1 hx).1
    have h8 := transactions_length_le i s
    refine ⟨_, exec_xfer_advance hacked hx ht (Bool.not_eq_true _ ▸ hstop) hl, rfl, rfl, rfl, .inr ⟨?_, ?_⟩⟩
    · simpa [hw] using hf
    · rw [State.advance_step, hw, BitVec.toNat_add]
      simp only [BitVec.toNat_ofNat]
      omega

/-! ### The banks by bytes (20_memory.md R53) -/

/-- The byte at an offset of a bank's window: the lane of the word that holds it. -/
def State.laneAt (s : State) (bank : Bank) (o : Nat) : Option (BitVec 8) :=
  ((regAt s.params bank (o - o % 4)).bind fun r => if r = .ack then none else s.peek r).map
    fun w => w.extractLsb' (8 * (o % 4)) 8

theorem not_inCpuWindow_of_inDistWindow {p : Params} (hp : paramsOk p = true) {a : Word}
    (h : (a - p.distBase).toNat < 0x1000) : ¬ (a - p.cpuBase).toNat < 0x1000 := by
  have hw := paramsOk_windows hp
  rw [BitVec.toNat_sub] at h ⊢
  omega

/-- Inside a window the byte at an address is the lane at its offset. -/
theorem byteAt_inWindow (hp : paramsOk s.params = true) {bank : Bank} {a : Word}
    (h : (a - bankBase s.params bank).toNat < 0x1000) :
    s.byteAt a = s.laneAt bank (a - bankBase s.params bank).toNat := by
  cases bank with
  | dist => exact if_pos h
  | cpu => exact (if_neg fun hd => not_inCpuWindow_of_inDistWindow hp hd h).trans (if_pos h)

/-- Outside the two windows no register is mapped, so there is no byte. -/
theorem byteAt_outside {a : Word} (h : ∀ bank, ¬ (a - bankBase s.params bank).toNat < 0x1000) : s.byteAt a = none :=
  (if_neg (h .dist)).trans (if_neg (h .cpu))

theorem busAddress_add (p : Params) (bank : Bank) (off k : Nat) :
    busAddress p bank off + BitVec.ofNat 32 k = busAddress p bank (off + k) := by
  rw [busAddress, busAddress, BitVec.ofNat_add, BitVec.add_assoc]

theorem busAddress_sub_base (p : Params) (bank : Bank) {o : Nat} (h : o < 0x1000) :
    (busAddress p bank o - bankBase p bank).toNat = o := by
  rw [busAddress, BitVec.add_comm, BitVec.add_sub_cancel, BitVec.toNat_ofNat]
  omega

theorem busAddress_offset (p : Params) (bank : Bank) (a : Word) :
    busAddress p bank (a - bankBase p bank).toNat = a := by
  rw [busAddress, BitVec.ofNat_toNat, BitVec.setWidth_eq, BitVec.add_comm, BitVec.sub_add_cancel]

/-- Lane `k` of a register's word stands `k` bytes after the register. -/
theorem laneAt_of_regAt {bank : Bank} {off k : Nat} {r : Reg} (hr : regAt s.params bank off = some r)
    (ha : off % 4 = 0) (hk : k < 4) (hn : r ≠ .ack) :
    s.laneAt bank (off + k) = (s.peek r).map fun w => w.extractLsb' (8 * k) 8 := by
  have hlane : (off + k) % 4 = k := by omega
  rw [State.laneAt, hlane, Nat.add_sub_cancel, hr, Option.bind_some, if_neg hn]

/-- A byte stays where the register that holds it reads the same. -/
theorem laneAt_congr (hp : t.params = s.params) {bank : Bank} {o : Nat}
    (h : ∀ r, regAt s.params bank (o - o % 4) = some r → t.peek r = s.peek r) :
    t.laneAt bank o = s.laneAt bank o := by
  simp only [State.laneAt, hp]
  cases hr : regAt s.params bank (o - o % 4) with
  | none => rfl
  | some r => simp only [Option.bind_some, h r hr]

/-! ### What a write changes (20_memory.md R47, R50, R56) -/

/-- A write leaves the word of every register over another piece of state. -/
theorem peek_of_poke {r r' : Reg} {v wi : Word} (hb : s.banks.poke r v wi = some t.banks) (hports : t.ports = s.ports)
    (hn : ¬ sameState r r') : t.peek r' = s.peek r' := by
  have otherWord {n : Nat} (x : BitVec n) {j k : Nat} (w : Word) (hjk : ¬ j = k) :
      some (wordAt (setWordAt x j w) k) = some (wordAt x k) :=
    congrArg some (wordAt_setWordAt_ne x j k w (Ne.symm hjk))
  cases r <;> simp only [Banks.poke, Option.some.injEq, reduceCtorEq] at hb <;>
    cases r' <;> simp only [State.peek, ← hb, hports]
  case enableSet.enableSet | pendingSet.pendingSet | enableClear.enableClear | pendingClear.pendingClear |
      group.group | target.target | config.config =>
    exact otherWord _ _ fun hjk => hn (hjk ▸ rfl)
  case enableSet.enableClear | enableClear.enableSet | pendingSet.pendingClear | pendingClear.pendingSet =>
    exact otherWord _ _ hn
  case ctrl.ctrl => exact absurd rfl hn

/-- Reading a word back and writing it again under an idempotent access type changes nothing. -/
theorem setWordAt_idem {n : Nat} (x : BitVec n) {j : Nat} (hj : 32 * j + 32 ≤ n) {f : Word → Word}
    (hf : ∀ w, f (f w) = f w) :
    setWordAt (setWordAt x j (f (wordAt x j))) j (f (wordAt (setWordAt x j (f (wordAt x j))) j)) =
      setWordAt x j (f (wordAt x j)) := by
  rw [wordAt_setWordAt_same x j _ hj, hf, setWordAt_setWordAt]

theorem writeRw_idem (v wi old : Word) : writeRw (writeRw old v wi) v wi = writeRw old v wi := by
  apply BitVec.eq_of_getLsbD_eq
  intro i _
  simp only [getLsbD_writeRw]
  split <;> rfl

theorem writeW1s_idem (v wi old : Word) : writeW1s (writeW1s old v wi) v wi = writeW1s old v wi := by
  simp only [writeW1s, BitVec.or_assoc, BitVec.or_self]

theorem writeW1c_idem (v wi old : Word) : writeW1c (writeW1c old v wi) v wi = writeW1c old v wi := by
  simp only [writeW1c, BitVec.and_assoc, BitVec.and_self]

/-- Every access type is idempotent: the same write again changes nothing. -/
theorem poke_poke {p : Params} (hp : paramsOk p = true) {b b' : Banks} {r : Reg} (hr : regExists p r) {v wi : Word}
    (hb : b.poke r v wi = some b') : b'.poke r v wi = some b' := by
  have hn := paramsOk_nIrq hp
  cases r <;> simp only [Banks.poke, Option.some.injEq, reduceCtorEq] at hb <;> subst hb <;>
    simp only [regExists] at hr <;> simp only [Banks.poke]
  case group | target | config =>
    rw [setWordAt_idem (f := (writeRw · v wi)) _ ?_ (writeRw_idem v wi)]
    omega
  case enableSet | pendingSet =>
    rw [setWordAt_idem (f := (writeW1s · v wi)) _ ?_ (writeW1s_idem v wi)]
    omega
  case enableClear | pendingClear =>
    rw [setWordAt_idem (f := (writeW1c · v wi)) _ ?_ (writeW1c_idem v wi)]
    omega
  case ctrl => rw [writeRw_idem]

/-- A write performed at a register stores under its access type and write-ignore mask (R47, 10_state.md R31). -/
theorem perform_write_at {bank : Bank} {off : Nat} {v : Word} {r : Reg} (hr : regAt s.params bank off = some r)
    (ht : s.perform (.write bank off v) = some t) :
    s.banks.poke r v (writeIgnoreAt s.params bank off) = some t.banks ∧
      t.ghost = (s.ghost.record ⟨.write, bank, off, v⟩).afterWrite r v := by
  obtain ⟨r', b, hr', hb, rfl⟩ := (busWrite_eq_some_iff s bank off v).1 ht
  cases hr'.symm.trans hr
  exact ⟨hb, rfl⟩

/-- A read performed at a register leaves the banks; its effect on the ghost state is the register's (R51). -/
theorem perform_read_at {bank : Bank} {off : Nat} {r : Reg} (hr : regAt s.params bank off = some r)
    (ht : s.perform (.read bank off) = some t) :
    t.banks = s.banks ∧ ∃ v, t.ghost = (s.ghost.record ⟨.read, bank, off, v⟩).afterRead s.params r v := by
  obtain ⟨r', v, hr', -, rfl⟩ := (busRead_eq_some_iff s bank off).1 ht
  cases hr'.symm.trans hr
  exact ⟨rfl, v, rfl⟩

/-! ### The statements -/

/-- Settles O16: sampling leaves what the transaction presented depends on, and XFER waits for the acknowledge. -/
theorem unacknowledgedTransactionWaits : Obligations.UnacknowledgedTransactionWaits := by
  intro s hruns hf hb
  have hsame : s.sample.presented = s.presented := presented_congr rfl rfl
  refine ⟨(step_of_runsNext hruns).trans (transition_xfer_wait hf hb), rfl, rfl, hsame, ?_, ?_, ?_, ?_⟩
  · rw [State.busReq, hsame, State.busReq]
  · rw [State.busWe, hsame, State.busWe]
  · rw [State.busAddr, hsame, State.busAddr, State.sample_params]
  · rw [State.busWdata, hsame, State.busWdata]

/-- Settles O45: the transaction numbered `step` of a valid command is at a mapped register, so it can be performed. -/
theorem runningCommandMakesProgress : Obligations.RunningCommandMakesProgress := by
  intro s hinv hf
  obtain ⟨i, hd, hv, hl⟩ := hinv.running hf
  obtain ⟨x, hx⟩ : ∃ x, (transactions i s)[s.block.step.toNat]? = some x := ⟨_, List.getElem?_eq_getElem hl⟩
  have hmapped := mapped_of_mem_transactions hinv.params_ok hv (List.mem_of_getElem? hx)
  obtain ⟨t, ht⟩ := Option.isSome_iff_exists.1 ((perform_isSome s x).trans hmapped)
  obtain ⟨r, hr⟩ := exists_regAt_of_mapped hmapped
  obtain ⟨haligned, hwindow⟩ := regAt_wordOffset hinv.params_ok hr
  have hpresented : s.presented = some x := (presented_of_xfer hf hd).trans hx
  refine ⟨x, t, hpresented, ?_, ht, ?_, haligned, hwindow, fun hack => ?_⟩
  · rw [State.busReq, hpresented, Option.isSome_some]
  · rw [State.busAddr, hpresented, Option.map_some, busAddress]
  · rw [transition_of_running (.inr hf) hd]
    exact exec_xfer_acked hf hack hx ht

/-- Settles O52: the byte at an address is a lane of one register, and only those over the state written read
differently. -/
theorem writesChangeOnlyTheirWord : Obligations.WritesChangeOnlyTheirWord := by
  intro s t bank off v r hp hr ht a
  obtain ⟨hparams, hports, -⟩ := perform_frame ht
  obtain ⟨hpoke, -⟩ := perform_write_at hr ht
  by_cases hin : ∃ bank', (a - bankBase s.params bank').toNat < 0x1000
  · obtain ⟨bank', hin⟩ := hin
    rw [byteAt_inWindow hp hin, byteAt_inWindow (hparams ▸ hp) (hparams ▸ hin), hparams]
    generalize ho : (a - bankBase s.params bank').toNat = o at hin
    by_cases hsame : ∃ r', sameState r r' ∧ regAt s.params bank' (o - o % 4) = some r'
    · obtain ⟨r', hsame, hr'⟩ := hsame
      obtain ⟨hhome, hex⟩ := (regAt_eq_some_iff hp bank' _ r').1 hr'
      refine .inr ⟨r', o % 4, hsame, hex, Nat.mod_lt _ (by omega), ?_⟩
      rw [hhome, busAddress_add, Nat.sub_add_cancel (Nat.mod_le o 4), ← ho, busAddress_offset]
    · exact .inl (laneAt_congr hparams fun r' hr' => peek_of_poke hpoke hports fun h => hsame ⟨r', h, hr'⟩)
  · have hout := not_exists.1 hin
    exact .inl ((byteAt_outside (hparams ▸ hout)).trans (byteAt_outside hout).symm)

/-- Settles O53: every access type is idempotent, and only ACK and EOI touch the ghost state beside the trace. -/
theorem accessesAreIdempotent : Obligations.AccessesAreIdempotent := by
  intro s t u bank off v r hp hr
  refine ⟨fun hne ht hu => ?_, fun hne ht => ?_⟩
  · obtain ⟨hparams, -, -⟩ := perform_frame ht
    obtain ⟨hpoke, hghost⟩ := perform_write_at hr ht
    obtain ⟨hpoke', hghost'⟩ := perform_write_at (hparams ▸ hr) hu
    rw [Ghost.afterWrite_of_ne hne] at hghost hghost'
    have hrepeat := poke_poke hp ((regAt_eq_some_iff hp bank off r).1 hr).2 hpoke
    rw [hparams, hrepeat] at hpoke'
    exact ⟨(Option.some.inj hpoke').symm, by simp [hghost', hghost], by simp [hghost', hghost]⟩
  · obtain ⟨hbanks, w, hghost⟩ := perform_read_at hr ht
    rw [Ghost.afterRead_of_ne hne] at hghost
    exact ⟨hbanks, by simp [hghost], by simp [hghost]⟩

/-- Settles O54: the address plus `k` is at the register's offset plus `k` in its window. -/
theorem laneKIsTheByteAtOffsetK : Obligations.LaneKIsTheByteAtOffsetK := by
  intro s bank off r w k hp hr hne hw hk
  obtain ⟨haligned, hwindow⟩ := regAt_wordOffset hp hr
  have hin : off + k < 0x1000 := by omega
  have hsub := busAddress_sub_base s.params bank hin
  rw [busAddress_add, byteAt_inWindow (bank := bank) hp (hsub.symm ▸ hin), hsub,
    laneAt_of_regAt hr haligned hk hne, hw, Option.map_some]

end Sys2Proof.Machine
end

section
/-! The family 30_encoding.md: the fields of a command word, format by format (R68 to R71), and the opcode map as one
equivalence between words and well-formed instructions (R73, R75). -/

namespace Sys2Proof

/-! ### A word of a format and its fields -/

/-- A field is read bit by bit. -/
theorem extractLsb'_eq_of_getLsbD {cmd : Word} {start len : Nat} {v : BitVec len}
    (h : ∀ k, k < len → cmd.getLsbD (start + k) = v.getLsbD k) : cmd.extractLsb' start len = v := by
  apply BitVec.eq_of_getLsbD_eq
  intro k hk
  rw [BitVec.getLsbD_extractLsb', decide_eq_true hk, Bool.true_and, h k hk]

/-- A bit of the word, found in the field that holds it. -/
theorem getLsbD_extractLsb'_sub (cmd : Word) {start len k : Nat} (hlo : start ≤ k) (hhi : k < start + len) :
    (cmd.extractLsb' start len).getLsbD (k - start) = cmd.getLsbD k := by
  rw [BitVec.getLsbD_extractLsb', decide_eq_true (by omega), Bool.true_and, Nat.add_sub_cancel' hlo]

/-- The bits of a reserved field are 0. -/
theorem getLsbD_of_reserved {cmd : Word} {start len k : Nat} (h : cmd.extractLsb' start len = 0#len) (hlo : start ≤ k)
    (hhi : k < start + len) : false = cmd.getLsbD k := by
  rw [← getLsbD_extractLsb'_sub cmd hlo hhi, h, BitVec.getLsbD_zero]

theorem opField_encodeN (op : BitVec 4) : opField (encodeN op) = op :=
  extractLsb'_eq_of_getLsbD fun k hk => by
    rw [getLsbD_encodeN, if_neg (by omega), Nat.add_sub_cancel_left]

theorem reservedZeroN_encodeN (op : BitVec 4) : reservedZeroN (encodeN op) = true :=
  beq_iff_eq.2 <| extractLsb'_eq_of_getLsbD fun k hk => by
    rw [getLsbD_encodeN, if_pos (by omega), BitVec.getLsbD_zero]

theorem opField_encodeI (op arg : BitVec 4) (irq : IrqId) : opField (encodeI op arg irq) = op :=
  extractLsb'_eq_of_getLsbD fun k hk => by
    rw [getLsbD_encodeI, if_neg (by omega), if_neg (by omega), if_neg (by omega), if_neg (by omega),
      Nat.add_sub_cancel_left]

theorem argField_encodeI (op arg : BitVec 4) (irq : IrqId) : argField (encodeI op arg irq) = arg :=
  extractLsb'_eq_of_getLsbD fun k hk => by
    rw [getLsbD_encodeI, if_neg (by omega), if_neg (by omega), if_pos (by omega), Nat.add_sub_cancel_left]

theorem irqField_encodeI (op arg : BitVec 4) (irq : IrqId) : irqField (encodeI op arg irq) = irq :=
  extractLsb'_eq_of_getLsbD fun k hk => by
    rw [getLsbD_encodeI, if_pos (by omega), Nat.zero_add]

theorem reservedZeroI_encodeI (op arg : BitVec 4) (irq : IrqId) : reservedZeroI (encodeI op arg irq) = true := by
  rw [reservedZeroI, Bool.and_eq_true, beq_iff_eq, beq_iff_eq]
  constructor <;> refine extractLsb'_eq_of_getLsbD fun k hk => ?_
  · rw [getLsbD_encodeI, if_neg (by omega), if_neg (by omega), if_neg (by omega), if_pos (by omega),
      BitVec.getLsbD_zero]
  · rw [getLsbD_encodeI, if_neg (by omega), if_pos (by omega), BitVec.getLsbD_zero]

theorem opField_encodeR (op : BitVec 4) (bank : Bank) (off : BitVec 12) : opField (encodeR op bank off) = op :=
  extractLsb'_eq_of_getLsbD fun k hk => by
    rw [getLsbD_encodeR, if_neg (by omega), if_neg (by omega), if_neg (by omega), Nat.add_sub_cancel_left]

theorem bankField_encodeR (op : BitVec 4) (bank : Bank) (off : BitVec 12) : bankField (encodeR op bank off) = bank := by
  rw [bankField, getLsbD_encodeR]
  cases bank <;> rfl

theorem offField_encodeR (op : BitVec 4) (bank : Bank) (off : BitVec 12) : offField (encodeR op bank off) = off :=
  extractLsb'_eq_of_getLsbD fun k hk => by
    rw [getLsbD_encodeR, if_pos (by omega), Nat.zero_add]

theorem reservedZeroR_encodeR (op : BitVec 4) (bank : Bank) (off : BitVec 12) :
    reservedZeroR (encodeR op bank off) = true :=
  beq_iff_eq.2 <| extractLsb'_eq_of_getLsbD fun k hk => by
    rw [getLsbD_encodeR, if_neg (by omega), if_pos (by omega), BitVec.getLsbD_zero]

/-- A format N word is determined by OP (R68). -/
theorem encodeN_fields {cmd : Word} (h : reservedZeroN cmd = true) : encodeN (opField cmd) = cmd := by
  have hzero := beq_iff_eq.1 h
  apply BitVec.eq_of_getLsbD_eq
  intro k hk
  rw [getLsbD_encodeN]
  split
  · exact getLsbD_of_reserved hzero (by omega) (by omega)
  · exact getLsbD_extractLsb'_sub cmd (by omega) (by omega)

/-- A format I word is determined by OP, ARG and IRQ (R69). -/
theorem encodeI_fields {cmd : Word} (h : reservedZeroI cmd = true) :
    encodeI (opField cmd) (argField cmd) (irqField cmd) = cmd := by
  rw [reservedZeroI, Bool.and_eq_true, beq_iff_eq, beq_iff_eq] at h
  obtain ⟨hhigh, hlow⟩ := h
  apply BitVec.eq_of_getLsbD_eq
  intro k hk
  rw [getLsbD_encodeI]
  split_ifs
  · exact getLsbD_extractLsb'_sub cmd (Nat.zero_le k) (by omega)
  · exact getLsbD_of_reserved hlow (by omega) (by omega)
  · exact getLsbD_extractLsb'_sub cmd (by omega) (by omega)
  · exact getLsbD_of_reserved hhigh (by omega) (by omega)
  · exact getLsbD_extractLsb'_sub cmd (by omega) (by omega)

/-- BANK is bit 27 (R70). -/
theorem code_bankField (cmd : Word) : (bankField cmd).code.getLsbD 0 = cmd.getLsbD 27 := by
  rw [bankField]
  cases cmd.getLsbD 27 <;> rfl

/-- A format R word is determined by OP, BANK and OFF (R70). -/
theorem encodeR_fields {cmd : Word} (h : reservedZeroR cmd = true) :
    encodeR (opField cmd) (bankField cmd) (offField cmd) = cmd := by
  have hzero := beq_iff_eq.1 h
  apply BitVec.eq_of_getLsbD_eq
  intro k hk
  rw [getLsbD_encodeR]
  split_ifs
  · exact getLsbD_extractLsb'_sub cmd (Nat.zero_le k) (by omega)
  · exact getLsbD_of_reserved hzero (by omega) (by omega)
  · obtain rfl : k = 27 := by omega
    exact code_bankField cmd
  · exact getLsbD_extractLsb'_sub cmd (by omega) (by omega)

/-! ### What the decoder of a format accepts -/

section
variable {cmd : Word} {op : BitVec 4} (hop : opField cmd = op) {i : Instr}
include hop

theorem decodeN_eq_ok_iff (j : Instr) : decodeN cmd j = .ok i ↔ cmd = encodeN op ∧ i = j := by
  subst hop
  constructor
  · intro h
    unfold decodeN at h
    split at h
    · next hz =>
      cases h
      exact ⟨(encodeN_fields hz).symm, rfl⟩
    · cases h
  · rintro ⟨hcmd, rfl⟩
    rw [decodeN, hcmd, if_pos (reservedZeroN_encodeN _)]

theorem decodeI_eq_ok_iff (mk : BitVec 4 → IrqId → Option Instr) :
    decodeI cmd mk = .ok i ↔ ∃ arg irq, cmd = encodeI op arg irq ∧ mk arg irq = some i := by
  subst hop
  constructor
  · intro h
    unfold decodeI at h
    split at h
    · next hz =>
      split at h
      · next hmk =>
        cases h
        exact ⟨_, _, (encodeI_fields hz).symm, hmk⟩
      · cases h
    · cases h
  · rintro ⟨arg, irq, hcmd, hmk⟩
    rw [decodeI, hcmd, if_pos (reservedZeroI_encodeI _ arg irq), argField_encodeI, irqField_encodeI, hmk]

theorem decodeR_eq_ok_iff (mk : Bank → BitVec 12 → Instr) :
    decodeR cmd mk = .ok i ↔ ∃ bank off, cmd = encodeR op bank off ∧ alignedOff off = true ∧ i = mk bank off := by
  subst hop
  constructor
  · intro h
    unfold decodeR at h
    split at h
    · next hz =>
      split at h
      · next ha =>
        cases h
        exact ⟨_, _, (encodeR_fields hz).symm, ha, rfl⟩
      · cases h
    · cases h
  · rintro ⟨bank, off, hcmd, ha, rfl⟩
    rw [decodeR, hcmd, if_pos (reservedZeroR_encodeR _ bank off), offField_encodeR, bankField_encodeR, if_pos ha]

end

/-! ### The codes of ARG (R72) -/

theorem trigKindOfArg_eq_some_iff (arg : BitVec 4) (kind : TrigKind) :
    trigKindOfArg arg = some kind ↔ arg = kind.code := by
  revert arg
  cases kind <;> decide

theorem securityOfArg_eq_some_iff (arg : BitVec 4) (sec : Security) :
    securityOfArg arg = some sec ↔ arg = sec.code := by
  revert arg
  cases sec <;> decide

theorem noArg_eq_some_iff (mk : IrqId → Instr) (arg : BitVec 4) (irq : IrqId) (i : Instr) :
    noArg mk arg irq = some i ↔ arg = 0#4 ∧ i = mk irq := by
  unfold noArg
  split <;> simp [*, eq_comm]

/-! ### The opcode map (R73) -/

theorem opField_eq_of_toNat {cmd : Word} {n : Nat} (h : (opField cmd).toNat = n) : opField cmd = BitVec.ofNat 4 n := by
  rw [← h, BitVec.ofNat_toNat, BitVec.setWidth_eq]

/-- The words a command decodes from are its encodings: this is the opcode map read in both directions (R68 to R73). -/
theorem decode_eq_ok_iff (cmd data : Word) (i : Instr) :
    decode cmd data = .ok i ↔
      i.wf = true ∧ encodeCmd i = cmd ∧ ∀ bank off d, i = .regWrite bank off d → d = data := by
  constructor
  · intro h
    unfold decode at h
    split at h
    case h_1 hop | h_2 hop =>
      obtain ⟨bank, off, rfl, haligned, rfl⟩ := (decodeR_eq_ok_iff (opField_eq_of_toNat hop) _).1 h
      exact ⟨haligned, rfl, fun _ _ _ heq => by cases heq <;> rfl⟩
    case h_3 hop | h_10 hop =>
      obtain ⟨rfl, rfl⟩ := (decodeN_eq_ok_iff (opField_eq_of_toNat hop) _).1 h
      exact ⟨rfl, rfl, nofun⟩
    case h_4 hop =>
      obtain ⟨arg, irq, rfl, hmk⟩ := (decodeI_eq_ok_iff (opField_eq_of_toNat hop) _).1 h
      obtain ⟨kind, hkind, rfl⟩ := Option.map_eq_some_iff.1 hmk
      obtain rfl := (trigKindOfArg_eq_some_iff arg kind).1 hkind
      exact ⟨rfl, rfl, nofun⟩
    case h_7 hop =>
      obtain ⟨arg, irq, rfl, hmk⟩ := (decodeI_eq_ok_iff (opField_eq_of_toNat hop) _).1 h
      obtain ⟨sec, hsec, rfl⟩ := Option.map_eq_some_iff.1 hmk
      obtain rfl := (securityOfArg_eq_some_iff arg sec).1 hsec
      exact ⟨rfl, rfl, nofun⟩
    case h_5 hop | h_6 hop | h_8 hop | h_9 hop | h_11 hop =>
      obtain ⟨arg, irq, rfl, hmk⟩ := (decodeI_eq_ok_iff (opField_eq_of_toNat hop) _).1 h
      obtain ⟨rfl, rfl⟩ := (noArg_eq_some_iff _ arg irq i).1 hmk
      exact ⟨rfl, rfl, nofun⟩
    case h_12 hop =>
      obtain ⟨arg, irq, rfl, hmk⟩ := (decodeI_eq_ok_iff (opField_eq_of_toNat hop) _).1 h
      cases hmk
      exact ⟨rfl, rfl, nofun⟩
    case h_13 => cases h
  · rintro ⟨hwf, rfl, hdata⟩
    cases i with
    | regRead bank off =>
      rw [encodeCmd, decode, opField_encodeR]
      exact (decodeR_eq_ok_iff (opField_encodeR _ bank off) _).2 ⟨bank, off, rfl, hwf, rfl⟩
    | regWrite bank off d =>
      obtain rfl := hdata bank off d rfl
      rw [encodeCmd, decode, opField_encodeR]
      exact (decodeR_eq_ok_iff (opField_encodeR _ bank off) _).2 ⟨bank, off, rfl, hwf, rfl⟩
    | resolveMask | ack =>
      rw [encodeCmd, decode, opField_encodeN]
      exact (decodeN_eq_ok_iff (opField_encodeN _) _).2 ⟨rfl, rfl⟩
    | setTrigger kind irq =>
      rw [encodeCmd, decode, opField_encodeI]
      exact (decodeI_eq_ok_iff (opField_encodeI _ _ irq) _).2
        ⟨kind.code, irq, rfl, by rw [(trigKindOfArg_eq_some_iff _ kind).2 rfl, Option.map_some]⟩
    | setSecurity sec irq =>
      rw [encodeCmd, decode, opField_encodeI]
      exact (decodeI_eq_ok_iff (opField_encodeI _ _ irq) _).2
        ⟨sec.code, irq, rfl, by rw [(securityOfArg_eq_some_iff _ sec).2 rfl, Option.map_some]⟩
    | setPending irq | clearPending irq | enable irq | disable irq | complete irq =>
      rw [encodeCmd, decode, opField_encodeI]
      exact (decodeI_eq_ok_iff (opField_encodeI _ _ irq) _).2 ⟨0#4, irq, rfl, rfl⟩
    | setType arg irq =>
      rw [encodeCmd, decode, opField_encodeI]
      exact (decodeI_eq_ok_iff (opField_encodeI _ _ irq) _).2 ⟨arg, irq, rfl, rfl⟩

/-- The command with another data word: REG_WRITE alone has one (R67). -/
def Instr.withData (data : Word) : Instr → Instr
  | .regWrite bank off _ => .regWrite bank off data
  | i => i

theorem Instr.withData_of_ne (data : Word) {i : Instr} (h : ∀ bank off d, i ≠ .regWrite bank off d) :
    i.withData data = i := by
  cases i with
  | regWrite bank off d => exact absurd rfl (h bank off d)
  | _ => rfl

/-- The data word is looked at under the opcode of REG_WRITE alone (R67). -/
theorem decode_congr_data {cmd : Word} (hop : opField cmd ≠ 0x2#4) (data data' : Word) :
    decode cmd data' = decode cmd data := by
  unfold decode
  split
  case h_2 h2 => exact absurd (opField_eq_of_toNat h2) hop
  all_goals rfl

/-- Another data word decodes to the same command with that data word, or to the same error (R67). -/
theorem decode_withData (cmd data data' : Word) : decode cmd data' = (decode cmd data).map (Instr.withData data') := by
  by_cases hop : opField cmd = 0x2#4
  · rw [decode, decode, hop]
    change decodeR cmd _ = (decodeR cmd _).map _
    unfold decodeR
    split_ifs <;> rfl
  · rw [decode_congr_data hop data data']
    cases hd : decode cmd data with
    | error e => rfl
    | ok i =>
      obtain ⟨-, hcmd, -⟩ := (decode_eq_ok_iff cmd data i).1 hd
      have hne : ∀ bank off d, i ≠ .regWrite bank off d := by
        rintro bank off d rfl
        exact hop (hcmd ▸ opField_encodeR _ bank off)
      rw [Except.map, Instr.withData_of_ne data' hne]

/-! ### The statements -/

/-- Settles O1: the instruction's word and data word meet the right side of the opcode map. -/
theorem decodeOfEncodeIsTheInstruction : Obligations.DecodeOfEncodeIsTheInstruction := fun i hwf =>
  (decode_eq_ok_iff _ _ i).2 ⟨hwf, rfl, fun _ _ _ heq => heq ▸ rfl⟩

/-- Settles O2: the opcode map from left to right. -/
theorem encodeOfDecodeIsTheWord : Obligations.EncodeOfDecodeIsTheWord := fun cmd data i =>
  (decode_eq_ok_iff cmd data i).1

/-- Settles O3, by evaluation. -/
theorem wordsOfEveryCommandDecode : Obligations.WordsOfEveryCommandDecode :=
  ⟨rfl, rfl, rfl, rfl, rfl, rfl, rfl, rfl, rfl, rfl, rfl, rfl⟩

/-- Settles O4: a change of the data word is `Instr.withData` on the command decoded. -/
theorem onlyRegWriteUsesTheDataWord : Obligations.OnlyRegWriteUsesTheDataWord := by
  intro cmd data data'
  have hmap := decode_withData cmd data data'
  refine ⟨fun i hi hne => ?_, fun bank off d hd => ⟨?_, ?_⟩, fun e he => ?_⟩
  · rw [hmap, hi, Except.map, Instr.withData_of_ne data' hne]
  · obtain ⟨-, -, hdata⟩ := (decode_eq_ok_iff cmd data _).1 hd
    exact hdata bank off d rfl
  · rw [hmap, hd]
    rfl
  · rw [hmap, he]
    rfl

end Sys2Proof
end

section
/-! The family 30_encoding.md: the conditions of R74 against the decoder and the checks of DECODE (R75, R79, R80), and
the run of a whole command (R85, R86). -/

namespace Sys2Proof.Machine

variable {s t : State}

/-! ### The fields as numbers (R68 to R70) -/

theorem opField_toNat (cmd : Word) : (opField cmd).toNat = cmd.toNat / 2 ^ 28 := by
  have := cmd.isLt
  rw [opField, BitVec.extractLsb'_toNat, Nat.shiftRight_eq_div_pow]
  omega

theorem argField_toNat (cmd : Word) : (argField cmd).toNat = cmd.toNat / 2 ^ 12 % 2 ^ 4 := by
  rw [argField, BitVec.extractLsb'_toNat, Nat.shiftRight_eq_div_pow]

theorem offField_toNat (cmd : Word) : (offField cmd).toNat = cmd.toNat % 2 ^ 12 := by
  rw [offField, BitVec.extractLsb'_toNat, Nat.shiftRight_zero]

theorem extractLsb'_beq_zero_iff (cmd : Word) (start len : Nat) :
    (cmd.extractLsb' start len == 0#len) = true ↔ cmd.toNat / 2 ^ start % 2 ^ len = 0 := by
  rw [beq_iff_eq, ← BitVec.toNat_inj, BitVec.extractLsb'_toNat, Nat.shiftRight_eq_div_pow, BitVec.toNat_zero]

theorem reservedZeroN_iff (cmd : Word) : reservedZeroN cmd = true ↔ cmd.toNat % 2 ^ 28 = 0 := by
  rw [reservedZeroN, extractLsb'_beq_zero_iff, Nat.pow_zero, Nat.div_one]

theorem reservedZeroI_iff (cmd : Word) :
    reservedZeroI cmd = true ↔ cmd.toNat / 2 ^ 16 % 2 ^ 12 = 0 ∧ cmd.toNat / 2 ^ 10 % 2 ^ 2 = 0 := by
  rw [reservedZeroI, Bool.and_eq_true, extractLsb'_beq_zero_iff, extractLsb'_beq_zero_iff]

theorem reservedZeroR_iff (cmd : Word) : reservedZeroR cmd = true ↔ cmd.toNat / 2 ^ 12 % 2 ^ 15 = 0 :=
  extractLsb'_beq_zero_iff cmd 12 15

theorem alignedOff_iff_mod (off : BitVec 12) : alignedOff off = true ↔ off.toNat % 4 = 0 := by
  rw [alignedOff, beq_iff_eq, ← BitVec.toNat_inj, BitVec.extractLsb'_toNat, BitVec.toNat_zero, Nat.shiftRight_zero]

theorem bankField_eq (cmd : Word) : bankField cmd = if cmd.toNat / 2 ^ 27 % 2 = 0 then .dist else .cpu := by
  rw [bankField, BitVec.getLsbD, Nat.testBit_eq_decide_div_mod_eq]
  rcases Nat.mod_two_eq_zero_or_one (cmd.toNat / 2 ^ 27) with h | h <;> rw [h] <;> rfl

/-! ### The checks of DECODE (R79) -/

theorem firstFailing_cons_some (st : Status) (checks : List (Option Status)) :
    firstFailing (some st :: checks) = some st := rfl

theorem firstFailing_cons_none (checks : List (Option Status)) :
    firstFailing (none :: checks) = firstFailing checks := rfl

theorem mem_of_firstFailing_eq_some {checks : List (Option Status)} {st : Status} (h : firstFailing checks = some st) :
    some st ∈ checks := by
  obtain ⟨c, hc, rfl⟩ := List.exists_of_findSome?_eq_some h
  exact hc

theorem checkMapped_eq_some_iff (p : Params) (bank : Bank) (off : BitVec 12) (dir : Dir) (st : Status) :
    checkMapped p bank off dir = some st ↔ mapped p bank off.toNat dir = false ∧ st = .illegalCommand := by
  cases h : mapped p bank off.toNat dir
  · simpa [checkMapped, h] using eq_comm
  · simp [checkMapped, h]

/-- The type codes without a kind fail, those of rising, falling, high and low pass (46_set_type.md R113, R114). -/
theorem checkType_eq_some_iff (arg : BitVec 4) (st : Status) :
    checkType arg = some st ↔
      (arg ≠ 1#4 ∧ arg ≠ 2#4 ∧ arg ≠ 4#4 ∧ arg ≠ 8#4) ∧ st = .unsupportedTriggerType := by
  revert arg
  cases st <;> decide

theorem checkType_eq_none_iff (arg : BitVec 4) :
    checkType arg = none ↔ arg = 1#4 ∨ arg = 2#4 ∨ arg = 4#4 ∨ arg = 8#4 := by
  revert arg
  decide

theorem checkMask_eq_some_iff (b : Block) (st : Status) :
    checkMask b = some st ↔ b.maskValid = false ∧ st = .maskUnresolved := by
  cases h : b.maskValid
  · simpa [checkMask, h] using eq_comm
  · simp [checkMask, h]

/-- `IllegalCommand` is a status of the register accesses alone (R79). -/
theorem validate_ne_illegalCommand {i : Instr} (hread : ∀ bank off, i ≠ .regRead bank off)
    (hwrite : ∀ bank off d, i ≠ .regWrite bank off d) : validate i s ≠ some .illegalCommand := by
  have inRange (irq : IrqId) : checkRange s.params irq ≠ some .illegalCommand := fun h =>
    nomatch ((checkRange_eq_some_iff s.params irq _).1 h).2
  cases i with
  | regRead bank off => exact absurd rfl (hread bank off)
  | regWrite bank off d => exact absurd rfl (hwrite bank off d)
  | resolveMask | ack => exact nofun
  | setTrigger _ irq | setPending irq | clearPending irq | setSecurity _ irq | disable irq | complete irq =>
    exact inRange irq
  | enable irq =>
    intro h
    rcases List.mem_pair.1 (mem_of_firstFailing_eq_some h) with h | h
    · exact inRange irq h.symm
    · exact nomatch ((checkMask_eq_some_iff s.block _).1 h.symm).2
  | setType arg irq =>
    intro h
    rcases List.mem_pair.1 (mem_of_firstFailing_eq_some h) with h | h
    · exact nomatch ((checkType_eq_some_iff arg _).1 h.symm).2
    · exact inRange irq h.symm

/-! ### The conditions of R74 against the decoder (R75) -/

section
variable {cmd : Word} (accepts : Instr → Prop)

theorem exists_decodeN_ok_iff (j : Instr) :
    (∃ i, decodeN cmd j = .ok i ∧ accepts i) ↔ reservedZeroN cmd = true ∧ accepts j := by
  unfold decodeN
  split <;> simp [*]

theorem exists_decodeI_ok_iff (mk : BitVec 4 → IrqId → Option Instr) :
    (∃ i, decodeI cmd mk = .ok i ∧ accepts i) ↔
      reservedZeroI cmd = true ∧ ∃ i, mk (argField cmd) (irqField cmd) = some i ∧ accepts i := by
  unfold decodeI
  split
  · cases mk (argField cmd) (irqField cmd) <;> simp [*]
  · simp [*]

theorem exists_decodeR_ok_iff (mk : Bank → BitVec 12 → Instr) :
    (∃ i, decodeR cmd mk = .ok i ∧ accepts i) ↔
      reservedZeroR cmd = true ∧ alignedOff (offField cmd) = true ∧ accepts (mk (bankField cmd) (offField cmd)) := by
  unfold decodeR
  split
  · split <;> simp [*]
  · simp [*]

end

section
variable (p : Params) {cmd : Word}

theorem legal_formatN_iff (hop : (opField cmd).toNat = 0x3 ∨ (opField cmd).toNat = 0xA) :
    ¬ illegalEncoding p cmd ↔ reservedZeroN cmd = true := by
  rw [illegalEncoding, ← opField_toNat, reservedZeroN_iff]
  rcases hop with hop | hop <;> rw [hop] <;> simp

theorem legal_noArg_iff (hop : (opField cmd).toNat ∈ [0x5, 0x6, 0x8, 0x9, 0xB]) :
    ¬ illegalEncoding p cmd ↔ reservedZeroI cmd = true ∧ (argField cmd).toNat = 0 := by
  rw [illegalEncoding, ← opField_toNat, reservedZeroI_iff, argField_toNat]
  simp only [List.mem_cons, List.not_mem_nil, or_false] at hop
  rcases hop with hop | hop | hop | hop | hop <;> rw [hop] <;> simp

theorem legal_binaryArg_iff (hop : (opField cmd).toNat = 0x4 ∨ (opField cmd).toNat = 0x7) :
    ¬ illegalEncoding p cmd ↔ reservedZeroI cmd = true ∧ (argField cmd).toNat ≤ 1 := by
  rw [illegalEncoding, ← opField_toNat, reservedZeroI_iff, argField_toNat]
  rcases hop with hop | hop <;> rw [hop] <;> simp

theorem legal_anyArg_iff (hop : (opField cmd).toNat = 0xC) :
    ¬ illegalEncoding p cmd ↔ reservedZeroI cmd = true := by
  rw [illegalEncoding, ← opField_toNat, reservedZeroI_iff, hop]
  simp

theorem legal_regRead_iff (hop : (opField cmd).toNat = 0x1) :
    ¬ illegalEncoding p cmd ↔ reservedZeroR cmd = true ∧ alignedOff (offField cmd) = true ∧
      mapped p (bankField cmd) (offField cmd).toNat .read = true := by
  rw [illegalEncoding, ← opField_toNat, reservedZeroR_iff, alignedOff_iff_mod, offField_toNat, bankField_eq, hop]
  simp

theorem legal_regWrite_iff (hop : (opField cmd).toNat = 0x2) :
    ¬ illegalEncoding p cmd ↔ reservedZeroR cmd = true ∧ alignedOff (offField cmd) = true ∧
      mapped p (bankField cmd) (offField cmd).toNat .write = true := by
  rw [illegalEncoding, ← opField_toNat, reservedZeroR_iff, alignedOff_iff_mod, offField_toNat, bankField_eq, hop]
  simp

end

theorem checkMapped_ne_illegalCommand_iff (p : Params) (bank : Bank) (off : BitVec 12) (dir : Dir) :
    checkMapped p bank off dir ≠ some .illegalCommand ↔ mapped p bank off.toNat dir = true := by
  simp [checkMapped_eq_some_iff]

/-- Where DECODE finds no command illegal that ARG may name, the word is legal if ARG names one (R72, R74(c), (d)). -/
theorem exists_legal_iff_isSome {o : Option Instr} (h : ∀ i, o = some i → validate i s ≠ some .illegalCommand) :
    (∃ i, o = some i ∧ validate i s ≠ some .illegalCommand) ↔ o.isSome = true := by
  rw [Option.isSome_iff_exists]
  exact exists_congr fun i => and_iff_left_of_imp (h i)

theorem trigKindOfArg_isSome_iff (arg : BitVec 4) : (trigKindOfArg arg).isSome = true ↔ arg.toNat ≤ 1 := by
  revert arg
  decide

theorem securityOfArg_isSome_iff (arg : BitVec 4) : (securityOfArg arg).isSome = true ↔ arg.toNat ≤ 1 := by
  revert arg
  decide

theorem noArg_isSome_iff (mk : IrqId → Instr) (arg : BitVec 4) (irq : IrqId) :
    (noArg mk arg irq).isSome = true ↔ arg.toNat = 0 := by
  rw [Option.isSome_iff_exists]
  simp [noArg_eq_some_iff, ← BitVec.toNat_inj]

/-- A word has none of the conditions of R74 exactly if it decodes to a command that DECODE does not find illegal. -/
theorem not_illegalEncoding_iff (s : State) :
    ¬ illegalEncoding s.params s.block.cmd ↔ ∃ i, s.fetch = .ok i ∧ validate i s ≠ some .illegalCommand := by
  unfold State.fetch decode
  split
  case h_1 hop =>
    rw [legal_regRead_iff _ hop, exists_decodeR_ok_iff, ← checkMapped_ne_illegalCommand_iff]
    rfl
  case h_2 hop =>
    rw [legal_regWrite_iff _ hop, exists_decodeR_ok_iff, ← checkMapped_ne_illegalCommand_iff]
    rfl
  case h_3 hop | h_10 hop =>
    rw [legal_formatN_iff _ (by simp [hop]), exists_decodeN_ok_iff]
    exact (and_iff_left (validate_ne_illegalCommand (by simp) (by simp))).symm
  case h_4 hop =>
    rw [legal_binaryArg_iff _ (by simp [hop]), exists_decodeI_ok_iff, ← trigKindOfArg_isSome_iff,
      exists_legal_iff_isSome, Option.isSome_map]
    intro i hi
    obtain ⟨kind, -, rfl⟩ := Option.map_eq_some_iff.1 hi
    exact validate_ne_illegalCommand (by simp) (by simp)
  case h_7 hop =>
    rw [legal_binaryArg_iff _ (by simp [hop]), exists_decodeI_ok_iff, ← securityOfArg_isSome_iff,
      exists_legal_iff_isSome, Option.isSome_map]
    intro i hi
    obtain ⟨sec, -, rfl⟩ := Option.map_eq_some_iff.1 hi
    exact validate_ne_illegalCommand (by simp) (by simp)
  case h_5 hop | h_6 hop | h_8 hop | h_9 hop | h_11 hop =>
    rw [legal_noArg_iff _ (by simp [hop]), exists_decodeI_ok_iff, exists_legal_iff_isSome, noArg_isSome_iff]
    intro i hi
    obtain ⟨-, rfl⟩ := (noArg_eq_some_iff _ _ _ i).1 hi
    exact validate_ne_illegalCommand (by simp) (by simp)
  case h_12 hop =>
    rw [legal_anyArg_iff _ hop, exists_decodeI_ok_iff]
    exact (and_iff_left ⟨_, rfl, validate_ne_illegalCommand (by simp) (by simp)⟩).symm
  case h_13 =>
    have hlt := (opField s.block.cmd).isLt
    have hreserved : (opField s.block.cmd).toNat = 0x0 ∨ (opField s.block.cmd).toNat = 0xD ∨
        (opField s.block.cmd).toNat = 0xE ∨ (opField s.block.cmd).toNat = 0xF := by
      simp only [imp_false] at *
      omega
    rw [opField_toNat] at hreserved
    exact iff_of_false (not_not.2 (.inl hreserved)) (by simp)

/-! ### The end of DECODE (R80) -/

theorem transition_of_illegalWord {e : DecodeError} (hf : s.block.fsm = .decode) (hd : s.fetch = .error e) :
    transition s = .next (answered s .illegalCommand 0#32) := by
  simp only [transition, hf, hd, State.raise_eq_answered]

/-- A valid command has a transaction, but for RESOLVE_MASK with the mask resolved (R81). -/
theorem transactions_ne_nil {i : Instr} (hv : validate i s = none)
    (hi : ¬ (i = .resolveMask ∧ s.block.maskValid = true)) : transactions i s ≠ [] := by
  cases i with
  | resolveMask =>
    have hunresolved : s.block.maskValid = false := by simpa using hi
    simp [transactions, seqResolveMask, hunresolved, probeWords]
  | setType arg irq =>
    have hkind : typeKind arg ≠ none := by
      intro hnone
      have htype := (firstFailing_eq_none_iff _).1 hv _ List.mem_cons_self
      simp [checkType, hnone] at htype
    obtain ⟨kind, hkind⟩ := Option.ne_none_iff_exists'.1 hkind
    simp [transactions, seqSetType, hkind, triggerSequence]
  | _ => exact List.cons_ne_nil _ _

/-- The response of RESOLVE_MASK as a number: the mask, and 256 if it is the default (41_mask_resolver.md R95). -/
theorem maskResponse_eq_ofNat (b : Block) :
    maskResponse b = BitVec.ofNat 32 (b.maskCache.toNat + 256 * b.maskDefaulted.toNat) := by
  have hlt := b.maskCache.isLt
  apply BitVec.eq_of_toNat_eq
  rw [maskResponse, BitVec.toNat_setWidth, BitVec.toNat_append, ← Nat.shiftLeft_add_eq_or_of_lt hlt,
    Nat.shiftLeft_eq, BitVec.toNat_ofNat, BitVec.toNat_ofBool]
  congr 1
  omega

/-! ### The bus master port (20_memory.md R57, R58) -/

theorem port_of_presented_read {bank : Bank} {off : Nat} (h : s.presented = some (.read bank off)) :
    (s.busReq = true ∧ s.busWe = some false ∧ s.busAddr = some (busAddress s.params bank off)) ∧ s.busWdata = none := by
  simp [State.busReq, State.busWe, State.busAddr, State.busWdata, h]

theorem port_of_presented_write {bank : Bank} {off : Nat} {v : Word} (h : s.presented = some (.write bank off v)) :
    (s.busReq = true ∧ s.busWe = some true ∧ s.busAddr = some (busAddress s.params bank off)) ∧
      s.busWdata = some v := by
  simp [State.busReq, State.busWe, State.busAddr, State.busWdata, h]

/-! ### The statements -/

/-- Settles O6: such a word does not decode, or it is a register access that DECODE finds illegal. -/
theorem illegalWordsEndWithIllegalCommand : Obligations.IllegalWordsEndWithIllegalCommand := by
  intro s hf hillegal
  cases hd : s.fetch with
  | error e => exact transition_of_illegalWord hf hd
  | ok i =>
    rw [transition_of_running (.inl hf) hd]
    refine exec_decode_fail hf (not_not.1 fun hv => ?_)
    exact (not_illegalEncoding_iff s).2 ⟨i, hd, hv⟩ hillegal

/-- Settles O7: by the conditions of R74 against the decoder, and the opcode map. -/
theorem everyOtherWordIsACommand : Obligations.EveryOtherWordIsACommand := by
  intro s hlegal
  obtain ⟨i, hd, hv⟩ := (not_illegalEncoding_iff s).1 hlegal
  obtain ⟨hwf, -, -⟩ := (decode_eq_ok_iff _ _ i).1 hd
  exact ⟨i, hd, hwf, hv⟩

/-- Settles O19: by what `exec` does in DECODE. -/
theorem decodeEndsOrEntersXfer : Obligations.DecodeEndsOrEntersXfer := by
  intro i s hf
  refine ⟨fun e hd => transition_of_illegalWord hf hd, fun st hv => exec_decode_fail hf hv,
    fun hv hi => exec_decode_enter hf hv (transactions_ne_nil hv hi), fun hvalid => ?_⟩
  have hempty : transactions .resolveMask s = [] := if_pos hvalid
  rw [exec_decode_empty hf rfl hempty, ← maskResponse_eq_ofNat]
  simp only [finishOf, finishResolveMask, hvalid, if_true, State.endCommand_eq_answered]

/-- Settles O9: the state placed is sampled, and the environment does nothing in that step. -/
theorem placedWordRunsNext : Obligations.PlacedWordRunsNext := by
  intro s nbits w i hp hw
  have hd : (s.withFetchWord nbits w).fetch = .ok i := by
    unfold decodeTableWord at hw
    split at hw
    · next hd => exact hd.trans (congrArg _ (Option.some.inj hw))
    · cases hw
  have hruns : runsNext (s.withFetchWord nbits w) := ⟨hp, rfl, rfl⟩
  exact ⟨(s.withFetchWord nbits w).sample,
    (step_of_runsNext hruns).trans (transition_of_running (.inl rfl) hd), rfl, hd, rfl, rfl, rfl⟩

/-- Settles O18: each clause is the first failing check of its command, or that none fails. -/
theorem firstFailingCheckGivesTheStatus : Obligations.FirstFailingCheckGivesTheStatus := by
  intro s irq hf
  have outside (h : s.params.nIrq ≤ irq.toNat) : checkRange s.params irq = some .outOfRange :=
    (checkRange_eq_some_iff s.params irq _).2 ⟨h, rfl⟩
  have inside (h : ¬ s.params.nIrq ≤ irq.toNat) : checkRange s.params irq = none :=
    (checkRange_eq_none_iff s.params irq).2 (Nat.lt_of_not_le h)
  refine ⟨fun bank off hm => ?_, fun bank off d hm => ?_, fun h => ?_, fun arg harg => ?_, fun arg harg h => ?_,
    fun h hm => ?_, rfl, rfl, fun h => ?_, fun bank off hm => ?_, fun bank off d hm => ?_⟩
  · exact exec_decode_fail hf ((checkMapped_eq_some_iff s.params bank off _ _).2 ⟨hm, rfl⟩)
  · exact exec_decode_fail hf ((checkMapped_eq_some_iff s.params bank off _ _).2 ⟨hm, rfl⟩)
  · have hr := outside h
    have henable : validate (.enable irq) s = some .outOfRange := by
      rw [validate, checkEnable, hr, firstFailing_cons_some]
    exact ⟨fun _ => exec_decode_fail hf hr, exec_decode_fail hf hr, exec_decode_fail hf hr,
      fun _ => exec_decode_fail hf hr, exec_decode_fail hf henable, exec_decode_fail hf hr, exec_decode_fail hf hr⟩
  · refine exec_decode_fail hf ?_
    rw [validate, checkSetType, (checkType_eq_some_iff arg _).2 ⟨harg, rfl⟩, firstFailing_cons_some]
  · refine exec_decode_fail hf ?_
    rw [validate, checkSetType, (checkType_eq_none_iff arg).2 harg, firstFailing_cons_none, outside h,
      firstFailing_cons_some]
  · refine exec_decode_fail hf ?_
    rw [validate, checkEnable, inside h, firstFailing_cons_none, (checkMask_eq_some_iff s.block _).2 ⟨hm, rfl⟩,
      firstFailing_cons_some]
  · have hr := inside h
    refine ⟨fun _ => hr, hr, hr, fun _ => hr, fun hm => ?_, hr, hr, fun arg harg => ?_⟩
    · rw [validate, checkEnable, hr, checkMask, if_pos hm]
      rfl
    · rw [validate, checkSetType, (checkType_eq_none_iff arg).2 harg, hr]
      rfl
  · exact (checkMapped_eq_none_iff s.params bank off _).2 hm
  · exact (checkMapped_eq_none_iff s.params bank off _).2 hm

/-- Settles O55: the port at a step is that of the transaction of ENABLE with that number. -/
theorem enableDrivesTheBusInOrder : Obligations.EnableDrivesTheBusInOrder := by
  intro s irq hf hd
  have hpresented : s.presented = (seqEnable irq s)[s.block.step.toNat]? := presented_of_xfer hf hd
  have hctrl : busAddress s.params .cpu ctrlOff = s.params.cpuBase := BitVec.add_zero _
  refine ⟨fun hstep => ?_, fun hstep => ?_, fun hstep => ?_, fun hstep => ?_, fun hstep => ?_⟩ <;>
    rw [hstep] at hpresented
  · exact hctrl ▸ port_of_presented_read hpresented
  · exact hctrl ▸ port_of_presented_write hpresented
  · exact port_of_presented_write hpresented
  · exact port_of_presented_read hpresented
  · exact port_of_presented_write hpresented

end Sys2Proof.Machine
end

section
/-! The family 30_encoding.md: the run of a whole command with a bus that acknowledges (R80, R81, R85, R86,
70_reset_and_hazards.md R151). -/

namespace Sys2Proof.Machine

variable {s t u : State} {i : Instr}

/-! ### The directions of a command's transactions (R81) -/

/-- The directions of the transactions of a command, in order. -/
def directions (i : Instr) (s : State) : List Dir := (transactions i s).map Txn.dir

theorem length_directions (i : Instr) (s : State) : (directions i s).length = (transactions i s).length :=
  List.length_map _

/-- The words that `HOLD` gives to a command's writes have no part in its directions. -/
theorem directions_congr (hm : t.block.maskValid = s.block.maskValid) (i : Instr) :
    directions i t = directions i s := by
  cases i with
  | resolveMask => simp only [directions, transactions, seqResolveMask, hm]
  | setType arg irq =>
    simp only [directions, transactions, seqSetType]
    cases typeKind arg <;> rfl
  | _ => rfl

theorem directions_setType {arg : BitVec 4} {irq : IrqId} (hv : validate (.setType arg irq) s = none) :
    directions (.setType arg irq) s = [.read, .write] := by
  have hnotMask : ¬ (Instr.setType arg irq = .resolveMask ∧ s.block.maskValid = true) := nofun ∘ And.left
  have hne := transactions_ne_nil hv hnotMask
  simp only [directions, transactions, seqSetType] at hne ⊢
  cases hkind : typeKind arg with
  | none => simp [hkind] at hne
  | some kind => rfl

theorem directions_resolveMask (s : State) :
    directions .resolveMask s = if s.block.maskValid then [] else List.replicate 8 .read := by
  simp only [directions, transactions, seqResolveMask]
  split <;> rfl

/-- The trace entries `es` are those of transactions in the directions `ds`, in order; all of them were performed, but
that RESOLVE_MASK may stop early (R87). -/
def PerformsIn (i : Instr) (ds : List Dir) (es : List TraceEntry) : Prop :=
  ∃ rest, es.map TraceEntry.dir ++ rest = ds ∧ (i ≠ .resolveMask → rest = [])

theorem PerformsIn.nil (i : Instr) : PerformsIn i [] [] := ⟨[], rfl, fun _ => rfl⟩

theorem PerformsIn.cons {ds : List Dir} {es : List TraceEntry} (h : PerformsIn i ds es) (e : TraceEntry) :
    PerformsIn i (e.dir :: ds) (e :: es) := by
  obtain ⟨rest, rfl, hall⟩ := h
  exact ⟨rest, rfl, hall⟩

theorem PerformsIn.map_dir {ds : List Dir} {es : List TraceEntry} (h : PerformsIn i ds es) (hi : i ≠ .resolveMask) :
    es.map TraceEntry.dir = ds := by
  obtain ⟨rest, rfl, hall⟩ := h
  rw [hall hi, List.append_nil]

theorem PerformsIn.length_le {ds : List Dir} {es : List TraceEntry} (h : PerformsIn i ds es) :
    es.length ≤ ds.length := by
  obtain ⟨rest, rfl, -⟩ := h
  simp

theorem stopOf_eq_false (hi : i ≠ .resolveMask) (s : State) : stopOf i s = false := by
  cases i with
  | resolveMask => exact absurd rfl hi
  | _ => rfl

theorem length_filter_dir (es : List TraceEntry) (d : Dir) :
    (es.filter fun e => e.dir == d).length = (es.map TraceEntry.dir).count d := by
  rw [List.count, List.countP_map, List.countP_eq_length_filter]
  rfl

/-- RESOLVE_MASK only reads (41_mask_resolver.md R93). -/
theorem PerformsIn.count_resolveMask {es : List TraceEntry}
    (h : PerformsIn .resolveMask (directions .resolveMask s) es) :
    (es.map TraceEntry.dir).count .read = es.length ∧ (es.map TraceEntry.dir).count .write = 0 := by
  obtain ⟨rest, hrest, -⟩ := h
  have hread : ∀ d ∈ es.map TraceEntry.dir, d = .read := by
    intro d hd
    have hmem : d ∈ directions .resolveMask s := hrest ▸ List.mem_append_left rest hd
    rw [directions_resolveMask] at hmem
    split at hmem
    · cases hmem
    · exact List.eq_of_mem_replicate hmem
  rw [List.eq_replicate_of_mem hread, List.length_map]
  exact ⟨List.count_replicate_self, List.count_eq_zero.2 (by simp)⟩

/-! ### A run that answers -/

/-- The run of `i` from `s` with `k` transitions answers `OK` in `t`, and its transactions left the trace entries `es`. -/
structure Answers (i : Instr) (k : Nat) (s t : State) (es : List TraceEntry) : Prop where
  run : runExec i k s = .next t
  fsm : t.block.fsm = .resp
  rspValid : t.block.rspValid = true
  status : t.block.rspStatus = .ok
  resolved : i = .resolveMask → t.block.maskValid = true
  trace : t.ghost.trace = s.ghost.trace ++ es

theorem finishOf_status (i : Instr) (s : State) : (finishOf i s).block.rspStatus = .ok := by
  rcases finishOf_cases i s with ⟨d, heq⟩ | ⟨-, -, m, f, d, -, -, heq⟩ <;> rw [heq] <;> rfl

theorem finishResolveMask_maskValid (s : State) : (finishOf .resolveMask s).block.maskValid = true := by
  simp only [finishOf, finishResolveMask]
  split
  · next hvalid => exact hvalid
  · split <;> rfl

/-- The transition that ends a command answers. -/
theorem Answers.finish {es : List TraceEntry} (h : exec i s = .next (finishOf i u))
    (htrace : u.ghost.trace = s.ghost.trace ++ es) : Answers i 1 s (finishOf i u) es := by
  obtain ⟨-, -, hghost, -, hfsm, hvalid⟩ := finishOf_frame i u
  exact ⟨runExec_one h, hfsm, hvalid, finishOf_status i u, fun hi => hi ▸ finishResolveMask_maskValid u,
    hghost ▸ htrace⟩

/-- A run that answers, with one transition before it. -/
theorem Answers.cons {k : Nat} {es es' : List TraceEntry} (h : Answers i k u t es') (hstep : exec i s = .next u)
    (htrace : u.ghost.trace = s.ghost.trace ++ es) : Answers i (k + 1) s t (es ++ es') where
  run := (runExec_succ hstep).trans h.run
  fsm := h.fsm
  rspValid := h.rspValid
  status := h.status
  resolved := h.resolved
  trace := by rw [h.trace, htrace, List.append_assoc]

/-! ### The run in XFER -/

/-- A valid command `i` is in XFER with a bus that acknowledges. -/
structure Transferring (i : Instr) (s : State) : Prop where
  params_ok : paramsOk s.params = true
  valid : validate i s = none
  fsm : s.block.fsm = .xfer
  ack : s.ports.pins.busAck = true

namespace Transferring

/-- The transaction numbered `step` is performed, since a valid command accesses mapped registers. -/
theorem perform (h : Transferring i s) {d : Dir} {ds : List Dir}
    (hds : (directions i s).drop s.block.step.toNat = d :: ds) :
    ∃ x u v, (transactions i s)[s.block.step.toNat]? = some x ∧ s.perform x = some u ∧
      u.ghost.trace = s.ghost.trace ++ [⟨d, x.bank, x.off, v⟩] := by
  have hd : (directions i s)[s.block.step.toNat]? = some d := by
    rw [← Nat.add_zero s.block.step.toNat, ← List.getElem?_drop, hds]
    rfl
  obtain ⟨x, hx, rfl⟩ := Option.map_eq_some_iff.1 ((List.getElem?_map ..).symm.trans hd)
  have hmapped := mapped_of_mem_transactions h.params_ok h.valid (List.mem_of_getElem? hx)
  obtain ⟨u, hu⟩ := Option.isSome_iff_exists.1 ((perform_isSome s x).trans hmapped)
  obtain ⟨v, htrace⟩ := perform_trace hu
  exact ⟨x, u, v, hx, hu, htrace⟩

/-- After a transaction that is not the last the command is in XFER at the next one. -/
theorem advance (h : Transferring i s) {x : Txn} (hu : s.perform x = some u) : Transferring i u.advance := by
  obtain ⟨hparams, hports, hblock⟩ := perform_frame hu
  have hmask : u.block.maskValid = s.block.maskValid := by rw [hblock]
  exact ⟨hparams ▸ h.params_ok, (validate_congr (t := u.advance) hparams hmask i).trans h.valid,
    (congrArg Block.fsm hblock).trans h.fsm, hports ▸ h.ack⟩

theorem directions_advance {x : Txn} (hu : s.perform x = some u) : directions i u.advance = directions i s := by
  obtain ⟨w, hw⟩ := perform_block hu
  exact directions_congr (by simp [hw]) i

theorem step_advance {x : Txn} (hu : s.perform x = some u)
    (hl : s.block.step.toNat + 1 < (transactions i s).length) :
    u.advance.block.step.toNat = s.block.step.toNat + 1 := by
  obtain ⟨w, hw⟩ := perform_block hu
  have h8 := transactions_length_le i s
  have hstep : u.block.step = s.block.step := by rw [hw]
  rw [State.advance_step, hstep, BitVec.toNat_add, BitVec.toNat_ofNat]
  omega

/-- In XFER the command performs its remaining transactions, one with each transition, and answers with the last. -/
theorem answers (h : Transferring i s) {d : Dir} {ds : List Dir}
    (hds : (directions i s).drop s.block.step.toNat = d :: ds) :
    ∃ t e es, Answers i (es.length + 1) s t (e :: es) ∧ PerformsIn i (d :: ds) (e :: es) := by
  induction ds generalizing s d with
  | nil =>
    obtain ⟨x, u, v, hx, hu, htrace⟩ := h.perform hds
    have hlen := congrArg List.length hds
    rw [List.length_drop, length_directions, List.length_singleton] at hlen
    have hlast : s.block.step.toNat + 1 = (transactions i s).length := by omega
    exact ⟨_, _, [], .finish (exec_xfer_last ⟨h.fsm, rfl, h.ack⟩ hx hu (.inr hlast)) htrace,
      (PerformsIn.nil i).cons _⟩
  | cons d' ds ih =>
    obtain ⟨x, u, v, hx, hu, htrace⟩ := h.perform hds
    have hlen := congrArg List.length hds
    rw [List.length_drop, length_directions, List.length_cons, List.length_cons] at hlen
    have hmore : s.block.step.toNat + 1 < (transactions i s).length := by omega
    cases hstop : stopOf i u with
    | true =>
      have hearly : PerformsIn i (d' :: ds) [] := by
        refine ⟨d' :: ds, rfl, fun hi => ?_⟩
        cases (stopOf_eq_false hi u).symm.trans hstop
      exact ⟨_, _, [], .finish (exec_xfer_last ⟨h.fsm, rfl, h.ack⟩ hx hu (.inl hstop)) htrace, hearly.cons _⟩
    | false =>
      have hnext : (directions i u.advance).drop u.advance.block.step.toNat = d' :: ds := by
        rw [directions_advance hu, step_advance hu hmore, ← List.tail_drop, hds, List.tail_cons]
      obtain ⟨t, e, es, hans, hperf⟩ := ih (h.advance hu) hnext
      exact ⟨t, _, e :: es, hans.cons (exec_xfer_advance ⟨h.fsm, rfl, h.ack⟩ hx hu hstop hmore.ne) htrace,
        hperf.cons _⟩

end Transferring

/-- From DECODE a valid command answers after one transition more than it has transactions (R80, R86). -/
theorem answers_of_decode (hp : paramsOk s.params = true) (hf : s.block.fsm = .decode)
    (hack : s.ports.pins.busAck = true) (hv : validate i s = none) :
    ∃ t es, Answers i (es.length + 1) s t es ∧ PerformsIn i (directions i s) es ∧ (directions i s ≠ [] → es ≠ []) := by
  cases hds : directions i s with
  | nil =>
    have hnone : transactions i s = [] := List.map_eq_nil_iff.1 hds
    exact ⟨_, [], .finish (exec_decode_empty hf hv hnone) (List.append_nil _).symm, .nil i,
      absurd rfl⟩
  | cons d ds =>
    have hsome : transactions i s ≠ [] := fun hnone => by simp [directions, hnone] at hds
    have hxfer : Transferring i s.enterXfer :=
      ⟨hp, (validate_congr (s := s) (t := s.enterXfer) rfl rfl i).trans hv, rfl, hack⟩
    obtain ⟨t, e, es, hans, hperf⟩ :=
      hxfer.answers ((directions_congr (s := s) (t := s.enterXfer) rfl i).trans hds)
    exact ⟨t, e :: es, hans.cons (exec_decode_enter hf hv hsome) (List.append_nil _).symm, hperf, fun _ => nofun⟩

/-! ### The statement -/

/-- Settles O40: a command that fails answers at once; any other performs its transactions, whose directions are counted
command by command. -/
theorem everyCommandAnswersAfterItsTransactions : Obligations.EveryCommandAnswersAfterItsTransactions := by
  intro i s hp hf hack
  cases hv : validate i s with
  | some st =>
    exact ⟨answered s st 0#32, [], runExec_one (exec_decode_fail hf hv), rfl, rfl, (List.append_nil _).symm,
      Nat.zero_le 8, rfl, rfl, rfl⟩
  | none =>
    obtain ⟨t, es, hans, hperf, hsome⟩ := answers_of_decode hp hf hack hv
    have hlen : es.length ≤ 8 :=
      hperf.length_le.trans ((length_directions i s).trans_le (transactions_length_le i s))
    refine ⟨t, es, hans.run, hans.fsm, hans.rspValid, hans.trace, hlen, ?_⟩
    simp only [length_filter_dir]
    cases i with
    | resolveMask =>
      obtain ⟨hreads, hwrites⟩ := hperf.count_resolveMask
      refine ⟨hwrites, hans.status, hans.resolved rfl, ?_⟩
      rw [hreads]
      cases hm : s.block.maskValid with
      | true =>
        have hnone := hperf.length_le
        rw [directions_resolveMask, hm] at hnone
        exact Nat.le_zero.1 hnone
      | false =>
        have hne : es ≠ [] := hsome (by simp [directions_resolveMask, hm])
        exact ⟨List.length_pos_iff.2 hne, hlen⟩
    | setType arg irq =>
      rw [hperf.map_dir nofun, directions_setType hv]
      exact ⟨rfl, rfl, hans.status⟩
    | _ =>
      rw [hperf.map_dir nofun]
      exact ⟨rfl, rfl, hans.status⟩

end Sys2Proof.Machine
end

section
/-! The family 40_register_access.md: the mapped registers (R90), and what REG_READ and REG_WRITE answer and leave
unchanged at every register (R88, R89, R91). -/

namespace Sys2Proof.Machine

variable {s t : State}

/-! ### The register map by families (20_memory.md R46) -/

theorem regAt_of_home {p : Params} (hp : paramsOk p = true) {r : Reg} {off : Nat} (hoff : off = (regHome r).2)
    (hr : regExists p r) : regAt p (regHome r).1 off = some r :=
  (regAt_eq_some_iff hp _ off r).2 ⟨Prod.ext rfl hoff.symm, hr⟩

/-- An access is mapped exactly at the home of a register that exists and has its direction. -/
theorem mapped_iff_exists_reg {p : Params} (hp : paramsOk p = true) (bank : Bank) (off : Nat) (dir : Dir) :
    mapped p bank off dir = true ↔ ∃ r, regHome r = (bank, off) ∧ regExists p r ∧ r.allows dir = true := by
  constructor
  · intro hm
    obtain ⟨r, hr⟩ := exists_regAt_of_mapped hm
    obtain ⟨hhome, hex⟩ := (regAt_eq_some_iff hp bank off r).1 hr
    exact ⟨r, hhome, hex, mapped_of_regAt hr dir ▸ hm⟩
  · rintro ⟨r, hhome, hex, hallows⟩
    rw [mapped_of_regAt ((regAt_eq_some_iff hp bank off r).2 ⟨hhome, hex⟩), hallows]

/-- The aligned offsets of a family (R90) are those of its words. -/
theorem aligned_inFamily_iff {start : Nat} (hstart : start % 4 = 0) (off words : Nat) :
    (off % 4 = 0 ∧ start ≤ off ∧ off < start + 4 * words) ↔ ∃ j, j < words ∧ off = start + 4 * j := by
  constructor
  · rintro ⟨haligned, hlo, hhi⟩
    exact ⟨(off - start) / 4, by omega, by omega⟩
  · rintro ⟨j, hj, rfl⟩
    omega

/-- The Distributor registers that are mapped, family by family. -/
theorem mapped_dist_iff_word {p : Params} (hp : paramsOk p = true) (off : Nat) (dir : Dir) :
    mapped p .dist off dir = true ↔
      (p.groupBase = .dedicated ∧ ∃ j, j < p.nIrq / 32 ∧ off = 0x080 + 4 * j) ∨
      (∃ j, j < p.nIrq / 32 ∧ off = 0x100 + 4 * j) ∨ (∃ j, j < p.nIrq / 32 ∧ off = 0x180 + 4 * j) ∨
      (∃ j, j < p.nIrq / 32 ∧ off = 0x200 + 4 * j) ∨ (∃ j, j < p.nIrq / 32 ∧ off = 0x280 + 4 * j) ∨
      (∃ j, j < p.nIrq / 4 ∧ off = 0x800 + 4 * j) ∨ (∃ j, j < p.nIrq / 16 ∧ off = 0xC00 + 4 * j) := by
  rw [mapped_iff_exists_reg hp]
  constructor
  · rintro ⟨r, hhome, hex, -⟩
    cases r with
    | group j => cases hhome; exact .inl ⟨hex.1, j, hex.2, rfl⟩
    | enableSet j => cases hhome; exact .inr (.inl ⟨j, hex, rfl⟩)
    | enableClear j => cases hhome; exact .inr (.inr (.inl ⟨j, hex, rfl⟩))
    | pendingSet j => cases hhome; exact .inr (.inr (.inr (.inl ⟨j, hex, rfl⟩)))
    | pendingClear j => cases hhome; exact .inr (.inr (.inr (.inr (.inl ⟨j, hex, rfl⟩))))
    | target j => cases hhome; exact .inr (.inr (.inr (.inr (.inr (.inl ⟨j, hex, rfl⟩)))))
    | config j => cases hhome; exact .inr (.inr (.inr (.inr (.inr (.inr ⟨j, hex, rfl⟩)))))
    | ctrl | ack | eoi => exact nomatch hhome
  · rintro (⟨hg, j, hj, rfl⟩ | ⟨j, hj, rfl⟩ | ⟨j, hj, rfl⟩ | ⟨j, hj, rfl⟩ | ⟨j, hj, rfl⟩ | ⟨j, hj, rfl⟩ | ⟨j, hj, rfl⟩)
    · exact ⟨.group j, rfl, ⟨hg, hj⟩, rfl⟩
    · exact ⟨.enableSet j, rfl, hj, rfl⟩
    · exact ⟨.enableClear j, rfl, hj, rfl⟩
    · exact ⟨.pendingSet j, rfl, hj, rfl⟩
    · exact ⟨.pendingClear j, rfl, hj, rfl⟩
    · exact ⟨.target j, rfl, hj, rfl⟩
    · exact ⟨.config j, rfl, hj, rfl⟩

/-- The CPU Interface registers that are mapped: CTRL, and ACK to read or EOI to write. -/
theorem mapped_cpu_iff {p : Params} (hp : paramsOk p = true) (off : Nat) (dir : Dir) :
    mapped p .cpu off dir = true ↔ off = 0x000 ∨ (dir = .read ∧ off = 0x00C) ∨ (dir = .write ∧ off = 0x010) := by
  rw [mapped_iff_exists_reg hp]
  constructor
  · rintro ⟨r, hhome, -, hallows⟩
    cases r with
    | ctrl => cases hhome; exact .inl rfl
    | ack => cases hhome; cases dir with
      | read => exact .inr (.inl ⟨rfl, rfl⟩)
      | write => exact nomatch hallows
    | eoi => cases hhome; cases dir with
      | read => exact nomatch hallows
      | write => exact .inr (.inr ⟨rfl, rfl⟩)
    | _ => exact nomatch hhome
  · rintro (rfl | ⟨rfl, rfl⟩ | ⟨rfl, rfl⟩)
    · exact ⟨.ctrl, rfl, trivial, rfl⟩
    · exact ⟨.ack, rfl, trivial, rfl⟩
    · exact ⟨.eoi, rfl, trivial, rfl⟩

/-- A mapped offset below ENABLE_SET is that of a GROUP word: the configuration has the dedicated family (R25). -/
theorem regAt_group_of_mapped {p : Params} (hp : paramsOk p = true) {off j : Nat} {dir : Dir}
    (hm : mapped p .dist off dir = true) (hoff : off = 0x080 + 4 * j) (hj : j < p.nIrq / 32) :
    regAt p .dist off = some (.group j) := by
  have hn := paramsOk_nIrq hp
  rcases (mapped_dist_iff_word hp off dir).1 hm with ⟨hg, -⟩ | hother
  · exact regAt_of_home hp (r := .group j) hoff ⟨hg, hj⟩
  · omega

/-! ### The ghost effect of ACK and EOI (10_state.md R34, R35) -/

/-- The outstanding list after an acknowledge read, with the ID as the low ten bits of the word. -/
theorem Ghost.claim_eq (g : Ghost) (p : Params) (v : Word) :
    g.claim p v = { g with outstanding :=
      if v.toNat % 1024 < p.nIrq then g.outstanding ++ [BitVec.ofNat 10 v.toNat] else g.outstanding } := by
  have hid : (idOf v).toNat = v.toNat % 1024 := by rw [idOf_eq_ofNat, BitVec.toNat_ofNat]
  rw [← hid, ← idOf_eq_ofNat]
  rcases Ghost.claim_cases g p v with ⟨hlt, heq⟩ | ⟨hge, heq⟩
  · rw [heq, if_pos hlt]
  · rw [heq, if_neg (Nat.not_lt.2 hge)]

theorem Ghost.endService_in_order {g : Ghost} {v : Word} {l : List IrqId}
    (h : g.outstanding = l ++ [BitVec.ofNat 10 v.toNat]) : g.endService v = { g with outstanding := l } := by
  rw [Ghost.endService, if_pos (by rw [h, List.getLast?_concat, idOf_eq_ofNat]), h, List.dropLast_concat]

theorem Ghost.endService_out_of_order {g : Ghost} {v : Word}
    (h : ∀ l, g.outstanding ≠ l ++ [BitVec.ofNat 10 v.toNat]) : g.endService v = { g with hazardFault := true } := by
  refine if_neg fun hlast => ?_
  obtain ⟨l, hl⟩ := List.getLast?_eq_some_iff.1 hlast
  exact h l (idOf_eq_ofNat v ▸ hl)

/-- Reading a register keeps the trace entry of the read and changes at most the outstanding list. -/
theorem Ghost.record_afterRead (g : Ghost) (e : TraceEntry) (p : Params) (r : Reg) (v : Word) :
    (g.record e).afterRead p r v = { g.record e with outstanding := (g.afterRead p r v).outstanding } := by
  by_cases hr : r = .ack
  · simp only [Ghost.afterRead, if_pos hr, Ghost.claim_eq, Ghost.record_outstanding]
  · simp only [Ghost.afterRead_of_ne hr, Ghost.record]

/-! ### REG_READ and REG_WRITE on the transaction they perform -/

/-- REG_READ at a register: its word, whole, in `HOLD`, in the trace and in the response (R88). -/
theorem exec_regRead_at {bank : Bank} {off : BitVec 12} {r : Reg} {v : Word} (ha : ackedAt s 0#3)
    (hr : regAt s.params bank off.toNat = some r) (hv : s.peek r = some v) :
    exec (.regRead bank off) s = .next (answered (traced { s with
      block := { s.block with hold := v }
      ghost := { s.ghost with outstanding := (s.ghost.afterRead s.params r v).outstanding } }
        .read bank off.toNat v) .ok v) := by
  have hread := busRead_of hr hv
  rw [Ghost.record_afterRead] at hread
  exact exec_xfer_last ha rfl hread (.inr rfl)

/-- REG_WRITE answers OK on the state its one write leaves (R89). -/
theorem exec_regWrite_of_perform {bank : Bank} {off : BitVec 12} {d : Word} (ha : ackedAt s 0#3)
    (ht : s.perform (.write bank off.toNat d) = some t) :
    exec (.regWrite bank off d) s = .next (answered t .ok 0#32) :=
  exec_xfer_last ha rfl ht (.inr rfl)

/-- REG_WRITE at a register other than EOI: the banks it stores, one trace entry and the response (R89). -/
theorem exec_regWrite_at {bank : Bank} {off : BitVec 12} {d : Word} {r : Reg} {b : Banks} (ha : ackedAt s 0#3)
    (hr : regAt s.params bank off.toNat = some r)
    (hb : s.banks.poke r d (writeIgnoreAt s.params bank off.toNat) = some b) (hne : r ≠ .eoi) :
    exec (.regWrite bank off d) s =
      .next (answered (traced { s with banks := b } .write bank off.toNat d) .ok 0#32) :=
  exec_regWrite_of_perform ha (perform_write hr hb hne)

/-- REG_WRITE at EOI: the completion of the ID in the data word, whatever the write-ignore mask (R91). -/
theorem exec_regWrite_eoi {off : BitVec 12} (hoff : off.toNat = 0x010) (d : Word) (ha : ackedAt s 0#3) :
    exec (.regWrite .cpu off d) s = .next (answered { s with
      ghost := (s.ghost.record ⟨.write, .cpu, off.toNat, d⟩).endService d } .ok 0#32) := by
  refine exec_regWrite_of_perform ha ?_
  rw [hoff]
  exact perform_write_eoi d

/-! ### The statements -/

/-- Settles O20: the map is that of the families' words, and the aligned offsets of a family are those of its words. -/
theorem mappedIsTheSpecsPredicate : Obligations.MappedIsTheSpecsPredicate := by
  refine ⟨fun p bank off dir hp => ?_, fun s bank off d hf => ⟨fun hm => ?_, fun hm => ?_⟩⟩
  · cases bank with
    | dist =>
      refine (mapped_dist_iff_word hp off dir).trans ?_
      simp only [← aligned_inFamily_iff (rfl : 0x080 % 4 = 0), ← aligned_inFamily_iff (rfl : 0x100 % 4 = 0),
        ← aligned_inFamily_iff (rfl : 0x180 % 4 = 0), ← aligned_inFamily_iff (rfl : 0x200 % 4 = 0),
        ← aligned_inFamily_iff (rfl : 0x280 % 4 = 0), ← aligned_inFamily_iff (rfl : 0x800 % 4 = 0),
        ← aligned_inFamily_iff (rfl : 0xC00 % 4 = 0), and_or_left, and_left_comm]
    | cpu => cases dir <;> simp [mapped_cpu_iff hp]
  · exact exec_decode_fail hf ((checkMapped_eq_some_iff s.params bank off _ _).2 ⟨hm, rfl⟩)
  · exact exec_decode_fail hf ((checkMapped_eq_some_iff s.params bank off _ _).2 ⟨hm, rfl⟩)

/-- Settles O21: a mapped offset is that of one register, whose word is read; only ACK has a ghost effect. -/
theorem regReadAnswersTheWord : Obligations.RegReadAnswersTheWord := by
  intro s bank off hp ha hm
  obtain ⟨r, hr⟩ := exists_regAt_of_mapped hm
  obtain ⟨v, hv⟩ := Option.isSome_iff_exists.1 ((peek_isSome s r).trans (mapped_of_regAt hr .read ▸ hm))
  have is_reg {r' : Reg} (hr' : regAt s.params bank off.toNat = some r') : r' = r :=
    Option.some.inj (hr'.symm.trans hr)
  have is_word {r' : Reg} {w : Word} (hr' : regAt s.params bank off.toNat = some r') (hw : s.peek r' = some w) :
      v = w := Option.some.inj (hv.symm.trans (is_reg hr' ▸ hw))
  have keeps_out (hne : r ≠ .ack) : (s.ghost.afterRead s.params r v).outstanding = s.ghost.outstanding := by
    rw [Ghost.afterRead_of_ne hne]
  refine ⟨v, _, exec_regRead_at ha hr hv, ?_, ?_, ?_⟩
  · rintro rfl
    have hne : r ≠ .ack := by
      rintro rfl
      exact nomatch ((regAt_eq_some_iff hp _ _ _).1 hr).1
    refine ⟨keeps_out hne, fun j hoff hj => ?_, fun j hoff hj => ?_, fun j hoff hj => ?_, fun j hoff hj => ?_,
      fun j hoff hj => ?_⟩
    · exact is_word (regAt_group_of_mapped hp hm hoff hj) rfl
    · rcases hoff with hoff | hoff
      · exact is_word (regAt_of_home hp (r := .enableSet j) hoff hj) rfl
      · exact is_word (regAt_of_home hp (r := .enableClear j) hoff hj) rfl
    · rcases hoff with hoff | hoff
      · exact is_word (regAt_of_home hp (r := .pendingSet j) hoff hj) rfl
      · exact is_word (regAt_of_home hp (r := .pendingClear j) hoff hj) rfl
    · exact is_word (regAt_of_home hp (r := .target j) hoff hj) rfl
    · exact is_word (regAt_of_home hp (r := .config j) hoff hj) rfl
  · rintro rfl hoff
    have hctrl := regAt_of_home hp (r := .ctrl) hoff trivial
    exact ⟨keeps_out (is_reg hctrl ▸ nofun), is_word hctrl rfl⟩
  · rintro rfl hoff
    have hack := regAt_of_home hp (r := .ack) hoff trivial
    refine ⟨is_word hack rfl, ?_⟩
    rw [← is_reg hack, Ghost.afterRead, if_pos rfl, Ghost.claim_eq]

/-- Settles O22: the register at the offset stores under its access type; EOI completes instead. -/
theorem regWriteStoresUnderTheAccessType : Obligations.RegWriteStoresUnderTheAccessType := by
  intro s bank off d hp ha hm wi writes plain sets clears
  refine ⟨?_, ?_, ?_⟩
  · rintro rfl
    refine ⟨fun j hoff hj => ?_, fun j hoff hj => ?_, fun j hoff hj => ?_, fun j hoff hj => ?_, fun j hoff hj => ?_,
      fun j hoff hj => ?_, fun j hoff hj => ?_⟩
    · exact exec_regWrite_at ha (regAt_group_of_mapped hp hm hoff hj) rfl nofun
    · exact exec_regWrite_at ha (regAt_of_home hp (r := .enableSet j) hoff hj) rfl nofun
    · exact exec_regWrite_at ha (regAt_of_home hp (r := .enableClear j) hoff hj) rfl nofun
    · exact exec_regWrite_at ha (regAt_of_home hp (r := .pendingSet j) hoff hj) rfl nofun
    · exact exec_regWrite_at ha (regAt_of_home hp (r := .pendingClear j) hoff hj) rfl nofun
    · exact exec_regWrite_at ha (regAt_of_home hp (r := .target j) hoff hj) rfl nofun
    · exact exec_regWrite_at ha (regAt_of_home hp (r := .config j) hoff hj) rfl nofun
  · rintro rfl hoff
    exact exec_regWrite_at ha (regAt_of_home hp (r := .ctrl) hoff trivial) rfl nofun
  · rintro rfl hoff
    have hexec := exec_regWrite_eoi hoff d ha
    refine ⟨fun l hlast => ?_, fun hlast => ?_⟩
    · rw [Ghost.endService_in_order (g := s.ghost.record _) hlast] at hexec
      exact hexec
    · rw [Ghost.endService_out_of_order (g := s.ghost.record _) hlast] at hexec
      exact hexec

end Sys2Proof.Machine
end

section
/-! The family 41_mask_resolver.md: one probe read of RESOLVE_MASK (R92, R93), its response (R95), and the scan of the
whole command up to the first word that is not 0 (R94). -/

namespace Sys2Proof.Machine

variable {s t : State}

/-! ### The reads of an unresolved RESOLVE_MASK (R93) -/

theorem transactions_resolveMask (hm : s.block.maskValid = false) :
    transactions .resolveMask s = (List.range 8).map fun i => .read .dist (probeOff i) :=
  if_neg (by simp [hm])

theorem length_transactions_resolveMask (hm : s.block.maskValid = false) :
    (transactions .resolveMask s).length = 8 := by
  rw [transactions_resolveMask hm, List.length_map, List.length_range]

theorem getElem?_transactions_resolveMask (hm : s.block.maskValid = false) (n : BitVec 3) :
    (transactions .resolveMask s)[n.toNat]? = some (.read .dist (probeOff n.toNat)) := by
  rw [transactions_resolveMask hm, List.getElem?_map, List.getElem?_range n.isLt]
  rfl

/-- The state after the read of TARGET word `k`, with the block's own registers `b`. -/
def State.probed (s : State) (k : Nat) (b : Block) : State :=
  traced { s with block := b } .read .dist (probeOff k) (wordAt s.banks.tgt k)

/-- The state after the acknowledged read of TARGET word `k`, with the word in `HOLD`. -/
def State.afterProbe (s : State) (k : Nat) : State := s.probed k { s.block with hold := wordAt s.banks.tgt k }

theorem perform_probe (hp : paramsOk s.params = true) (n : BitVec 3) :
    s.perform (.read .dist (probeOff n.toNat)) = some (s.afterProbe n.toNat) :=
  perform_read (regAt_probeOff hp n.toNat n.isLt) rfl nofun

/-! ### The end of RESOLVE_MASK (R93, R95) -/

/-- The scan goes on exactly after a word that is 0: the fold loses no bit (R92). -/
theorem stopOf_resolveMask_eq_false_iff (t : State) : stopOf .resolveMask t = false ↔ t.block.hold = 0#32 := by
  simp [stopOf, stopResolveMask, fold_eq_zero]

theorem stopOf_resolveMask_eq_true_iff (t : State) : stopOf .resolveMask t = true ↔ t.block.hold ≠ 0#32 := by
  rw [ne_eq, ← stopOf_resolveMask_eq_false_iff, Bool.not_eq_false]

/-- A last word that is not 0 is folded into the mask, which is the response. -/
theorem finishOf_resolveMask_of_ne_zero (hm : t.block.maskValid = false) (hw : t.block.hold ≠ 0#32) :
    finishOf .resolveMask t =
      answered (t.adoptMask (fold t.block.hold) false) .ok (BitVec.ofNat 32 (fold t.block.hold).toNat) := by
  have hstop : stopResolveMask t = true := (stopOf_resolveMask_eq_true_iff t).2 hw
  simp only [finishOf, finishResolveMask, hm, hstop, Bool.false_eq_true, if_false, if_true, maskResponse_eq_ofNat,
    State.endCommand_eq_answered]
  rfl

/-- A last word that is 0 gives the default mask, with the default bit in the response. -/
theorem finishOf_resolveMask_of_eq_zero (hm : t.block.maskValid = false) (hw : t.block.hold = 0#32) :
    finishOf .resolveMask t = answered (t.adoptMask 0x01#8 true) .ok 0x101#32 := by
  have hstop : stopResolveMask t = false := (stopOf_resolveMask_eq_false_iff t).2 hw
  simp only [finishOf, finishResolveMask, hm, hstop, Bool.false_eq_true, if_false, maskResponse_eq_ofNat,
    State.endCommand_eq_answered]
  rfl

/-! ### One probe read -/

section
variable {n : BitVec 3} (ha : ackedAt s n) (hp : paramsOk s.params = true) (hm : s.block.maskValid = false)
include ha hp hm

/-- A word that is not 0 ends the command with its fold as the mask. -/
theorem exec_resolveMask_of_ne_zero (hw : wordAt s.banks.tgt n.toNat ≠ 0#32) :
    exec .resolveMask s = .next (answered (s.probed n.toNat { s.block with
      hold := wordAt s.banks.tgt n.toNat, maskCache := fold (wordAt s.banks.tgt n.toNat)
      maskValid := true, maskDefaulted := false }) .ok
        (BitVec.ofNat 32 (fold (wordAt s.banks.tgt n.toNat)).toNat)) := by
  have hstop := (stopOf_resolveMask_eq_true_iff (s.afterProbe n.toNat)).2 hw
  rw [exec_xfer_last ha (getElem?_transactions_resolveMask hm n) (perform_probe hp n) (.inl hstop),
    finishOf_resolveMask_of_ne_zero (t := s.afterProbe n.toNat) hm hw]
  rfl

/-- A word that is 0 and not the eighth leads to the next word. -/
theorem exec_resolveMask_of_eq_zero (hw : wordAt s.banks.tgt n.toNat = 0#32) (hn : n ≠ 7#3) :
    exec .resolveMask s = .next (s.probed n.toNat { s.block with
      hold := wordAt s.banks.tgt n.toNat, step := n + 1#3 }) := by
  have hgoes := (stopOf_resolveMask_eq_false_iff (s.afterProbe n.toNat)).2 hw
  have hmore : n.toNat + 1 ≠ (transactions .resolveMask s).length := by
    rw [length_transactions_resolveMask hm]
    bv_omega
  rw [exec_xfer_advance ha (getElem?_transactions_resolveMask hm n) (perform_probe hp n) hgoes hmore]
  obtain ⟨-, rfl, -⟩ := ha
  rfl

/-- An eighth word that is 0 ends the command with the default mask. -/
theorem exec_resolveMask_of_last_eq_zero (hw : wordAt s.banks.tgt n.toNat = 0#32) (hn : n = 7#3) :
    exec .resolveMask s = .next (answered (s.probed n.toNat { s.block with
      hold := wordAt s.banks.tgt n.toNat, maskCache := 0x01#8, maskValid := true, maskDefaulted := true })
        .ok 0x101#32) := by
  have hlast : n.toNat + 1 = (transactions .resolveMask s).length := by
    rw [length_transactions_resolveMask hm, hn]
    rfl
  rw [exec_xfer_last ha (getElem?_transactions_resolveMask hm n) (perform_probe hp n) (.inr hlast),
    finishOf_resolveMask_of_eq_zero (t := s.afterProbe n.toNat) hm hw]
  rfl

end

/-! ### The scan (R93, R94) -/

/-- The trace entry of the read of TARGET word `k`. -/
def State.probeEntry (s : State) (k : Nat) : TraceEntry := ⟨.read, .dist, probeOff k, wordAt s.banks.tgt k⟩

/-- The state after the reads of TARGET words `0` to `k - 1`, with the block's own registers `b`. -/
def State.scanned (s : State) (k : Nat) (b : Block) : State :=
  { s with block := b, ghost := { s.ghost with trace := s.ghost.trace ++ (List.range k).map s.probeEntry } }

/-- The block's own registers in XFER before the read of TARGET word `k`, with the word `h` in `HOLD`. -/
def Block.probing (b : Block) (k : Nat) (h : Word) : Block :=
  { b with fsm := .xfer, step := BitVec.ofNat 3 k, hold := h }

theorem State.scanned_zero (s : State) (b : Block) : s.scanned 0 b = { s with block := b } := by
  rw [State.scanned, List.range_zero, List.map_nil, List.append_nil]

/-- One more read makes the scan one word longer. -/
theorem State.probed_scanned (s : State) (k : Nat) (b b' : Block) :
    (s.scanned k b).probed k b' = s.scanned (k + 1) b' := by
  simp only [State.scanned, State.probed, traced, List.range_succ, List.map_append, List.append_assoc]
  rfl

theorem toNat_stepNumber {k : Nat} (hk : k < 8) : (BitVec.ofNat 3 k).toNat = k := by
  rw [BitVec.toNat_ofNat, Nat.mod_eq_of_lt hk]

theorem ackedAt_scanned_probing (hack : s.ports.pins.busAck = true) (k : Nat) (h : Word) :
    ackedAt (s.scanned k (s.block.probing k h)) (BitVec.ofNat 3 k) := ⟨rfl, rfl, hack⟩

section
variable (hp : paramsOk s.params = true) (hack : s.ports.pins.busAck = true) (hm : s.block.maskValid = false)
include hp hack hm

/-- The scan passes a word that is 0 and not the eighth. -/
theorem exec_resolveMask_scan {k : Nat} (hk : k + 1 < 8) (h : Word) (hw : wordAt s.banks.tgt k = 0#32) :
    exec .resolveMask (s.scanned k (s.block.probing k h)) =
      .next (s.scanned (k + 1) (s.block.probing (k + 1) (wordAt s.banks.tgt k))) := by
  have hnum := toNat_stepNumber (Nat.lt_of_succ_lt hk)
  have hnot : BitVec.ofNat 3 k ≠ 7#3 := by bv_omega
  rw [exec_resolveMask_of_eq_zero (ackedAt_scanned_probing hack k h) hp hm (hnum.symm ▸ hw) hnot, hnum,
    State.probed_scanned, ← BitVec.ofNat_add]
  rfl

variable (hf : s.block.fsm = .decode)
include hf

/-- After `k` words that are 0 the block is about to read word `k`. -/
theorem runExec_resolveMask_scan {k : Nat} (hk : k < 8) (hz : ∀ j, j < k → wordAt s.banks.tgt j = 0#32) :
    ∃ h, runExec .resolveMask (k + 1) s = .next (s.scanned k (s.block.probing k h)) := by
  induction k with
  | zero =>
    have hsome : transactions .resolveMask s ≠ [] := transactions_ne_nil rfl (by simp [hm])
    refine ⟨s.block.hold, (runExec_one (exec_decode_enter hf rfl hsome)).trans ?_⟩
    rw [State.scanned_zero]
    rfl
  | succ k ih =>
    obtain ⟨h, hrun⟩ := ih (Nat.lt_of_succ_lt hk) fun j hj => hz j (Nat.lt_succ_of_lt hj)
    exact ⟨_, (runExec_add hrun).trans (runExec_one (exec_resolveMask_scan hp hack hm hk h (hz k k.lt_succ_self)))⟩

/-- The whole command, if TARGET word `k` is the first that is not 0. -/
theorem runExec_resolveMask_of_ne_zero {k : Nat} (hk : k < 8) (hz : ∀ j, j < k → wordAt s.banks.tgt j = 0#32)
    (hw : wordAt s.banks.tgt k ≠ 0#32) :
    runExec .resolveMask (k + 2) s = .next (answered (s.scanned (k + 1) { s.block with
      step := BitVec.ofNat 3 k, hold := wordAt s.banks.tgt k, maskCache := fold (wordAt s.banks.tgt k)
      maskValid := true, maskDefaulted := false }) .ok (BitVec.ofNat 32 (fold (wordAt s.banks.tgt k)).toNat)) := by
  obtain ⟨h, hrun⟩ := runExec_resolveMask_scan hp hack hm hf hk hz
  have hnum := toNat_stepNumber hk
  have hexec := exec_resolveMask_of_ne_zero (ackedAt_scanned_probing hack k h) hp hm (hnum.symm ▸ hw)
  rw [hnum, State.probed_scanned] at hexec
  exact (runExec_add hrun).trans (runExec_one hexec)

/-- The whole command, if the eight words are 0. -/
theorem runExec_resolveMask_of_all_zero (hz : ∀ j, j < 8 → wordAt s.banks.tgt j = 0#32) :
    runExec .resolveMask 9 s = .next (answered (s.scanned 8 { s.block with
      step := 7#3, hold := 0#32, maskCache := 0x01#8, maskValid := true, maskDefaulted := true }) .ok 0x101#32) := by
  have h7 : 7 < 8 := by decide
  obtain ⟨h, hrun⟩ := runExec_resolveMask_scan hp hack hm hf h7 fun j hj => hz j (hj.trans h7)
  have hexec := exec_resolveMask_of_last_eq_zero (ackedAt_scanned_probing hack 7 h) hp hm (hz 7 h7) rfl
  rw [toNat_stepNumber h7, State.probed_scanned] at hexec
  rw [← hz 7 h7]
  exact (runExec_add hrun).trans (runExec_one hexec)

end

/-! ### The statements -/

/-- Settles O33, one lemma per case; the OR of the four bytes is the fold. -/
theorem resolverProbesOneWordPerStep : Obligations.ResolverProbesOneWordPerStep := by
  intro s n hp ha hm w m after
  have hfold : m = fold w := (fold_eq w).symm
  refine ⟨fun hw => ?_, exec_resolveMask_of_eq_zero ha hp hm, exec_resolveMask_of_last_eq_zero ha hp hm⟩
  rw [hfold]
  exact exec_resolveMask_of_ne_zero ha hp hm hw

/-- Settles O39: the scan passes the words that are 0, by induction on their number, and the next read ends it. -/
theorem resolverAdoptsTheFirstNonzeroWord : Obligations.ResolverAdoptsTheFirstNonzeroWord := by
  intro s hp hf hack hm word entry
  refine ⟨fun k hk hz hw => ?_, runExec_resolveMask_of_all_zero hp hack hm hf⟩
  intro m
  have hfold : m = fold (word k) := (fold_eq (word k)).symm
  rw [hfold]
  exact runExec_resolveMask_of_ne_zero hp hack hm hf hk hz hw

end Sys2Proof.Machine
end

section
/-! The family 42_trigger.md: the read-modify-write of SET_TRIGGER and of SET_TYPE with a supported code (R97, 46_set_type.md
R114), what the whole command changes (R98), and its repetition (R99). -/

namespace Sys2Proof.Machine

variable {s : State}

/-! ### A plain read/write word under its write-ignore mask (10_state.md R31) -/

/-- A write to word `j` stores the bits of that word that are not write-ignored, and no other bit of the family. -/
theorem getLsbD_setWordAt_writeRw {n : Nat} (x : BitVec n) (j : Nat) (v wi : Word) {k : Nat} (hk : k < n) :
    (setWordAt x j (writeRw (wordAt x j) v wi)).getLsbD k =
      if k / 32 = j ∧ wi.getLsbD (k % 32) = false then v.getLsbD (k % 32) else x.getLsbD k := by
  rw [getLsbD_setWordAt]
  by_cases hj : k / 32 = j
  · have hin : 32 * j ≤ k ∧ k < 32 * j + 32 := by omega
    have hsub : k - 32 * j = k % 32 := by omega
    have hback : 32 * j + k % 32 = k := by omega
    rw [if_pos hin, hsub, getLsbD_writeRw, getLsbD_wordAt, hback]
    cases wi.getLsbD (k % 32) <;> simp [hj, hk, Nat.mod_lt]
  · rw [if_neg (by omega), if_neg (hj ∘ And.left)]

/-! ### The commands that configure a trigger -/

theorem runExec_congr {i j : Instr} (h : ∀ s, exec i s = exec j s) (k : Nat) (s : State) :
    runExec i k s = runExec j k s := by
  induction k generalizing s with
  | zero => rfl
  | succ k ih =>
    obtain ⟨t, ht⟩ := exec_next j s
    rw [runExec_succ ht, runExec_succ ((h s).trans ht), ih]

/-- SET_TYPE with a supported code is SET_TRIGGER with the code's kind, in every state (46_set_type.md R114, R115). -/
theorem exec_setType_eq_setTrigger {arg : BitVec 4} {kind : TrigKind} (h : typeKind arg = some kind) (irq : IrqId)
    (s : State) : exec (.setType arg irq) s = exec (.setTrigger kind irq) s := by
  have hcheck : validate (.setType arg irq) s = validate (.setTrigger kind irq) s := by
    simp only [validate, checkSetType, checkSetTrigger, checkType, h, firstFailing_cons_none]
    cases checkRange s.params irq <;> rfl
  have hseq : transactions (.setType arg irq) s = transactions (.setTrigger kind irq) s := by
    simp only [transactions, seqSetType, seqSetTrigger, h]
  rw [exec_eq_runCommand, exec_eq_runCommand, hcheck, hseq]
  rfl

/-- Every command of R97 and R114 runs as SET_TRIGGER. -/
theorem exec_eq_setTrigger {i : Instr} {kind : TrigKind} {irq : IrqId}
    (h : i = .setTrigger kind irq ∨ (kind = .edge ∧ (i = .setType 1#4 irq ∨ i = .setType 2#4 irq)) ∨
      (kind = .level ∧ (i = .setType 4#4 irq ∨ i = .setType 8#4 irq))) (s : State) :
    exec i s = exec (.setTrigger kind irq) s := by
  rcases h with rfl | ⟨rfl, rfl | rfl⟩ | ⟨rfl, rfl | rfl⟩
  · rfl
  all_goals exact exec_setType_eq_setTrigger rfl irq s

theorem trigMux_eq_ite (kind : TrigKind) (irq : IrqId) (h : Word) :
    trigMux kind irq h = if kind = .edge then h ||| oneHot (cb irq) else h &&& ~~~oneHot (cb irq) := by
  cases kind <;> rfl

/-! ### The two transactions (R97) -/

/-- The CONFIG word of the interrupt. -/
def State.cfgWord (s : State) (irq : IrqId) : Word := wordAt s.banks.cfg (w16 irq)

/-- The state after the read of the CONFIG word, with the word in `HOLD` and its write to come. -/
def State.cfgRead (s : State) (irq : IrqId) : State :=
  traced { s with block := { s.block with hold := s.cfgWord irq, step := 1#3 } }
    .read .dist (cfgOff irq) (s.cfgWord irq)

/-- `CFG` after a write of `v` to the CONFIG word of the interrupt. -/
def State.cfgWritten (s : State) (irq : IrqId) (v : Word) : BitVec 2048 :=
  setWordAt s.banks.cfg (w16 irq) (writeRw (s.cfgWord irq) v (writeIgnoreAt s.params .dist (cfgOff irq)))

theorem getLsbD_cfgWritten (s : State) (irq : IrqId) (v : Word) {k : Nat} (hk : k < 2048) :
    (s.cfgWritten irq v).getLsbD k =
      if k / 32 = w16 irq ∧ (writeIgnoreAt s.params .dist (cfgOff irq)).getLsbD (k % 32) = false
      then v.getLsbD (k % 32) else s.banks.cfg.getLsbD k :=
  getLsbD_setWordAt_writeRw _ _ _ _ hk

section
variable {irq : IrqId} (hp : paramsOk s.params = true) (hi : irq.toNat < s.params.nIrq) (kind : TrigKind)
include hp hi

/-- Step 0 reads the CONFIG word. -/
theorem exec_setTrigger_read (ha : ackedAt s 0#3) : exec (.setTrigger kind irq) s = .next (s.cfgRead irq) := by
  have hread : s.perform (.read .dist (cfgOff irq)) = some (traced { s with
      block := { s.block with hold := s.cfgWord irq } } .read .dist (cfgOff irq) (s.cfgWord irq)) :=
    perform_read (regAt_cfgOff hp irq hi) rfl nofun
  have hmore : (0#3).toNat + 1 ≠ (transactions (.setTrigger kind irq) s).length := by
    simp [transactions, seqSetTrigger, triggerSequence]
  rw [exec_xfer_advance ha rfl hread rfl hmore]
  obtain ⟨-, hstep, -⟩ := ha
  simp only [State.advance, State.cfgRead, traced, hstep]
  rfl

/-- Step 1 writes it back through the trigger mux and ends the command. -/
theorem exec_setTrigger_write (ha : ackedAt s 1#3) :
    exec (.setTrigger kind irq) s = .next (answered (traced { s with
      banks := { s.banks with cfg := s.cfgWritten irq (trigMux kind irq s.block.hold) } }
        .write .dist (cfgOff irq) (trigMux kind irq s.block.hold)) .ok 0#32) :=
  exec_xfer_last ha rfl (perform_write (regAt_cfgOff hp irq hi) rfl nofun) (.inr rfl)

end

/-! ### The whole command (R98) -/

/-- The state in which the whole of SET_TRIGGER ends. -/
def State.configured (s : State) (kind : TrigKind) (irq : IrqId) : State :=
  let v := trigMux kind irq (s.cfgWord irq)
  answered (traced { s.cfgRead irq with banks := { s.banks with cfg := s.cfgWritten irq v } }
    .write .dist (cfgOff irq) v) .ok 0#32

theorem runExec_setTrigger {irq : IrqId} (hp : paramsOk s.params = true) (hi : irq.toNat < s.params.nIrq)
    (kind : TrigKind) (hf : s.block.fsm = .decode) (hack : s.ports.pins.busAck = true) :
    runExec (.setTrigger kind irq) 3 s = .next (s.configured kind irq) := by
  have hvalid : validate (.setTrigger kind irq) s = none := (checkRange_eq_none_iff s.params irq).2 hi
  rw [runExec_succ (exec_decode_enter hf hvalid (List.cons_ne_nil _ _)),
    runExec_succ (exec_setTrigger_read (s := s.enterXfer) hp hi kind ⟨rfl, rfl, hack⟩)]
  exact runExec_one (exec_setTrigger_write (s := s.enterXfer.cfgRead irq) hp hi kind ⟨rfl, rfl, hack⟩)

/-- The trigger bit of the interrupt takes the kind, unless it is write-ignored, and no other bit of `CFG` changes. -/
theorem getLsbD_configured_cfg (s : State) (kind : TrigKind) (irq : IrqId) {k : Nat} (hk : k < 2048) :
    (s.configured kind irq).banks.cfg.getLsbD k =
      if k = 2 * irq.toNat + 1 ∧ (writeIgnoreAt s.params .dist (cfgOff irq)).getLsbD (cb irq) = false
      then decide (kind = .edge) else s.banks.cfg.getLsbD k := by
  have hword := word_bit_of_cfg irq
  have hcb := cb_lt irq
  refine (getLsbD_cfgWritten s irq _ hk).trans ?_
  by_cases hj : k / 32 = w16 irq
  · have hback : 32 * w16 irq + k % 32 = k := by omega
    have hbit : k = 2 * irq.toNat + 1 ↔ k % 32 = cb irq := by omega
    simp only [getLsbD_trigMux, State.cfgWord, getLsbD_wordAt, hback, hbit, hj, true_and]
    by_cases hc : k % 32 = cb irq
    · simp only [hc, true_and, if_true]
      rfl
    · simp [hc, Nat.mod_lt]
  · have hne : k ≠ 2 * irq.toNat + 1 := by omega
    rw [if_neg (hj ∘ And.left), if_neg (hne ∘ And.left)]

/-! ### Reading back and repeating (R99) -/

theorem toNat_cfgOff (irq : IrqId) : (BitVec.ofNat 12 (cfgOff irq)).toNat = cfgOff irq := by
  have := w16_lt irq
  rw [BitVec.toNat_ofNat, cfgOff]
  omega

/-- The whole of REG_READ at a register answers the register's word (40_register_access.md R88). -/
theorem runExec_regRead {bank : Bank} {off : BitVec 12} {r : Reg} {v : Word} (hf : s.block.fsm = .decode)
    (hack : s.ports.pins.busAck = true) (hr : regAt s.params bank off.toNat = some r) (hv : s.peek r = some v) :
    ∃ u, runExec (.regRead bank off) 2 s = .next u ∧ u.block.rspStatus = .ok ∧ u.block.rspData = v := by
  have hreadable : r.allows .read = true := by rw [← peek_isSome s r, hv, Option.isSome_some]
  have hvalid : validate (.regRead bank off) s = none :=
    (checkMapped_eq_none_iff s.params bank off .read).2 ((mapped_of_regAt hr .read).trans hreadable)
  rw [runExec_succ (exec_decode_enter hf hvalid (List.cons_ne_nil _ _)),
    runExec_one (exec_regRead_at (s := s.enterXfer) (v := v) ⟨rfl, rfl, hack⟩ hr (by cases r <;> exact hv))]
  exact ⟨_, rfl, rfl, rfl⟩

/-- The trigger mux under a write-ignore mask changes nothing the second time. -/
theorem writeRw_trigMux_idem (kind : TrigKind) (irq : IrqId) (wi w : Word) :
    writeRw (writeRw w (trigMux kind irq w) wi) (trigMux kind irq (writeRw w (trigMux kind irq w) wi)) wi =
      writeRw w (trigMux kind irq w) wi := by
  apply BitVec.eq_of_getLsbD_eq
  intro k _
  simp only [getLsbD_writeRw, getLsbD_trigMux]
  split
  · rfl
  · split <;> rfl

/-- Repeating the command leaves the banks as the first left them. -/
theorem banks_configured_configured (s : State) (kind : TrigKind) (irq : IrqId) :
    ((relatched (s.configured kind irq)).configured kind irq).banks = (s.configured kind irq).banks := by
  have hfits : 32 * w16 irq + 32 ≤ 2048 := by have := w16_lt irq; omega
  exact congrArg (fun x => { s.banks with cfg := x })
    (setWordAt_idem (f := fun w => writeRw w (trigMux kind irq w) (writeIgnoreAt s.params .dist (cfgOff irq)))
      s.banks.cfg hfits (writeRw_trigMux_idem kind irq _))

/-! ### The statements -/

/-- Settles O28: the commands run as SET_TRIGGER, whose two transactions are a lemma each. -/
theorem triggerCommandsReadThenWrite : Obligations.TriggerCommandsReadThenWrite := by
  intro s i kind irq hp hi hcommand off b v wi
  have hv : trigMux kind irq s.block.hold = v := trigMux_eq_ite kind irq s.block.hold
  rw [exec_eq_setTrigger hcommand]
  refine ⟨exec_setTrigger_read hp hi kind, fun ha => ⟨s.cfgWritten irq v, ?_, fun k => getLsbD_cfgWritten s irq v⟩⟩
  rw [← hv]
  exact exec_setTrigger_write hp hi kind ha

/-- Settles O34: the commands run as SET_TRIGGER, whose last state is known in full. -/
theorem triggerCommandsPreserveEveryOtherBit : Obligations.TriggerCommandsPreserveEveryOtherBit := by
  intro s i kind irq hp hi hcommand hf hack
  have hrun := runExec_setTrigger hp hi kind hf hack
  rw [← runExec_congr (exec_eq_setTrigger hcommand)] at hrun
  refine ⟨_, hrun, rfl, rfl, rfl, rfl, rfl, rfl, rfl, rfl, ?_, fun k => getLsbD_configured_cfg s kind irq⟩
  simp [State.configured, State.cfgRead, answered, traced]

/-- Settles O35: the word read holds the trigger bit just written, and the read-modify-write is idempotent. -/
theorem triggerReadsBackAndIsIdempotent : Obligations.TriggerReadsBackAndIsIdempotent := by
  intro s kind irq hp hi hwi hf hack
  have hcfg : regAt s.params .dist (BitVec.ofNat 12 (cfgOff irq)).toNat = some (.config (w16 irq)) :=
    (toNat_cfgOff irq).symm ▸ regAt_cfgOff hp irq hi
  obtain ⟨u, hread, hok, hdata⟩ :=
    runExec_regRead (s := relatched (s.configured kind irq)) rfl hack hcfg rfl
  refine ⟨_, u, _, runExec_setTrigger hp hi kind hf hack, hread, hok, ?_,
    runExec_setTrigger (s := relatched (s.configured kind irq)) hp hi kind rfl hack,
    banks_configured_configured s kind irq⟩
  have hbit : 2 * irq.toNat + 1 < 2048 := by have := irq.isLt; omega
  calc u.block.rspData.getLsbD (cb irq)
      = (s.configured kind irq).banks.cfg.getLsbD (2 * irq.toNat + 1) := by
        rw [hdata]
        exact (getLsbD_wordAt _ _ _).trans (by simp [cb_lt, word_bit_of_cfg, relatched])
    _ = decide (kind = .edge) := (getLsbD_configured_cfg s kind irq hbit).trans (if_pos ⟨rfl, hwi⟩)

end Sys2Proof.Machine
end

section
/-! The family 43_pending_security.md: the one write of SET_PENDING and CLEAR_PENDING (R100, R101), and the
read-modify-write of SET_SECURITY with the dedicated GROUP family (R102) and with the aliased one (R103). -/

namespace Sys2Proof.Machine

variable {s : State}

/-! ### One bit of a family (20_memory.md R47, 10_state.md R31) -/

/-- A word written that has `c` at the bit of an interrupt, if that bit is not write-ignored, and is the old word
elsewhere changes at most that bit of the family. -/
theorem getLsbD_setWordAt_of_oneBit {x : BitVec 1024} {irq : IrqId} {v wi : Word} {c : Bool}
    (hv : ∀ i, v.getLsbD i =
      if i = b32 irq ∧ wi.getLsbD i = false then c else (wordAt x (w32 irq)).getLsbD i) (k : IrqId) :
    (setWordAt x (w32 irq) v).getLsbD k.toNat =
      if k = irq ∧ wi.getLsbD (b32 irq) = false then c else x.getLsbD k.toNat := by
  have hbit := word_bit_of_irq irq
  have hlow := b32_lt irq
  rw [getLsbD_setWordAt]
  by_cases hin : 32 * w32 irq ≤ k.toNat ∧ k.toNat < 32 * w32 irq + 32
  · have hpos : k.toNat - 32 * w32 irq = b32 irq ↔ k = irq := by rw [← BitVec.toNat_inj]; omega
    have hback : 32 * w32 irq + (k.toNat - 32 * w32 irq) = k.toNat := by omega
    have hlane : k.toNat - 32 * w32 irq < 32 := by omega
    rw [if_pos hin, hv, getLsbD_wordAt, hback, decide_eq_true hlane, decide_eq_true k.isLt, Bool.true_and,
      Bool.true_and]
    by_cases hk : k = irq
    · rw [hpos.2 hk]
      simp only [hk, true_and]
    · rw [if_neg (hk ∘ hpos.1 ∘ And.left), if_neg (hk ∘ And.left)]
  · have hk : k ≠ irq := fun h => hin (by rw [h]; omega)
    rw [if_neg hin, if_neg (hk ∘ And.left)]

/-- The write of an interrupt's bit to a write-one-to-set word. -/
theorem getLsbD_setWordAt_writeW1s (x : BitVec 1024) (irq : IrqId) (wi : Word) (k : IrqId) :
    (setWordAt x (w32 irq) (writeW1s (wordAt x (w32 irq)) (bitMask irq) wi)).getLsbD k.toNat =
      if k = irq ∧ wi.getLsbD (b32 irq) = false then true else x.getLsbD k.toNat := by
  refine getLsbD_setWordAt_of_oneBit (fun i => ?_) k
  rw [getLsbD_writeW1s, getLsbD_bitMask]
  by_cases hi : i = b32 irq
  · cases wi.getLsbD i <;> simp [hi]
  · simp [hi]

/-- The write of an interrupt's bit to a write-one-to-clear word. -/
theorem getLsbD_setWordAt_writeW1c (x : BitVec 1024) (irq : IrqId) (wi : Word) (k : IrqId) :
    (setWordAt x (w32 irq) (writeW1c (wordAt x (w32 irq)) (bitMask irq) wi)).getLsbD k.toNat =
      if k = irq ∧ wi.getLsbD (b32 irq) = false then false else x.getLsbD k.toNat := by
  refine getLsbD_setWordAt_of_oneBit (fun i => ?_) k
  rw [getLsbD_writeW1c, getLsbD_bitMask]
  by_cases hi : i = b32 irq
  · cases wi.getLsbD i <;> simp [hi]
  · simp [hi]

/-- The write of the security mux over the word read to a plain read/write word. -/
theorem getLsbD_setWordAt_secMux (x : BitVec 1024) (sec : Security) (irq : IrqId) (wi : Word) (k : IrqId) :
    (setWordAt x (w32 irq) (writeRw (wordAt x (w32 irq)) (secMux sec irq (wordAt x (w32 irq))) wi)).getLsbD k.toNat =
      if k = irq ∧ wi.getLsbD (b32 irq) = false then sec == .nonSecure else x.getLsbD k.toNat := by
  refine getLsbD_setWordAt_of_oneBit (fun i => ?_) k
  rw [getLsbD_writeRw, getLsbD_secMux]
  by_cases hi : i = b32 irq
  · cases wi.getLsbD i <;> simp [hi]
  · simp [hi]

/-! ### The security mux on a write-one-to-set word (R103) -/

theorem secMux_eq_ite (sec : Security) (irq : IrqId) (h : Word) :
    secMux sec irq h = if sec = .nonSecure then h ||| bitMask irq else h &&& ~~~bitMask irq := by
  cases sec <;> rfl

/-- Writing back the word read with the bit set is the write of that bit alone. -/
theorem writeW1s_secMux_nonSecure (irq : IrqId) (h wi : Word) :
    writeW1s h (secMux .nonSecure irq h) wi = writeW1s h (bitMask irq) wi := by
  apply BitVec.eq_of_getLsbD_eq
  intro i _
  simp only [getLsbD_writeW1s, secMux, BitVec.getLsbD_or]
  cases h.getLsbD i <;> simp

/-- Writing back the word read with a bit cleared sets nothing. -/
theorem writeW1s_secMux_secure (irq : IrqId) (h wi : Word) : writeW1s h (secMux .secure irq h) wi = h := by
  apply BitVec.eq_of_getLsbD_eq
  intro i _
  rw [getLsbD_writeW1s, secMux, BitVec.getLsbD_and]
  cases h.getLsbD i <;> simp

/-! ### The read-modify-write of SET_SECURITY (R102) -/

/-- The state after the read of a word `w` at a Distributor offset, with `w` in `HOLD` and its write to come. -/
def State.readForUpdate (s : State) (off : Nat) (w : Word) : State :=
  traced { s with block := { s.block with hold := w, step := 1#3 } } .read .dist off w

/-- The state in which a command ends whose last transaction wrote `v` at an offset of the Distributor, leaving the
banks `b`. -/
def State.updated (s : State) (b : Banks) (off : Nat) (v : Word) : State :=
  answered (traced { s with banks := b } .write .dist off v) .ok 0#32

section
variable {irq : IrqId} {off : Nat} {r : Reg} (sec : Security)
  (hoff : grpOff s.params.groupBase irq = off) (hr : regAt s.params .dist off = some r)
include hoff hr

/-- Step 0 reads the register at `GrpOff`. -/
theorem exec_setSecurity_read {w : Word} (hw : s.peek r = some w) (hne : r ≠ .ack) (ha : ackedAt s 0#3) :
    exec (.setSecurity sec irq) s = .next (s.readForUpdate off w) := by
  have hread := perform_read hr hw hne
  have hfirst : (transactions (.setSecurity sec irq) s)[(0#3).toNat]? = some (.read .dist off) := hoff ▸ rfl
  have hmore : (0#3).toNat + 1 ≠ (transactions (.setSecurity sec irq) s).length := by
    simp [transactions, seqSetSecurity]
  rw [exec_xfer_advance ha hfirst hread rfl hmore]
  obtain ⟨-, hstep, -⟩ := ha
  simp only [State.advance, State.readForUpdate, traced, hstep]
  rfl

/-- Step 1 writes it back through the security mux and ends the command. -/
theorem exec_setSecurity_write {b : Banks}
    (hb : s.banks.poke r (secMux sec irq s.block.hold) (writeIgnoreAt s.params .dist off) = some b) (hne : r ≠ .eoi)
    (ha : ackedAt s 1#3) :
    exec (.setSecurity sec irq) s = .next (s.updated b off (secMux sec irq s.block.hold)) := by
  have hsecond : (transactions (.setSecurity sec irq) s)[(1#3).toNat]? =
      some (.write .dist off (secMux sec irq s.block.hold)) := hoff ▸ rfl
  exact exec_xfer_last ha hsecond (perform_write hr hb hne) (.inr rfl)

/-- The whole command at the register that `GrpOff` leads to. -/
theorem runExec_setSecurity {w : Word} {b : Banks} (hi : irq.toNat < s.params.nIrq) (hw : s.peek r = some w)
    (hb : s.banks.poke r (secMux sec irq w) (writeIgnoreAt s.params .dist off) = some b) (hread : r ≠ .ack)
    (hwrite : r ≠ .eoi) (hf : s.block.fsm = .decode) (hack : s.ports.pins.busAck = true) :
    runExec (.setSecurity sec irq) 3 s = .next ((s.readForUpdate off w).updated b off (secMux sec irq w)) := by
  have hvalid : validate (.setSecurity sec irq) s = none := (checkRange_eq_none_iff s.params irq).2 hi
  have hpeek : s.enterXfer.peek r = some w := by cases r <;> exact hw
  rw [runExec_succ (exec_decode_enter hf hvalid (List.cons_ne_nil _ _)),
    runExec_succ (exec_setSecurity_read (s := s.enterXfer) sec hoff hr hpeek hread ⟨rfl, rfl, hack⟩)]
  exact runExec_one
    (exec_setSecurity_write (s := s.enterXfer.readForUpdate off w) sec hoff hr hb hwrite ⟨rfl, rfl, hack⟩)

end

/-! ### The statements -/

/-- Settles O23: the one write stores under write-one-to-set. -/
theorem setPendingSetsOneBit : Obligations.SetPendingSetsOneBit := by
  intro s irq hp hi ha off
  exact ⟨_, exec_xfer_last ha rfl (perform_write (regAt_pendSetOff hp irq hi) rfl nofun) (.inr rfl),
    getLsbD_setWordAt_writeW1s s.banks.pend irq (writeIgnoreAt s.params .dist off)⟩

/-- Settles O24: the one write stores under write-one-to-clear. -/
theorem clearPendingClearsOneBit : Obligations.ClearPendingClearsOneBit := by
  intro s irq hp hi ha off
  exact ⟨_, exec_xfer_last ha rfl (perform_write (regAt_pendClrOff hp irq hi) rfl nofun) (.inr rfl),
    getLsbD_setWordAt_writeW1c s.banks.pend irq (writeIgnoreAt s.params .dist off)⟩

/-- Settles O30: `GrpOff` leads to the GROUP word, which is plain read/write. -/
theorem setSecurityReadsThenWritesTheGroup : Obligations.SetSecurityReadsThenWritesTheGroup := by
  intro s sec irq hp hi hg off b v wi
  have hoff : grpOff s.params.groupBase irq = off := hg ▸ rfl
  have hr : regAt s.params .dist off = some (.group (w32 irq)) := hoff ▸ regAt_grpOff_dedicated hp irq hi hg
  have hv : secMux sec irq s.block.hold = v := secMux_eq_ite sec irq s.block.hold
  refine ⟨exec_setSecurity_read sec hoff hr rfl nofun, fun ha => ⟨_, ?_, fun k => getLsbD_setWordAt_writeRw
    s.banks.grp (w32 irq) v wi⟩⟩
  rw [← hv]
  exact exec_setSecurity_write sec hoff hr rfl nofun ha

/-- Settles O36: the GROUP word read is written back with one bit changed. -/
theorem setSecurityPreservesEveryOtherBit : Obligations.SetSecurityPreservesEveryOtherBit := by
  intro s sec irq hp hi hg hf hack
  have hoff : grpOff s.params.groupBase irq = 0x080 + 4 * (irq.toNat / 32) := hg ▸ rfl
  have hr := hoff ▸ regAt_grpOff_dedicated hp irq hi hg
  refine ⟨_, runExec_setSecurity sec hoff hr hi rfl rfl nofun nofun hf hack, rfl, rfl, rfl, rfl, rfl, ?_,
    getLsbD_setWordAt_secMux s.banks.grp sec irq _⟩
  simp [State.updated, State.readForUpdate, answered, traced]

/-- Settles O31: `GrpOff` leads to the ENABLE_SET word, where the word read back has an effect only at the bit set. -/
theorem aliasedSetSecurityEnables : Obligations.AliasedSetSecurityEnables := by
  intro s sec irq hp hi hg hf hack off h b v
  have hoff : grpOff s.params.groupBase irq = off := hg ▸ rfl
  have hr : regAt s.params .dist off = some (.enableSet (w32 irq)) := hoff ▸ regAt_grpOff_aliased hp irq hi hg
  have hv : secMux sec irq h = v := secMux_eq_ite sec irq h
  rw [← hv]
  refine ⟨setWordAt s.banks.en (w32 irq) (writeW1s h (secMux sec irq h) (writeIgnoreAt s.params .dist off)),
    runExec_setSecurity sec hoff hr hi rfl rfl nofun nofun hf hack, ?_, ?_⟩
  · rintro rfl
    rw [writeW1s_secMux_secure]
    exact setWordAt_wordAt s.banks.en (w32 irq)
  · rintro rfl k
    rw [writeW1s_secMux_nonSecure]
    exact getLsbD_setWordAt_writeW1s s.banks.en irq _ k

end Sys2Proof.Machine
end

section
/-! The family 44_enable_disable.md: the five transactions of ENABLE (R105) and the one of DISABLE (R106), what each
whole command leaves (R107, R108), and their repetition (R107). -/

namespace Sys2Proof.Machine

variable {s : State} {i : Instr} {n : BitVec 3} {bank : Bank} {off : Nat} {r : Reg} {irq : IrqId}

/-! ### A transaction that is not the last of its command (30_encoding.md R85) -/

/-- The acknowledged read of a register other than ACK fills `HOLD` and leads to the next transaction. -/
theorem exec_read_advance {v : Word} (ha : ackedAt s n)
    (hx : (transactions i s)[n.toNat]? = some (.read bank off)) (hr : regAt s.params bank off = some r)
    (hv : s.peek r = some v) (hack : r ≠ .ack) (hstop : ∀ t, stopOf i t = false)
    (hmore : n.toNat + 1 ≠ (transactions i s).length) :
    exec i s = .next (traced { s with block := { s.block with hold := v, step := n + 1#3 } } .read bank off v) := by
  rw [exec_xfer_advance ha hx (perform_read hr hv hack) (hstop _) hmore]
  obtain ⟨-, rfl, -⟩ := ha
  rfl

/-- The acknowledged write of a register other than EOI leaves the banks `b` and leads to the next transaction. -/
theorem exec_write_advance {v : Word} {b : Banks} (ha : ackedAt s n)
    (hx : (transactions i s)[n.toNat]? = some (.write bank off v)) (hr : regAt s.params bank off = some r)
    (hb : s.banks.poke r v (writeIgnoreAt s.params bank off) = some b) (heoi : r ≠ .eoi)
    (hstop : ∀ t, stopOf i t = false) (hmore : n.toNat + 1 ≠ (transactions i s).length) :
    exec i s = .next (traced { s with block := { s.block with step := n + 1#3 }, banks := b } .write bank off v) := by
  rw [exec_xfer_advance ha hx (perform_write hr hb heoi) (hstop _) hmore]
  obtain ⟨-, rfl, -⟩ := ha
  rfl

/-! ### What the writes store (20_memory.md R47, 10_state.md R31) -/

/-- `CPU_CTRL` after a write of `v`. -/
def State.ctrlStored (s : State) (v : Word) : Word :=
  writeRw s.banks.cpuCtrl v (writeIgnoreAt s.params .cpu ctrlOff)

/-- `EN` after the write of the interrupt's bit to ENABLE_SET. -/
def State.enSet (s : State) (irq : IrqId) : BitVec 1024 :=
  setWordAt s.banks.en (w32 irq)
    (writeW1s (wordAt s.banks.en (w32 irq)) (bitMask irq) (writeIgnoreAt s.params .dist (enSetOff irq)))

/-- `EN` after the write of the interrupt's bit to ENABLE_CLEAR. -/
def State.enCleared (s : State) (irq : IrqId) : BitVec 1024 :=
  setWordAt s.banks.en (w32 irq)
    (writeW1c (wordAt s.banks.en (w32 irq)) (bitMask irq) (writeIgnoreAt s.params .dist (enClrOff irq)))

/-- The TARGET word of the interrupt. -/
def State.tgtWord (s : State) (irq : IrqId) : Word := wordAt s.banks.tgt (w4 irq)

/-- `TGT` after a write of `v` to the TARGET word of the interrupt. -/
def State.tgtStored (s : State) (irq : IrqId) (v : Word) : BitVec 8192 :=
  setWordAt s.banks.tgt (w4 irq) (writeRw (s.tgtWord irq) v (writeIgnoreAt s.params .dist (tgtOff irq)))

theorem getLsbD_enSet (s : State) (irq k : IrqId) :
    (s.enSet irq).getLsbD k.toNat =
      if k = irq ∧ (writeIgnoreAt s.params .dist (enSetOff irq)).getLsbD (b32 irq) = false then true
      else s.banks.en.getLsbD k.toNat :=
  getLsbD_setWordAt_writeW1s s.banks.en irq _ k

theorem getLsbD_enCleared (s : State) (irq k : IrqId) :
    (s.enCleared irq).getLsbD k.toNat =
      if k = irq ∧ (writeIgnoreAt s.params .dist (enClrOff irq)).getLsbD (b32 irq) = false then false
      else s.banks.en.getLsbD k.toNat :=
  getLsbD_setWordAt_writeW1c s.banks.en irq _ k

theorem getLsbD_tgtStored (s : State) (irq : IrqId) (v : Word) {k : Nat} (hk : k < 8192) :
    (s.tgtStored irq v).getLsbD k =
      if k / 32 = w4 irq ∧ (writeIgnoreAt s.params .dist (tgtOff irq)).getLsbD (k % 32) = false
      then v.getLsbD (k % 32) else s.banks.tgt.getLsbD k :=
  getLsbD_setWordAt_writeRw _ _ _ _ hk

/-- The TARGET word written back with the lane replaced changes the byte of the interrupt, where it is not
write-ignored, and no other bit of `TGT` (R108). -/
theorem getLsbD_tgtStored_laneMux (s : State) (irq : IrqId) (mask : CpuMask) {k : Nat} (hk : k < 8192) :
    (s.tgtStored irq (laneMux mask irq (s.tgtWord irq))).getLsbD k =
      if k / 8 = irq.toNat ∧ (writeIgnoreAt s.params .dist (tgtOff irq)).getLsbD (k % 32) = false
      then mask.getLsbD (k % 8) else s.banks.tgt.getLsbD k := by
  have hpos := word_bit_of_tgt irq
  have hsh := sh_le irq
  rw [getLsbD_tgtStored s irq _ hk]
  by_cases hj : k / 32 = w4 irq
  · have hback : 32 * w4 irq + k % 32 = k := by omega
    have hlow : k % 32 < 32 := by omega
    by_cases hb : k / 8 = irq.toNat
    · have hin : sh irq ≤ k % 32 ∧ k % 32 < sh irq + 8 := by omega
      have hbit : k % 32 - sh irq = k % 8 := by omega
      simp only [getLsbD_laneMux, hin, hbit, hj, hb, true_and, and_self, if_true]
    · have hout : ¬ (sh irq ≤ k % 32 ∧ k % 32 < sh irq + 8) := by omega
      simp only [getLsbD_laneMux, hout, State.tgtWord, getLsbD_wordAt, hback, hlow, hb, false_and, if_false,
        decide_true, Bool.true_and, ite_self]
  · have hb : k / 8 ≠ irq.toNat := by omega
    rw [if_neg (hj ∘ And.left), if_neg (hb ∘ And.left)]

/-! ### The transactions of ENABLE (R105) -/

/-- After step 0: CTRL is in `HOLD`. -/
def State.ctrlRead (s : State) : State :=
  traced { s with block := { s.block with hold := s.banks.cpuCtrl, step := 1#3 } } .read .cpu ctrlOff s.banks.cpuCtrl

/-- After step 1: CTRL is written back with bit 3 cleared. -/
def State.ctrlWrittenBack (s : State) : State :=
  traced { s with
    block := { s.block with step := 2#3 }
    banks := { s.banks with cpuCtrl := s.ctrlStored (ctrlMux s.block.hold) } }
    .write .cpu ctrlOff (ctrlMux s.block.hold)

/-- After step 2: the enable bit is written. -/
def State.enWritten (s : State) (irq : IrqId) : State :=
  traced { s with
    block := { s.block with step := 3#3 }
    banks := { s.banks with en := s.enSet irq } } .write .dist (enSetOff irq) (bitMask irq)

/-- After step 3: the TARGET word is in `HOLD`. -/
def State.tgtRead (s : State) (irq : IrqId) : State :=
  traced { s with block := { s.block with hold := s.tgtWord irq, step := 4#3 } }
    .read .dist (tgtOff irq) (s.tgtWord irq)

/-- After step 4: the TARGET word is written back with the lane replaced, and the command has ended. -/
def State.laneWritten (s : State) (irq : IrqId) : State :=
  let v := laneMux s.block.maskCache irq s.block.hold
  s.updated { s.banks with tgt := s.tgtStored irq v } (tgtOff irq) v

theorem exec_enable_ctrlRead (ha : ackedAt s 0#3) : exec (.enable irq) s = .next s.ctrlRead :=
  exec_read_advance ha rfl (regAt_ctrlOff s.params) rfl nofun (fun _ => rfl) (by decide : 1 ≠ 5)

theorem exec_enable_ctrlWrite (ha : ackedAt s 1#3) : exec (.enable irq) s = .next s.ctrlWrittenBack :=
  exec_write_advance ha rfl (regAt_ctrlOff s.params) rfl nofun (fun _ => rfl) (by decide : 2 ≠ 5)

section
variable (hp : paramsOk s.params = true) (hi : irq.toNat < s.params.nIrq)
include hp hi

theorem exec_enable_enWrite (ha : ackedAt s 2#3) : exec (.enable irq) s = .next (s.enWritten irq) :=
  exec_write_advance ha rfl (regAt_enSetOff hp irq hi) rfl nofun (fun _ => rfl) (by decide : 3 ≠ 5)

theorem exec_enable_tgtRead (ha : ackedAt s 3#3) : exec (.enable irq) s = .next (s.tgtRead irq) :=
  exec_read_advance ha rfl (regAt_tgtOff hp irq hi) rfl nofun (fun _ => rfl) (by decide : 4 ≠ 5)

theorem exec_enable_laneWrite (ha : ackedAt s 4#3) : exec (.enable irq) s = .next (s.laneWritten irq) :=
  exec_xfer_last ha rfl (perform_write (regAt_tgtOff hp irq hi) rfl nofun) (.inr rfl)

/-- The one transaction of DISABLE writes the interrupt's bit to ENABLE_CLEAR (R106). -/
theorem exec_disable_write (ha : ackedAt s 0#3) :
    exec (.disable irq) s =
      .next (s.updated { s.banks with en := s.enCleared irq } (enClrOff irq) (bitMask irq)) :=
  exec_xfer_last ha rfl (perform_write (regAt_enClrOff hp irq hi) rfl nofun) (.inr rfl)

end

/-! ### The whole commands -/

/-- A command of the interrupt is latched, the interrupt exists, and the bus acknowledges. -/
structure Issued (s : State) (irq : IrqId) : Prop where
  params_ok : paramsOk s.params = true
  irq_lt : irq.toNat < s.params.nIrq
  decoding : s.block.fsm = .decode
  acked : s.ports.pins.busAck = true

/-- The state in which the whole of ENABLE ends. -/
def State.enabled (s : State) (irq : IrqId) : State :=
  ((s.enterXfer.ctrlRead.ctrlWrittenBack.enWritten irq).tgtRead irq).laneWritten irq

/-- The state in which the whole of DISABLE ends. -/
def State.disabled (s : State) (irq : IrqId) : State :=
  s.enterXfer.updated { s.banks with en := s.enCleared irq } (enClrOff irq) (bitMask irq)

theorem State.enabled_banks (s : State) (irq : IrqId) : (s.enabled irq).banks =
    { s.banks with
      cpuCtrl := s.ctrlStored (ctrlMux s.banks.cpuCtrl)
      en := s.enSet irq
      tgt := s.tgtStored irq (laneMux s.block.maskCache irq (s.tgtWord irq)) } := rfl

theorem State.disabled_banks (s : State) (irq : IrqId) :
    (s.disabled irq).banks = { s.banks with en := s.enCleared irq } := rfl

theorem State.enabled_params (s : State) (irq : IrqId) : (s.enabled irq).params = s.params := rfl

theorem relatched_params (s : State) : (relatched s).params = s.params := rfl

theorem State.length_enabled_trace (s : State) (irq : IrqId) :
    (s.enabled irq).ghost.trace.length = s.ghost.trace.length + 5 := by
  simp [enabled, laneWritten, updated, tgtRead, enWritten, ctrlWrittenBack, ctrlRead, answered, traced]

theorem State.length_disabled_trace (s : State) (irq : IrqId) :
    (s.disabled irq).ghost.trace.length = s.ghost.trace.length + 1 := by
  simp [disabled, updated, answered, traced]

theorem runExec_enable (h : Issued s irq) (hm : s.block.maskValid = true) :
    runExec (.enable irq) 6 s = .next (s.enabled irq) := by
  obtain ⟨hp, hi, hf, hack⟩ := h
  have hvalid : validate (.enable irq) s = none := by
    rw [validate, checkEnable, (checkRange_eq_none_iff s.params irq).2 hi, firstFailing_cons_none, checkMask, if_pos hm]
    rfl
  let ctrlDone := s.enterXfer.ctrlRead.ctrlWrittenBack
  calc runExec (.enable irq) 6 s
      = runExec (.enable irq) 5 s.enterXfer := runExec_succ (exec_decode_enter hf hvalid (List.cons_ne_nil _ _))
    _ = runExec (.enable irq) 4 s.enterXfer.ctrlRead := runExec_succ (exec_enable_ctrlRead ⟨rfl, rfl, hack⟩)
    _ = runExec (.enable irq) 3 ctrlDone := runExec_succ (exec_enable_ctrlWrite ⟨rfl, rfl, hack⟩)
    _ = runExec (.enable irq) 2 (ctrlDone.enWritten irq) :=
        runExec_succ (exec_enable_enWrite (s := ctrlDone) hp hi ⟨rfl, rfl, hack⟩)
    _ = runExec (.enable irq) 1 ((ctrlDone.enWritten irq).tgtRead irq) :=
        runExec_succ (exec_enable_tgtRead (s := ctrlDone.enWritten irq) hp hi ⟨rfl, rfl, hack⟩)
    _ = .next (s.enabled irq) :=
        runExec_one (exec_enable_laneWrite (s := (ctrlDone.enWritten irq).tgtRead irq) hp hi ⟨rfl, rfl, hack⟩)

theorem runExec_disable (h : Issued s irq) : runExec (.disable irq) 2 s = .next (s.disabled irq) := by
  obtain ⟨hp, hi, hf, hack⟩ := h
  have hvalid : validate (.disable irq) s = none := (checkRange_eq_none_iff s.params irq).2 hi
  rw [runExec_succ (exec_decode_enter hf hvalid (List.cons_ne_nil _ _))]
  exact runExec_one (exec_disable_write (s := s.enterXfer) hp hi ⟨rfl, rfl, hack⟩)

/-- After DISABLE the enable bit is clear, unless it is write-ignored. -/
theorem enBit_disabled
    (hwi : (writeIgnoreAt s.params .dist (enClrOff irq)).getLsbD (b32 irq) = false) :
    enBit (s.disabled irq).banks irq = false :=
  (getLsbD_enCleared s irq irq).trans (if_pos ⟨rfl, hwi⟩)

/-! ### Without write-ignored bits (R105, R108) -/

theorem writeIgnoreAt_of_nil {p : Params} (h : p.writeIgnore = []) (bank : Bank) (off : Nat) :
    writeIgnoreAt p bank off = 0#32 := by
  rw [writeIgnoreAt, h]
  rfl

section
variable (hw : s.params.writeIgnore = [])
include hw

theorem ctrlStored_of_nil (v : Word) : s.ctrlStored v = v := by
  rw [State.ctrlStored, writeIgnoreAt_of_nil hw, writeRw, BitVec.and_zero, BitVec.zero_or, BitVec.not_zero,
    BitVec.and_allOnes]

theorem enBit_enabled_of_nil (k : IrqId) :
    enBit (s.enabled irq).banks k = if k = irq then true else enBit s.banks k := by
  refine (getLsbD_enSet s irq k).trans ?_
  simp only [writeIgnoreAt_of_nil hw, BitVec.getLsbD_zero, and_true, enBit]

theorem tgtByte_enabled_of_nil (k : IrqId) :
    tgtByte (s.enabled irq).banks k = if k = irq then s.block.maskCache else tgtByte s.banks k := by
  have hk := k.isLt
  have hsame : k.toNat = irq.toNat ↔ k = irq := BitVec.toNat_inj
  apply BitVec.eq_of_getLsbD_eq
  intro j hj
  have hbyte : (8 * k.toNat + j) / 8 = k.toNat := by omega
  have hbit : (8 * k.toNat + j) % 8 = j := by omega
  simp only [tgtByte, State.enabled_banks, BitVec.getLsbD_extractLsb', hj, decide_true, Bool.true_and]
  rw [getLsbD_tgtStored_laneMux s irq _ (by omega)]
  simp only [writeIgnoreAt_of_nil hw, BitVec.getLsbD_zero, and_true, hbyte, hbit, hsame]
  split
  · rfl
  · simp [hj]

end

/-! ### Repetition (R107) -/

/-- Each bit of the mux's word is the bit of the word read or a fixed value (30_encoding.md R83). -/
def KeepsOrFixesBits (f : Word → Word) : Prop :=
  ∀ k, (∀ w, (f w).getLsbD k = w.getLsbD k) ∨ ∃ c, ∀ w, (f w).getLsbD k = c

/-- A read-modify-write whose mux keeps or fixes each bit changes nothing the second time, whatever is write-ignored. -/
theorem writeRw_mux_idem {f : Word → Word} (wi : Word) (hf : KeepsOrFixesBits f) (w : Word) :
    writeRw (writeRw w (f w) wi) (f (writeRw w (f w) wi)) wi = writeRw w (f w) wi := by
  apply BitVec.eq_of_getLsbD_eq
  intro k _
  rcases hf k with hkeep | ⟨c, hfix⟩
  · simp only [getLsbD_writeRw, hkeep, ite_self]
  · simp only [getLsbD_writeRw, hfix]
    split <;> rfl

theorem ctrlMux_keepsOrFixesBits : KeepsOrFixesBits ctrlMux := by
  intro k
  by_cases hk : k = 3
  · exact .inr ⟨false, fun w => by rw [getLsbD_ctrlMux, decide_eq_true hk, Bool.not_true, Bool.and_false]⟩
  · exact .inl fun w => by rw [getLsbD_ctrlMux, decide_eq_false hk, Bool.not_false, Bool.and_true]

theorem laneMux_keepsOrFixesBits (mask : CpuMask) (irq : IrqId) : KeepsOrFixesBits (laneMux mask irq) := by
  intro k
  by_cases hk : sh irq ≤ k ∧ k < sh irq + 8
  · exact .inr ⟨mask.getLsbD (k - sh irq), fun w => (getLsbD_laneMux mask irq w k).trans (if_pos hk)⟩
  · exact .inl fun w => (getLsbD_laneMux mask irq w k).trans (if_neg hk)

/-- After an ENABLE the next command of the same interrupt can be latched. -/
theorem Issued.relatched_enabled (h : Issued s irq) : Issued (relatched (s.enabled irq)) irq :=
  ⟨h.params_ok, h.irq_lt, rfl, h.acked⟩

/-- After a DISABLE the next command of the same interrupt can be latched. -/
theorem Issued.relatched_disabled (h : Issued s irq) : Issued (relatched (s.disabled irq)) irq :=
  ⟨h.params_ok, h.irq_lt, rfl, h.acked⟩

/-- A second ENABLE leaves the banks as the first left them. -/
theorem banks_enabled_enabled (s : State) (irq : IrqId) :
    ((relatched (s.enabled irq)).enabled irq).banks = (s.enabled irq).banks := by
  have hen : 32 * w32 irq + 32 ≤ 1024 := by have := w32_lt irq; omega
  have htgt : 32 * w4 irq + 32 ≤ 8192 := by have := w4_lt irq; omega
  have hctrl : (relatched (s.enabled irq)).ctrlStored (ctrlMux (s.ctrlStored (ctrlMux s.banks.cpuCtrl))) =
      s.ctrlStored (ctrlMux s.banks.cpuCtrl) :=
    writeRw_mux_idem _ ctrlMux_keepsOrFixesBits s.banks.cpuCtrl
  have henable : (relatched (s.enabled irq)).enSet irq = s.enSet irq :=
    setWordAt_idem (f := (writeW1s · (bitMask irq) (writeIgnoreAt s.params .dist (enSetOff irq)))) s.banks.en hen
      (writeW1s_idem _ _)
  have htarget : (relatched (s.enabled irq)).tgtStored irq
      (laneMux s.block.maskCache irq ((relatched (s.enabled irq)).tgtWord irq)) =
        s.tgtStored irq (laneMux s.block.maskCache irq (s.tgtWord irq)) :=
    setWordAt_idem (f := fun w =>
        writeRw w (laneMux s.block.maskCache irq w) (writeIgnoreAt s.params .dist (tgtOff irq))) s.banks.tgt htgt
      (writeRw_mux_idem _ (laneMux_keepsOrFixesBits _ irq))
  calc ((relatched (s.enabled irq)).enabled irq).banks
      = { s.banks with
          cpuCtrl := (relatched (s.enabled irq)).ctrlStored (ctrlMux (s.ctrlStored (ctrlMux s.banks.cpuCtrl)))
          en := (relatched (s.enabled irq)).enSet irq
          tgt := (relatched (s.enabled irq)).tgtStored irq
            (laneMux s.block.maskCache irq ((relatched (s.enabled irq)).tgtWord irq)) } := rfl
    _ = (s.enabled irq).banks := by rw [hctrl, henable, htarget, State.enabled_banks]

/-- A second DISABLE leaves the banks as the first left them. -/
theorem banks_disabled_disabled (s : State) (irq : IrqId) :
    ((relatched (s.disabled irq)).disabled irq).banks = (s.disabled irq).banks := by
  have hfits : 32 * w32 irq + 32 ≤ 1024 := by have := w32_lt irq; omega
  exact congrArg (fun x => { s.banks with en := x })
    (setWordAt_idem (f := (writeW1c · (bitMask irq) (writeIgnoreAt s.params .dist (enClrOff irq)))) s.banks.en hfits
      (writeW1c_idem _ _))

/-! ### The statements -/

/-- Settles O25: the one write stores under write-one-to-clear. -/
theorem disableClearsOneBit : Obligations.DisableClearsOneBit := by
  intro s irq hp hi ha off
  exact ⟨s.enCleared irq, exec_disable_write hp hi ha, getLsbD_enCleared s irq⟩

/-- Settles O32: each transaction is a lemma; the enable bit and the lane are then read off bit by bit. -/
theorem enablePerformsItsFiveTransactions : Obligations.EnablePerformsItsFiveTransactions := by
  intro s irq hp hi enOff tgtOffset lane word h
  refine ⟨exec_enable_ctrlRead, exec_enable_ctrlWrite, fun ha => ?_, exec_enable_tgtRead hp hi, fun ha => ?_⟩
  · exact ⟨s.enSet irq, exec_enable_enWrite hp hi ha, getLsbD_enSet s irq⟩
  · exact ⟨s.tgtStored irq _, laneMux s.block.maskCache irq h, exec_enable_laneWrite hp hi ha,
      fun k _ => getLsbD_laneMux s.block.maskCache irq h k, fun k => getLsbD_tgtStored s irq _⟩

/-- Settles O37: the last state of ENABLE is known in full, and nothing written is held off. -/
theorem enableRoutesOneInterrupt : Obligations.EnableRoutesOneInterrupt := by
  intro s irq hp hw hi hm hf hack
  refine ⟨s.enabled irq, runExec_enable ⟨hp, hi, hf, hack⟩ hm, rfl, rfl, rfl, ?_, rfl, rfl, rfl, rfl, rfl,
    enBit_enabled_of_nil hw, tgtByte_enabled_of_nil hw⟩
  rw [State.enabled_banks, ctrlStored_of_nil hw]
  rfl

/-- Settles O38: both last states are known in full, and every write of both commands is idempotent. -/
theorem enableAndDisableAreIdempotent : Obligations.EnableAndDisableAreIdempotent := by
  intro s irq hp hi hwi hm hf hack
  have hs : Issued s irq := ⟨hp, hi, hf, hack⟩
  have ht := hs.relatched_enabled
  have hu := ht.relatched_enabled
  have hv := hu.relatched_disabled
  refine ⟨_, _, _, _, runExec_enable hs hm, runExec_enable ht hm, banks_enabled_enabled s irq,
    State.length_enabled_trace _ irq, runExec_disable hu, enBit_disabled ?_, runExec_disable hv,
    banks_disabled_disabled _ irq, State.length_disabled_trace _ irq⟩
  simp only [relatched_params, State.enabled_params]
  exact hwi

end Sys2Proof.Machine
end

section
/-! The family 45_ack_complete.md: the one read of ACK (R109, R112), the one write of COMPLETE (R110), and the pair of
them (R111). -/

namespace Sys2Proof.Machine

variable {s : State}

/-! ### The ID in a word (10_state.md R29, R34) -/

/-- The zero-extended ID is the low ten bits of the word as a number. -/
theorem setWidth_idOf (v : Word) : (idOf v).setWidth 32 = BitVec.ofNat 32 (v.toNat % 1024) := by
  rw [idOf_eq_ofNat, ← BitVec.ofNat_toNat, BitVec.toNat_ofNat]

/-- Zero-extending an ID loses nothing of it. -/
theorem idOf_setWidth (irq : IrqId) : idOf (irq.setWidth 32) = irq := by
  have hlt := irq.isLt
  apply BitVec.eq_of_toNat_eq
  rw [idOf_eq_ofNat, BitVec.toNat_ofNat, BitVec.toNat_setWidth]
  omega

/-- The ID in a word is what its low ten bits say. -/
theorem idOf_eq_idOf_iff (v v' : Word) : idOf v = idOf v' ↔ v.toNat % 1024 = v'.toNat % 1024 := by
  rw [idOf_eq_ofNat, idOf_eq_ofNat, ← BitVec.toNat_inj, BitVec.toNat_ofNat, BitVec.toNat_ofNat]

/-! ### A claim and the end of service (10_state.md R34, R35) -/

/-- What a claim does depends on the ID in the word read alone. -/
theorem Ghost.claim_congr (g : Ghost) (p : Params) {v v' : Word} (h : idOf v = idOf v') :
    g.claim p v = g.claim p v' := by
  rw [Ghost.claim, Ghost.claim, h]

/-- The trace entry of the read and the claim do not meet. -/
theorem Ghost.record_claim (g : Ghost) (e : TraceEntry) (p : Params) (v : Word) :
    (g.record e).claim p v = (g.claim p v).record e := by
  rw [Ghost.claim_eq, Ghost.claim_eq]
  rfl

/-- The trace entry of the write and the end of service do not meet. -/
theorem Ghost.record_endService (g : Ghost) (e : TraceEntry) (v : Word) :
    (g.record e).endService v = (g.endService v).record e := by
  rw [Ghost.endService, Ghost.endService, Ghost.record_outstanding]
  split <;> rfl

/-- Ending the service of the ID just claimed undoes the claim (45_ack_complete.md R111). -/
theorem Ghost.endService_claim (g : Ghost) {p : Params} {v : Word} (h : (idOf v).toNat < p.nIrq) :
    (g.claim p v).endService ((idOf v).setWidth 32) = g := by
  rcases Ghost.claim_cases g p v with ⟨-, hclaim⟩ | ⟨hge, -⟩
  · rw [hclaim]
    exact Ghost.endService_in_order (l := g.outstanding) (by rw [← idOf_eq_ofNat, idOf_setWidth])
  · exact absurd h (Nat.not_lt.2 hge)

/-! ### The one transaction of each command -/

/-- The state in which ACK ends whose read returned the word the environment drew. -/
def State.acknowledged (s : State) : State :=
  let v := s.ports.pins.ackData
  answered (traced { s with
    block := { s.block with hold := v }
    ghost := s.ghost.claim s.params v } .read .cpu ackOff v) .ok ((idOf v).setWidth 32)

/-- The state in which COMPLETE of `irq` ends. -/
def State.serviceEnded (s : State) (irq : IrqId) : State :=
  let v := irq.setWidth 32
  answered (traced { s with ghost := s.ghost.endService v } .write .cpu eoiOff v) .ok 0#32

theorem exec_ack (ha : ackedAt s 0#3) : exec .ack s = .next s.acknowledged := by
  have hread := perform_read_ack (s := s)
  rw [Ghost.record_claim] at hread
  exact exec_xfer_last ha rfl hread (.inr rfl)

theorem exec_complete (irq : IrqId) (ha : ackedAt s 0#3) :
    exec (.complete irq) s = .next (s.serviceEnded irq) := by
  have hwrite := perform_write_eoi (s := s) (irq.setWidth 32)
  rw [Ghost.record_endService] at hwrite
  exact exec_xfer_last ha rfl hwrite (.inr rfl)

/-! ### The whole commands -/

theorem runExec_ack (hf : s.block.fsm = .decode) (hack : s.ports.pins.busAck = true) :
    runExec .ack 2 s = .next s.enterXfer.acknowledged := by
  have hvalid : validate .ack s = none := rfl
  rw [runExec_succ (exec_decode_enter hf hvalid (List.cons_ne_nil _ _))]
  exact runExec_one (exec_ack ⟨rfl, rfl, hack⟩)

theorem runExec_complete {irq : IrqId} (hi : irq.toNat < s.params.nIrq) (hf : s.block.fsm = .decode)
    (hack : s.ports.pins.busAck = true) : runExec (.complete irq) 2 s = .next (s.enterXfer.serviceEnded irq) := by
  have hvalid : validate (.complete irq) s = none := (checkRange_eq_none_iff s.params irq).2 hi
  rw [runExec_succ (exec_decode_enter hf hvalid (List.cons_ne_nil _ _))]
  exact runExec_one (exec_complete irq ⟨rfl, rfl, hack⟩)

/-- The pair of ACK and COMPLETE leaves two entries in the trace and nothing else in the ghost state (R111). -/
theorem ghost_serviceEnded_acknowledged (h : (idOf s.ports.pins.ackData).toNat < s.params.nIrq) :
    ((relatched s.acknowledged).enterXfer.serviceEnded (idOf s.ports.pins.ackData)).ghost =
      (s.ghost.record ⟨.read, .cpu, ackOff, s.ports.pins.ackData⟩).record
        ⟨.write, .cpu, eoiOff, (idOf s.ports.pins.ackData).setWidth 32⟩ := by
  let v := s.ports.pins.ackData
  let id := (idOf v).setWidth 32
  calc ((relatched s.acknowledged).enterXfer.serviceEnded (idOf v)).ghost
      = (((s.ghost.claim s.params v).record ⟨.read, .cpu, ackOff, v⟩).endService id).record
          ⟨.write, .cpu, eoiOff, id⟩ := rfl
    _ = (s.ghost.record ⟨.read, .cpu, ackOff, v⟩).record ⟨.write, .cpu, eoiOff, id⟩ := by
        rw [Ghost.record_endService, Ghost.endService_claim s.ghost h]

/-! ### The statements -/

/-- Settles O26: the one read is the last, and the claim is the list written out. -/
theorem ackAnswersTheIdAndClaimsIt : Obligations.AckAnswersTheIdAndClaimsIt := by
  intro s ha v out
  rw [exec_ack ha, State.acknowledged, Ghost.claim_eq, setWidth_idOf]
  rfl

/-- Settles O27: the one write is the last, and it meets the last outstanding ID or not. -/
theorem completeEndsServiceOrMarksTheHazard : Obligations.CompleteEndsServiceOrMarksTheHazard := by
  intro s irq ha
  have hid : BitVec.ofNat 10 (irq.setWidth 32).toNat = irq := (idOf_eq_ofNat _).symm.trans (idOf_setWidth irq)
  rw [exec_complete irq ha, State.serviceEnded, BitVec.ofNat_toNat]
  refine ⟨fun l hlast => ?_, fun hlast => ?_⟩
  · rw [Ghost.endService_in_order (hid.symm ▸ hlast)]
    rfl
  · rw [Ghost.endService_out_of_order (hid.symm ▸ hlast)]
    rfl

/-- Settles O41: both last states are known in full, and ending the service of the ID claimed undoes the claim. -/
theorem ackThenCompleteRestoresOutstanding : Obligations.AckThenCompleteRestoresOutstanding := by
  intro s hf hack hlt
  have hexists : (idOf s.ports.pins.ackData).toNat < s.params.nIrq := by
    rwa [idOf_eq_ofNat, BitVec.toNat_ofNat]
  have hanswered : BitVec.ofNat 10 s.enterXfer.acknowledged.block.rspData.toNat = idOf s.ports.pins.ackData :=
    (idOf_eq_ofNat _).symm.trans (idOf_setWidth _)
  have hghost := ghost_serviceEnded_acknowledged (s := s.enterXfer) hexists
  have hout := congrArg Ghost.outstanding hghost
  have hhazard := congrArg Ghost.hazardFault hghost
  refine ⟨_, (relatched s.enterXfer.acknowledged).enterXfer.serviceEnded (idOf s.ports.pins.ackData),
    runExec_ack hf hack, ?_, rfl, hout, hhazard, rfl⟩
  rw [hanswered]
  exact runExec_complete hexists rfl hack

/-- Settles O42: the response and the claim read the word through its ID alone. -/
theorem ackDiscardsTheHighBits : Obligations.AckDiscardsTheHighBits := by
  intro s v v' hlow ha drawn
  have hid := (idOf_eq_idOf_iff v v').2 hlow
  have hout : (s.ghost.claim s.params v).outstanding = (s.ghost.claim s.params v').outstanding := by
    rw [s.ghost.claim_congr s.params hid]
  exact ⟨_, _, exec_ack (s := drawn v) ha, exec_ack (s := drawn v') ha, congrArg (BitVec.setWidth 32) hid, rfl,
    hout, rfl⟩

end Sys2Proof.Machine
end

section
/-! The family 46_set_type.md: a supported code acts through its trigger kind alone, so polarity has no effect (R115). -/

namespace Sys2Proof.Machine

/-- The codes of R113 that name the two edges. -/
theorem typeKind_edge : typeKind 1#4 = some .edge ∧ typeKind 2#4 = some .edge := ⟨rfl, rfl⟩

/-- The codes of R113 that name the two levels. -/
theorem typeKind_level : typeKind 4#4 = some .level ∧ typeKind 8#4 = some .level := ⟨rfl, rfl⟩

/-- Settles O29: SET_TYPE runs as SET_TRIGGER with its code's kind, and both polarities of a kind have that kind. -/
theorem setTypeIsSetTriggerWithTheTranslatedKind : Obligations.SetTypeIsSetTriggerWithTheTranslatedKind := by
  intro s irq
  obtain ⟨hrising, hfalling⟩ := typeKind_edge
  obtain ⟨hhigh, hlow⟩ := typeKind_level
  exact ⟨exec_setType_eq_setTrigger hrising irq s, exec_setType_eq_setTrigger hfalling irq s,
    exec_setType_eq_setTrigger hhigh irq s, exec_setType_eq_setTrigger hlow irq s⟩

end Sys2Proof.Machine
end

section
/-! The family 60_exceptions.md: what a rejected command changes (R119), and which commands write which register (R123,
10_state.md R23 to R28). -/

namespace Sys2Proof.Machine

variable {s t : State}

/-! ### The register map across configurations (20_memory.md R46, R49) -/

/-- The configuration with every interrupt and a GROUP family of its own: it maps every register that another maps. -/
def widest (p : Params) : Params := { p with nIrq := 1024, groupBase := .dedicated }

theorem paramsOk_widest {p : Params} (hp : paramsOk p = true) : paramsOk (widest p) = true := by
  obtain ⟨-, -, -, hwindows⟩ := (paramsOk_iff p).1 hp
  exact (paramsOk_iff (widest p)).2 ⟨by simp [widest], by simp [widest], le_rfl, hwindows⟩

theorem regExists_widest {p : Params} (hp : paramsOk p = true) {r : Reg} (h : regExists p r) :
    regExists (widest p) r := by
  obtain ⟨-, -, hle⟩ := paramsOk_nIrq hp
  cases r with
  | group j =>
    obtain ⟨-, hlt⟩ := h
    exact ⟨rfl, by simp only [widest]; omega⟩
  | ctrl | ack | eoi => trivial
  | _ => simp only [regExists, widest] at h ⊢; omega

/-- No offset is a register of one family in one configuration and of another family in another. -/
theorem eq_of_regAt_widest {p : Params} (hp : paramsOk p = true) {bank : Bank} {off : Nat} {r r' : Reg}
    (hr : regAt p bank off = some r) (hr' : regAt (widest p) bank off = some r') : r = r' := by
  obtain ⟨hhome, hex⟩ := (regAt_eq_some_iff hp bank off r).1 hr
  have hwide := (regAt_eq_some_iff (paramsOk_widest hp) bank off r).2 ⟨hhome, regExists_widest hp hex⟩
  exact Option.some.inj (hwide.symm.trans hr')

/-! ### The registers that the writes of a command reach (30_encoding.md R81) -/

/-- The registers a command writes, by `GROUP_BASE`: REG_WRITE writes any, and no other command a family it does not
name (R123). -/
inductive WritesReg (g : GroupBase) : Instr → Reg → Prop where
  | regWrite (bank : Bank) (off : BitVec 12) (d : Word) (r : Reg) : WritesReg g (.regWrite bank off d) r
  | setTrigger (kind : TrigKind) (irq : IrqId) (j : Nat) : WritesReg g (.setTrigger kind irq) (.config j)
  | setType (arg : BitVec 4) (irq : IrqId) (j : Nat) : WritesReg g (.setType arg irq) (.config j)
  | setPending (irq : IrqId) (j : Nat) : WritesReg g (.setPending irq) (.pendingSet j)
  | clearPending (irq : IrqId) (j : Nat) : WritesReg g (.clearPending irq) (.pendingClear j)
  | setSecurity (sec : Security) (irq : IrqId) (j : Nat) : WritesReg g (.setSecurity sec irq) (.group j)
  | setSecurityAliased (hg : g = .aliased) (sec : Security) (irq : IrqId) (j : Nat) :
      WritesReg g (.setSecurity sec irq) (.enableSet j)
  | enableCtrl (irq : IrqId) : WritesReg g (.enable irq) .ctrl
  | enableSet (irq : IrqId) (j : Nat) : WritesReg g (.enable irq) (.enableSet j)
  | enableTarget (irq : IrqId) (j : Nat) : WritesReg g (.enable irq) (.target j)
  | disable (irq : IrqId) (j : Nat) : WritesReg g (.disable irq) (.enableClear j)
  | complete (irq : IrqId) : WritesReg g (.complete irq) .eoi

/-- The one write of the trigger engine is at its CFG word (42_trigger.md R97). -/
theorem off_of_write_mem_triggerSequence {kind : TrigKind} {irq : IrqId} {h : Word} {bank : Bank} {off : Nat} {v : Word}
    (hx : .write bank off v ∈ triggerSequence kind irq h) : bank = .dist ∧ off = cfgOff irq := by
  simp only [triggerSequence, List.mem_cons, List.not_mem_nil, or_false, reduceCtorEq, false_or,
    Txn.write.injEq] at hx
  exact ⟨hx.1, hx.2.1⟩

/-- The writes of a command are at the registers it names, whether or not its interrupt exists (XFER makes no check). -/
theorem writesReg_of_mem_transactions (hp : paramsOk s.params = true) {i : Instr} {bank : Bank} {off : Nat} {v : Word}
    {r : Reg} (hx : .write bank off v ∈ transactions i s) (hr : regAt s.params bank off = some r) :
    WritesReg s.params.groupBase i r := by
  have hwide := paramsOk_widest hp
  have exists_widest (irq : IrqId) : irq.toNat < (widest s.params).nIrq := irq.isLt
  have reg_eq {r' : Reg} (hr' : regAt (widest s.params) bank off = some r') : r = r' := eq_of_regAt_widest hp hr hr'
  cases i with
  | regRead => cases List.mem_singleton.1 hx
  | ack => cases List.mem_singleton.1 hx
  | resolveMask =>
    simp only [transactions, seqResolveMask] at hx
    split at hx <;> simp at hx
  | regWrite => exact .regWrite ..
  | setTrigger kind irq =>
    obtain ⟨rfl, rfl⟩ := off_of_write_mem_triggerSequence hx
    exact reg_eq (regAt_cfgOff hwide irq (exists_widest irq)) ▸ .setTrigger ..
  | setType arg irq =>
    simp only [transactions, seqSetType] at hx
    split at hx
    · obtain ⟨rfl, rfl⟩ := off_of_write_mem_triggerSequence hx
      exact reg_eq (regAt_cfgOff hwide irq (exists_widest irq)) ▸ .setType ..
    · exact absurd hx List.not_mem_nil
  | setPending irq =>
    cases List.mem_singleton.1 hx
    exact reg_eq (regAt_pendSetOff hwide irq (exists_widest irq)) ▸ .setPending ..
  | clearPending irq =>
    cases List.mem_singleton.1 hx
    exact reg_eq (regAt_pendClrOff hwide irq (exists_widest irq)) ▸ .clearPending ..
  | setSecurity sec irq =>
    simp only [transactions, seqSetSecurity, List.mem_cons, List.not_mem_nil, or_false, reduceCtorEq, false_or,
      Txn.write.injEq] at hx
    obtain ⟨rfl, rfl, -⟩ := hx
    cases hg : s.params.groupBase with
    | dedicated =>
      rw [hg] at reg_eq
      exact reg_eq (regAt_grpOff_dedicated hwide irq (exists_widest irq) rfl) ▸ .setSecurity ..
    | aliased =>
      rw [hg] at reg_eq
      exact reg_eq (regAt_enSetOff hwide irq (exists_widest irq)) ▸ .setSecurityAliased rfl ..
  | enable irq =>
    simp only [transactions, seqEnable, List.mem_cons, List.not_mem_nil, or_false, reduceCtorEq, false_or,
      Txn.write.injEq] at hx
    obtain ⟨rfl, rfl, -⟩ | ⟨rfl, rfl, -⟩ | ⟨rfl, rfl, -⟩ := hx
    · exact reg_eq (regAt_ctrlOff _) ▸ .enableCtrl ..
    · exact reg_eq (regAt_enSetOff hwide irq (exists_widest irq)) ▸ .enableSet ..
    · exact reg_eq (regAt_tgtOff hwide irq (exists_widest irq)) ▸ .enableTarget ..
  | disable irq =>
    cases List.mem_singleton.1 hx
    exact reg_eq (regAt_enClrOff hwide irq (exists_widest irq)) ▸ .disable ..
  | complete irq =>
    cases List.mem_singleton.1 hx
    exact reg_eq (regAt_eoiOff _) ▸ .complete ..

/-! ### What changes in the banks -/

/-- Between two bank contents no register family but that of `r` differs (PEND, which the environment also changes, is
left out). -/
structure ChangesOnly (r : Reg) (b b' : Banks) : Prop where
  tgt : b'.tgt ≠ b.tgt → ∃ j, r = .target j
  cpuCtrl : b'.cpuCtrl ≠ b.cpuCtrl → r = .ctrl
  cfg : b'.cfg ≠ b.cfg → ∃ j, r = .config j
  grp : b'.grp ≠ b.grp → ∃ j, r = .group j
  en : b'.en ≠ b.en → ∃ j, r = .enableSet j ∨ r = .enableClear j

/-- A write changes no family but its register's own (20_memory.md R47). -/
theorem changesOnly_of_poke {b b' : Banks} {r : Reg} {v wi : Word} (h : b.poke r v wi = some b') :
    ChangesOnly r b b' := by
  cases r <;> cases h <;> constructor <;> simp

/-- A step changes pending bits alone, or a command in XFER writes a register (10_state.md R36, 20_memory.md R41). -/
theorem step_changes_banks (hstep : step s = .next t) :
    (∃ pend, t.banks = { s.banks with pend := pend }) ∨
    ∃ i r, s.fetch = .ok i ∧ s.block.fsm = .xfer ∧ WritesReg s.params.groupBase i r ∧
      ChangesOnly r s.banks t.banks := by
  have hp := paramsOk_of_step hstep
  have hsample : s.sample.banks = { s.banks with pend := s.sample.banks.pend } := environment_frame _ _ _
  obtain ⟨-, -, ⟨hbanks, -⟩ | ⟨i, x, u, hf, hd, hx, hu, hbanks, -⟩⟩ := step_effect hstep
  · exact .inl ⟨_, hbanks.trans hsample⟩
  · cases x with
    | read bank off =>
      obtain ⟨r, v, -, -, rfl⟩ := (busRead_eq_some_iff s.sample bank off).1 hu
      exact .inl ⟨_, hbanks.trans hsample⟩
    | write bank off v =>
      obtain ⟨r, b, hr, hb, rfl⟩ := (busWrite_eq_some_iff s.sample bank off v).1 hu
      have hw := writesReg_of_mem_transactions (s := s.sample) hp (List.mem_of_getElem? hx) hr
      rw [hsample] at hb
      obtain ⟨htgt, hctrl, hcfg, hgrp, hen⟩ := changesOnly_of_poke hb
      exact .inr ⟨i, r, hd, hf, hw, hbanks ▸ ⟨htgt, hctrl, hcfg, hgrp, hen⟩⟩

/-! ### The statements -/

/-- Settles O17: a failing check and an illegal word both answer with the state but for its response. -/
theorem rejectedCommandsChangeOnlyTheirResponse : Obligations.RejectedCommandsChangeOnlyTheirResponse :=
  fun _ hf => ⟨fun _ _ hv => exec_decode_fail hf hv, fun _ hd => transition_of_illegalWord hf hd, fun _ => ⟨rfl, rfl⟩⟩

/-- Settles O51: a change is a write of a register of that family, and `WritesReg` lists the commands that make one. -/
theorem onlyTheseCommandsWriteEachRegister : Obligations.OnlyTheseCommandsWriteEachRegister := by
  intro s t hstep
  rcases step_changes_banks hstep with ⟨pend, hbanks⟩ | ⟨i, r, hd, hf, hw, hchanges⟩
  · simp [hbanks]
  · refine ⟨fun hne => ⟨i, hd, hf, ?_⟩, fun hne => ⟨i, hd, hf, ?_⟩, fun hne => ⟨i, hd, hf, ?_⟩,
      fun hne => ⟨i, hd, hf, ?_⟩, fun hne => ⟨i, hd, hf, ?_⟩⟩
    · obtain ⟨j, rfl⟩ := hchanges.tgt hne
      cases hw with
      | enableTarget irq => exact .inl ⟨irq, rfl⟩
      | regWrite bank off d => exact .inr ⟨bank, off, d, rfl⟩
    · obtain rfl := hchanges.cpuCtrl hne
      cases hw with
      | enableCtrl irq => exact .inl ⟨irq, rfl⟩
      | regWrite bank off d => exact .inr ⟨bank, off, d, rfl⟩
    · obtain ⟨j, rfl⟩ := hchanges.cfg hne
      cases hw with
      | setTrigger kind irq => exact .inl ⟨kind, irq, rfl⟩
      | setType arg irq => exact .inr (.inl ⟨arg, irq, rfl⟩)
      | regWrite bank off d => exact .inr (.inr ⟨bank, off, d, rfl⟩)
    · obtain ⟨j, rfl⟩ := hchanges.grp hne
      cases hw with
      | setSecurity sec irq => exact .inl ⟨sec, irq, rfl⟩
      | regWrite bank off d => exact .inr ⟨bank, off, d, rfl⟩
    · obtain ⟨j, rfl | rfl⟩ := hchanges.en hne
      · cases hw with
        | enableSet irq => exact .inl ⟨irq, rfl⟩
        | setSecurityAliased hg sec irq => exact .inr (.inr (.inr ⟨hg, sec, irq, rfl⟩))
        | regWrite bank off d => exact .inr (.inr (.inl ⟨bank, off, d, rfl⟩))
      · cases hw with
        | disable irq => exact .inr (.inl ⟨irq, rfl⟩)
        | regWrite bank off d => exact .inr (.inr (.inl ⟨bank, off, d, rfl⟩))

end Sys2Proof.Machine
end

section
/-! The family 70_reset_and_hazards.md: the block after a step in reset (R134, R135), and the transaction in flight when
reset asserts (R136). -/

namespace Sys2Proof.Machine

variable {s t : State}

/-! ### The step in reset -/

/-- A step with `rst_n = 0`, or the first after it rises, settles the transaction in flight and resets the block. -/
theorem step_of_inReset (hp : paramsOk s.params = true)
    (hr : s.ports.nextPins.rstN = false ∨ s.block.rstHeld = true) : step s = .next s.sample.takeReset := by
  rcases step_cases s with ⟨hbad, -⟩ | ⟨-, -, hreset⟩ | ⟨-, hrun, -⟩
  · cases hbad.symm.trans hp
  · exact hreset
  · rcases hr with hr | hr <;> simp [State.inReset, hr] at hrun

/-! ### The transaction in flight (R136) -/

theorem presented_of_ne_xfer (hf : s.block.fsm ≠ .xfer) : s.presented = none := by
  cases hfsm : s.block.fsm with
  | xfer => exact absurd hfsm hf
  | _ => simp only [State.presented, hfsm]

theorem settleInflight_none (s : State) : s.settleInflight none = s :=
  (settleInflight_cases s none).resolve_right (fun ⟨_, _, hx, _⟩ => by cases hx)

theorem settleInflight_done {x : Txn} (hdone : s.ports.pins.inflightDone = true) (ht : s.perform x = some t) :
    s.settleInflight (some x) = t := by
  simp [State.settleInflight, hdone, ht]

theorem settleInflight_notDone (hdone : s.ports.pins.inflightDone = false) (o : Option Txn) :
    s.settleInflight o = s :=
  (settleInflight_cases s o).resolve_right (fun ⟨_, htrue, _⟩ => by cases hdone.symm.trans htrue)

theorem settleInflight_ports (s : State) (o : Option Txn) : (s.settleInflight o).ports = s.ports := by
  rcases settleInflight_cases s o with heq | ⟨x, -, -, hu⟩
  · rw [heq]
  · obtain ⟨-, hports, -⟩ := perform_frame hu
    exact hports

/-! ### The statements -/

/-- Settles O12: by `Block.reset`, after a transaction in flight that outside XFER there is none of. -/
theorem resetGivesTheBlockItsResetValues : Obligations.ResetGivesTheBlockItsResetValues := by
  intro s hp hr
  have hstep := step_of_inReset hp hr
  refine ⟨_, hstep, rfl, rfl, rfl, rfl, rfl, rfl, ?_, ?_, noStepChangesTheConfiguration s _ hstep, fun hf => ?_⟩
  · rw [State.takeReset, State.resetBlock_rstHeld, settleInflight_ports, State.sample_pins]
  · rw [State.busReq, presented_of_ne_xfer (by simp [State.takeReset]), Option.isSome_none]
  · rw [State.takeReset, presented_of_ne_xfer (s := s.sample) hf, settleInflight_none]
    exact ⟨rfl, rfl⟩

/-- Settles O13: reset keeps the banks and the ghost state of what the transaction in flight left. -/
theorem resetSettlesTheTransactionInFlight : Obligations.ResetSettlesTheTransactionInFlight := by
  intro s t x hp hr hx ht
  refine ⟨_, step_of_inReset hp (.inl hr), rfl, rfl, fun hdone => ?_, fun hdone => ?_⟩
  · rw [State.takeReset, hx, settleInflight_done hdone ht]
    exact ⟨rfl, rfl⟩
  · rw [State.takeReset, settleInflight_notDone (s := s.sample) hdone]
    exact ⟨rfl, rfl⟩

end Sys2Proof.Machine
end
